-- ==== Sys2Proof/Word.lean ====
section
/-! DEFINITION. The word types (spec 00_scope.md R5, R6, R7: registers, table words and packet words are 32-bit
unsigned values, bit 0 the least significant). -/

namespace Sys2Proof

/-- A register, table word or packet word (`XLEN` = 32, R5). -/
abbrev Word := BitVec 32

/-- The smallest addressable unit of system memory (R37: byte = 8 bits). -/
abbrev Byte := BitVec 8

end Sys2Proof
end

