-- ==== Sys2Proof/Config.lean ====
section
/-! DEFINITION. What an implementation fixes (spec 00_scope.md R5) and the free values. The fixed numbers of R5 are
plain definitions. The open parameters that a rule uses are the record `Params`, held in `State` (log 2), so that
every statement about every state holds for every value of them. The open parameters that no rule uses, the content of
memory at power-on and the draws are opaque constants (log 16, log 4, log 3). -/

namespace Sys2Proof

namespace Config

/-- `NCH` (R5): channels 0 to 31. -/
def nch : Nat := 32

/-- `NMAPCH` (R5): channels 0 to 15 have a mapping field (90_conflicts.md C1). -/
def nmapch : Nat := 16

/-- `ENTRY_BYTES` (R5). -/
def entryBytes : Nat := 16

/-- `HALF_BYTES` (R5). -/
def halfBytes : Nat := 512

/-- `TABLE_BYTES` (R5, R49). -/
def tableBytes : Nat := 1024

/-- `TABLE_ALIGN` (R5, R49). -/
def tableAlign : Nat := 1024

/-- `NCFG_MAX` (R5, decision D20). -/
def ncfgMax : Nat := 32

/-- One past the highest byte address (`ALEN` = 32, R5). -/
def addrLimit : Nat := 2 ^ 32

/-- The free values of STAT and WAITSTAT reads (R8 `draw`, R20, R24, D16): the `n`-th draw since power-on. No body:
nothing can be proved of a draw. Log 3. -/
opaque draw : Nat → Word

/-- `MEM0` (R5, R124, R138, R141, D29): what each byte of system memory holds at power-on, a free value. No body:
nothing can be proved of any byte. Log 4. -/
opaque mem0 : Nat → Byte

/-- `SETTLE_ITER` (R5, D15): no value, no rule depends on it (R142). Log 16. -/
opaque settleIter : Nat

/-- `UDMA_BASE` (R5, R51, D33): no value, used by no rule. Log 16. -/
opaque udmaBase : Word

/-- `SYSCTL_BASE` (R5, R51, D33): no value, used by no rule. Log 16. -/
opaque sysctlBase : Word

end Config

/-- `FIELD_TARGET` (R5, R48, D7): which half of the table the field-packing requests write. -/
inductive FieldTarget where
  /-- `tgt(ch) = 0`: the value the spec fixes. -/
  | primary
  /-- `tgt(ch) = csr.altsel[ch]`: the alternative that R48 leaves as a named parameter. -/
  | selected
deriving DecidableEq, Repr

/-- A range of byte addresses `[base, base + size)`. -/
structure AddrRange where
  base : Nat
  size : Nat
deriving DecidableEq, Repr

/-- The open parameters that rules use (R5, R124): constants of the machine, never changed by a step. -/
structure Params where
  /-- `BUF_BASE` (R5, R50, D30). -/
  bufBase : Word
  /-- `BUF_BYTES` (R5, R50, D30). A natural number: 2^32 is a legal size when `BUF_BASE` is 0. -/
  bufBytes : Nat
  /-- `FIELD_TARGET` (R48). -/
  fieldTarget : FieldTarget
  /-- The addresses that `mem_ok` (R124) refuses, as data: `mem_ok(a)` is false exactly inside these ranges (log 6). -/
  memRefused : List AddrRange
deriving DecidableEq, Repr

/-- The defaults of R5 and R124, which the vectors of 95_test_vectors.md use. -/
def Params.standard : Params :=
  { bufBase := 0x20000123#32, bufBytes := 2047, fieldTarget := .primary, memRefused := [] }

/-- What R5 and R50 ask of the buffer parameters: `BUF_BYTES >= 2047` and `BUF_BASE + BUF_BYTES <= 2^32`. -/
abbrev Params.BufferOk (p : Params) : Prop :=
  2047 ≤ p.bufBytes ∧ p.bufBase.toNat + p.bufBytes ≤ Config.addrLimit

end Sys2Proof
end

