-- ==== Sys2Proof/Syntax.lean ====
section
/-! DEFINITION. The syntax of the request packets (spec 30_encoding.md): the named field values, the configuration
record, the register names and `Instr`, one constructor for each row of spec/opcode_table.json. -/

namespace Sys2Proof

/-- Transfer mode (R59). -/
inductive TransferMode where
  | stop | basic | auto | pingpong | memsg | altmemsg | persg | altpersg
deriving DecidableEq, Repr

/-- Item size (R60). The fourth value of the 2-bit field is reserved. -/
inductive ItemSize where
  | byte | half | word | reserved
deriving DecidableEq, Repr

/-- Address-increment policy (R61). -/
inductive Increment where
  | incbyte | inchalf | incword | noinc
deriving DecidableEq, Repr

/-- Priority tier (R63). -/
inductive Tier where
  | default | high
deriving DecidableEq, Repr

/-- Request granularity (R64). -/
inductive Granularity where
  | single | burst
deriving DecidableEq, Repr

/-- The two halves of the control table (R47, R75). -/
inductive Half where
  | pri | alt
deriving DecidableEq, Repr

/-- The four words of an entry (R46, R75): source end pointer, destination end pointer, control word, reserved. -/
inductive EntryWord where
  | src | dst | ctl | rsv
deriving DecidableEq, Repr

/-- A configuration record, 25 bits (R68). -/
structure ConfigRecord where
  ch : BitVec 8
  enc : BitVec 8
  tier : Tier
  mode : TransferMode
  gran : Granularity
  arb : BitVec 4
deriving DecidableEq, Repr

/-- The registers of the controller register set (R19, R44). -/
inductive Reg where
  | stat
  | cfg
  | ctlbase
  | altbase
  | waitstat
  | swreq
  | useburstset
  | useburstclr
  | reqmaskset
  | reqmaskclr
  | enaset
  | enaclr
  | altset
  | altclr
  | prioset
  | prioclr
  | errclr
  | chasgn
  | chmap0
  | chmap1
  | chmap2
  | chmap3
deriving DecidableEq, Repr

/-- A request packet (R69): the OP word and its argument words, oldest first. -/
structure Packet where
  op : Word
  args : List Word
deriving DecidableEq, Repr

/-- A request (R70), one constructor a row of spec/opcode_table.json; the operands are the OP word's fields and the
argument words. `rd` and `wr` are the generic rows: an offset that is not in the register map (R120). -/
inductive Instr where
  /-- LOCATE (R77). -/
  | locate (buffer bufferSize alignment tableSize : Word)
  /-- TBLCHK (R80). -/
  | tblchk (base : Word)
  /-- TBLRD (R81). -/
  | tblrd (ch : BitVec 8) (half : Half) (w : EntryWord)
  /-- TBLWR (R82). -/
  | tblwr (ch : BitVec 8) (half : Half) (w : EntryWord) (data : Word)
  /-- CLKON (R84). -/
  | clkon
  /-- SETMAP (R85). -/
  | setmap (ch : BitVec 8) (enc : BitVec 8)
  /-- SETPRIO (R86). -/
  | setprio (ch : BitVec 8) (tier : Tier)
  /-- SETMODE (R87). -/
  | setmode (ch : BitVec 8) (mode : TransferMode)
  /-- SETGRAN (R88). -/
  | setgran (ch : BitVec 8) (gran : Granularity)
  /-- SETARB (R89). -/
  | setarb (ch : BitVec 8) (arb : BitVec 4)
  /-- UNMASK (R90). -/
  | unmask (ch : BitVec 8)
  /-- INIT (R91). -/
  | init (records : List ConfigRecord)
  /-- CFGSRC (R92). -/
  | cfgsrc (ch : BitVec 8) (inc : Increment) (size : ItemSize) (endAddress : Word)
  /-- CFGDST (R93). -/
  | cfgdst (ch : BitVec 8) (inc : Increment) (size : ItemSize) (endAddress : Word)
  /-- START (R94). -/
  | start (ch : BitVec 8) (count : BitVec 16)
  /-- RD.STAT (R96, R98). -/
  | rdStat
  /-- WR.STAT (R97, R98). -/
  | wrStat (data : Word)
  /-- RD.CFG (R96, R99). -/
  | rdCfg
  /-- WR.CFG (R97, R99). -/
  | wrCfg (data : Word)
  /-- RD.CTLBASE (R96, R100). -/
  | rdCtlbase
  /-- WR.CTLBASE (R97, R100). -/
  | wrCtlbase (data : Word)
  /-- RD.ALTBASE (R96, R101). -/
  | rdAltbase
  /-- WR.ALTBASE (R97, R101). -/
  | wrAltbase (data : Word)
  /-- RD.WAITSTAT (R96, R102). -/
  | rdWaitstat
  /-- WR.WAITSTAT (R97, R102). -/
  | wrWaitstat (data : Word)
  /-- RD.SWREQ (R96, R103). -/
  | rdSwreq
  /-- WR.SWREQ (R97, R103). -/
  | wrSwreq (data : Word)
  /-- RD.USEBURSTSET (R96, R104). -/
  | rdUseburstset
  /-- WR.USEBURSTSET (R97, R104). -/
  | wrUseburstset (data : Word)
  /-- RD.USEBURSTCLR (R96, R105). -/
  | rdUseburstclr
  /-- WR.USEBURSTCLR (R97, R105). -/
  | wrUseburstclr (data : Word)
  /-- RD.REQMASKSET (R96, R106). -/
  | rdReqmaskset
  /-- WR.REQMASKSET (R97, R106). -/
  | wrReqmaskset (data : Word)
  /-- RD.REQMASKCLR (R96, R107). -/
  | rdReqmaskclr
  /-- WR.REQMASKCLR (R97, R107). -/
  | wrReqmaskclr (data : Word)
  /-- RD.ENASET (R96, R108). -/
  | rdEnaset
  /-- WR.ENASET (R97, R108). -/
  | wrEnaset (data : Word)
  /-- RD.ENACLR (R96, R109). -/
  | rdEnaclr
  /-- WR.ENACLR (R97, R109). -/
  | wrEnaclr (data : Word)
  /-- RD.ALTSET (R96, R110). -/
  | rdAltset
  /-- WR.ALTSET (R97, R110). -/
  | wrAltset (data : Word)
  /-- RD.ALTCLR (R96, R111). -/
  | rdAltclr
  /-- WR.ALTCLR (R97, R111). -/
  | wrAltclr (data : Word)
  /-- RD.PRIOSET (R96, R112). -/
  | rdPrioset
  /-- WR.PRIOSET (R97, R112). -/
  | wrPrioset (data : Word)
  /-- RD.PRIOCLR (R96, R113). -/
  | rdPrioclr
  /-- WR.PRIOCLR (R97, R113). -/
  | wrPrioclr (data : Word)
  /-- RD.ERRCLR (R96, R114). -/
  | rdErrclr
  /-- WR.ERRCLR (R97, R114). -/
  | wrErrclr (data : Word)
  /-- RD.CHASGN (R96, R115). -/
  | rdChasgn
  /-- WR.CHASGN (R97, R115). -/
  | wrChasgn (data : Word)
  /-- RD.CHMAP0 (R96, R116). -/
  | rdChmap0
  /-- WR.CHMAP0 (R97, R116). -/
  | wrChmap0 (data : Word)
  /-- RD.CHMAP1 (R96, R117). -/
  | rdChmap1
  /-- WR.CHMAP1 (R97, R117). -/
  | wrChmap1 (data : Word)
  /-- RD.CHMAP2 (R96, R118). -/
  | rdChmap2
  /-- WR.CHMAP2 (R97, R118). -/
  | wrChmap2 (data : Word)
  /-- RD.CHMAP3 (R96, R119). -/
  | rdChmap3
  /-- WR.CHMAP3 (R97, R119). -/
  | wrChmap3 (data : Word)
  /-- RD at an offset that is not in the map (R96, R120). -/
  | rd (off : BitVec 12)
  /-- WR at an offset that is not in the map (R97, R120). -/
  | wr (off : BitVec 12) (data : Word)
deriving DecidableEq, Repr

end Sys2Proof
end

