-- ==== Sys2Proof/Decode.lean ====
section
/-! DEFINITION. The encodings (spec 30_encoding.md): the codes of the named field values, the register offsets
(20_memory.md R44), the opcode map R70, the packet framing R71, the decoder, and after it the encoder. -/

namespace Sys2Proof

/-! ### Codes of the named values -/

/-- R59. -/
def TransferMode.code : TransferMode → BitVec 3
  | .stop => 0 | .basic => 1 | .auto => 2 | .pingpong => 3
  | .memsg => 4 | .altmemsg => 5 | .persg => 6 | .altpersg => 7

/-- R59: all eight values of the field are legal. -/
def TransferMode.ofCode (b : BitVec 3) : TransferMode :=
  match b.toNat with
  | 0 => .stop | 1 => .basic | 2 => .auto | 3 => .pingpong
  | 4 => .memsg | 5 => .altmemsg | 6 => .persg | _ => .altpersg

/-- R60. -/
def ItemSize.code : ItemSize → BitVec 2
  | .byte => 0 | .half => 1 | .word => 2 | .reserved => 3

/-- R60. -/
def ItemSize.ofCode (b : BitVec 2) : ItemSize :=
  match b.toNat with
  | 0 => .byte | 1 => .half | 2 => .word | _ => .reserved

/-- R61. -/
def Increment.code : Increment → BitVec 2
  | .incbyte => 0 | .inchalf => 1 | .incword => 2 | .noinc => 3

/-- R61. -/
def Increment.ofCode (b : BitVec 2) : Increment :=
  match b.toNat with
  | 0 => .incbyte | 1 => .inchalf | 2 => .incword | _ => .noinc

/-- R63. -/
def Tier.code : Tier → BitVec 1
  | .default => 0 | .high => 1

/-- R63. -/
def Tier.ofCode (b : BitVec 1) : Tier := if b = 1#1 then .high else .default

/-- R64. -/
def Granularity.code : Granularity → BitVec 1
  | .single => 0 | .burst => 1

/-- R64. -/
def Granularity.ofCode (b : BitVec 1) : Granularity := if b = 1#1 then .burst else .single

/-- R75: half is `pri` (0) or `alt` (1). -/
def Half.code : Half → BitVec 1
  | .pri => 0 | .alt => 1

/-- R75. -/
def Half.ofCode (b : BitVec 1) : Half := if b = 1#1 then .alt else .pri

/-- R75: table word is `src` (0), `dst` (1), `ctl` (2), `rsv` (3). -/
def EntryWord.code : EntryWord → BitVec 2
  | .src => 0 | .dst => 1 | .ctl => 2 | .rsv => 3

/-- R75. -/
def EntryWord.ofCode (b : BitVec 2) : EntryWord :=
  match b.toNat with
  | 0 => .src | 1 => .dst | 2 => .ctl | _ => .rsv

/-! ### The register map -/

/-- R44 (and R19): the byte offset of each register. -/
def Reg.offset : Reg → BitVec 12
  | .stat => 0x000
  | .cfg => 0x004
  | .ctlbase => 0x008
  | .altbase => 0x00c
  | .waitstat => 0x010
  | .swreq => 0x014
  | .useburstset => 0x018
  | .useburstclr => 0x01c
  | .reqmaskset => 0x020
  | .reqmaskclr => 0x024
  | .enaset => 0x028
  | .enaclr => 0x02c
  | .altset => 0x030
  | .altclr => 0x034
  | .prioset => 0x038
  | .prioclr => 0x03c
  | .errclr => 0x04c
  | .chasgn => 0x500
  | .chmap0 => 0x510
  | .chmap1 => 0x514
  | .chmap2 => 0x518
  | .chmap3 => 0x51c

/-- The registers in the order of R44. -/
def Reg.all : List Reg :=
  [.stat, .cfg, .ctlbase, .altbase, .waitstat, .swreq, .useburstset, .useburstclr,
   .reqmaskset, .reqmaskclr, .enaset, .enaclr, .altset, .altclr, .prioset, .prioclr,
   .errclr, .chasgn, .chmap0, .chmap1, .chmap2, .chmap3]

/-- The register at an offset; `none` where the offset is not in the map: not a multiple of 4, or one of the holes
of R45. -/
def Reg.ofOffset? (off : BitVec 12) : Option Reg := Reg.all.find? fun r => r.offset == off

/-- The row `RD.<REG>`. -/
def Instr.ofRead : Reg → Instr
  | .stat => .rdStat
  | .cfg => .rdCfg
  | .ctlbase => .rdCtlbase
  | .altbase => .rdAltbase
  | .waitstat => .rdWaitstat
  | .swreq => .rdSwreq
  | .useburstset => .rdUseburstset
  | .useburstclr => .rdUseburstclr
  | .reqmaskset => .rdReqmaskset
  | .reqmaskclr => .rdReqmaskclr
  | .enaset => .rdEnaset
  | .enaclr => .rdEnaclr
  | .altset => .rdAltset
  | .altclr => .rdAltclr
  | .prioset => .rdPrioset
  | .prioclr => .rdPrioclr
  | .errclr => .rdErrclr
  | .chasgn => .rdChasgn
  | .chmap0 => .rdChmap0
  | .chmap1 => .rdChmap1
  | .chmap2 => .rdChmap2
  | .chmap3 => .rdChmap3

/-- The row `WR.<REG>`. -/
def Instr.ofWrite (data : Word) : Reg → Instr
  | .stat => .wrStat data
  | .cfg => .wrCfg data
  | .ctlbase => .wrCtlbase data
  | .altbase => .wrAltbase data
  | .waitstat => .wrWaitstat data
  | .swreq => .wrSwreq data
  | .useburstset => .wrUseburstset data
  | .useburstclr => .wrUseburstclr data
  | .reqmaskset => .wrReqmaskset data
  | .reqmaskclr => .wrReqmaskclr data
  | .enaset => .wrEnaset data
  | .enaclr => .wrEnaclr data
  | .altset => .wrAltset data
  | .altclr => .wrAltclr data
  | .prioset => .wrPrioset data
  | .prioclr => .wrPrioclr data
  | .errclr => .wrErrclr data
  | .chasgn => .wrChasgn data
  | .chmap0 => .wrChmap0 data
  | .chmap1 => .wrChmap1 data
  | .chmap2 => .wrChmap2 data
  | .chmap3 => .wrChmap3 data

/-! ### The opcode map -/

/-- The opcodes of R70. -/
inductive Opcode where
  | rd | wr | tblrd | tblwr | locate | tblchk | setmap | setprio | setmode | setgran | setarb | unmask | clkon
  | init | cfgsrc | cfgdst | start
deriving DecidableEq, Repr

/-- Column `op` of R70. -/
def Opcode.code : Opcode → BitVec 8
  | .rd => 0x01
  | .wr => 0x02
  | .tblrd => 0x08
  | .tblwr => 0x09
  | .locate => 0x10
  | .tblchk => 0x11
  | .setmap => 0x20
  | .setprio => 0x21
  | .setmode => 0x22
  | .setgran => 0x23
  | .setarb => 0x24
  | .unmask => 0x25
  | .clkon => 0x26
  | .init => 0x30
  | .cfgsrc => 0x31
  | .cfgdst => 0x32
  | .start => 0x33

/-- Column `mask` of R70: the bits of the OP word that are not operand fields. -/
def Opcode.mask : Opcode → Word
  | .rd => 0xfffff000
  | .wr => 0xfffff000
  | .tblrd => 0xff00fefc
  | .tblwr => 0xff00fefc
  | .locate => 0xffffffff
  | .tblchk => 0xffffffff
  | .setmap => 0xff00ff00
  | .setprio => 0xff00fffe
  | .setmode => 0xff00fff8
  | .setgran => 0xff00fffe
  | .setarb => 0xff00fff0
  | .unmask => 0xff00ffff
  | .clkon => 0xffffffff
  | .init => 0xffffffc0
  | .cfgsrc => 0xff00fff0
  | .cfgdst => 0xff00fff0
  | .start => 0xff000000

/-- Column `match` of R70. -/
def Opcode.matchWord : Opcode → Word
  | .rd => 0x01000000
  | .wr => 0x02000000
  | .tblrd => 0x08000000
  | .tblwr => 0x09000000
  | .locate => 0x10000000
  | .tblchk => 0x11000000
  | .setmap => 0x20000000
  | .setprio => 0x21000000
  | .setmode => 0x22000000
  | .setgran => 0x23000000
  | .setarb => 0x24000000
  | .unmask => 0x25000000
  | .clkon => 0x26000000
  | .init => 0x30000000
  | .cfgsrc => 0x31000000
  | .cfgdst => 0x32000000
  | .start => 0x33000000

/-- The opcodes in the order of R70. -/
def Opcode.all : List Opcode :=
  [.rd, .wr, .tblrd, .tblwr, .locate, .tblchk, .setmap, .setprio, .setmode, .setgran, .setarb, .unmask, .clkon,
   .init, .cfgsrc, .cfgdst, .start]

/-- The opcode of a byte; every other value is reserved (R70, R74). -/
def Opcode.ofCode? (b : BitVec 8) : Option Opcode := Opcode.all.find? fun o => o.code == b

/-- Column `argc` of R70 (R71): the number of argument words, a function of the OP word alone. -/
def Opcode.argc (o : Opcode) (op : Word) : Nat :=
  match o with
  | .rd | .tblrd | .setmap | .setprio | .setmode | .setgran | .setarb | .unmask | .clkon | .start => 0
  | .wr | .tblwr | .tblchk | .cfgsrc | .cfgdst => 1
  | .locate => 4
  | .init => (op.extractLsb' 0 6).toNat

/-- R69: bits [31:24], the opcode. -/
def opcodeField (op : Word) : BitVec 8 := op.extractLsb' 24 8

/-- R69: bits [23:16], the channel. -/
def channelField (op : Word) : BitVec 8 := op.extractLsb' 16 8

/-- R71: the number of argument words that follow an OP word; 0 for a reserved opcode. Only the opcode byte and, for
INIT, the field `n` decide (log 10). -/
def argCount (op : Word) : Nat :=
  match Opcode.ofCode? (opcodeField op) with
  | none => 0
  | some o => o.argc op

/-- R69, R71: the first whole packet of a stream of words and what follows it; `none` while none has been delivered
whole. -/
def framePacket : List Word → Option (Packet × List Word)
  | [] => none
  | op :: rest =>
    if rest.length < argCount op then none
    else some ({ op := op, args := rest.take (argCount op) }, rest.drop (argCount op))

/-! ### The decoder -/

/-- Why a packet is no request (R74 a). -/
inductive DecodeError where
  /-- An opcode that R70 does not list. -/
  | reservedOpcode (op : Word)
  /-- A bit of the OP word that R70 requires to be 0 is 1. -/
  | mustBeZero (op : Word)
  /-- Bits [31:25] of a configuration record are not 0 (R68). -/
  | recordBits (record : Word)
  /-- Not `argc` argument words. The port never delivers such a packet (R69, log 11). -/
  | wrongLength (op : Word)
deriving DecidableEq, Repr

/-- R74 a, R121: the `info` of the IllegalCommand a rejected packet raises: the OP word, or the record word. -/
def DecodeError.info : DecodeError → Word
  | .reservedOpcode op => op
  | .mustBeZero op => op
  | .recordBits record => record
  | .wrongLength op => op

/-- A configuration record from its word (R68). -/
def decodeRecord (w : Word) : Except DecodeError ConfigRecord :=
  if w.extractLsb' 25 7 ≠ 0#7 then .error (.recordBits w)
  else .ok
    { ch := w.extractLsb' 0 8
      enc := w.extractLsb' 8 8
      tier := .ofCode (w.extractLsb' 16 1)
      mode := .ofCode (w.extractLsb' 17 3)
      gran := .ofCode (w.extractLsb' 20 1)
      arb := w.extractLsb' 21 4 }

/-- The records of an INIT packet; the first word with a bit of [31:25] set decides (R126: record 0 first). -/
def decodeRecords : List Word → Except DecodeError (List ConfigRecord)
  | [] => .ok []
  | w :: ws =>
    match decodeRecord w with
    | .error e => .error e
    | .ok r =>
      match decodeRecords ws with
      | .error e => .error e
      | .ok rs => .ok (r :: rs)

/-- The operand fields of R70, once the OP word matches its row and the packet has its `argc` words. -/
def decodeFields (o : Opcode) (op : Word) (args : List Word) : Except DecodeError Instr :=
  let ch := channelField op
  let arg (k : Nat) : Word := args.getD k 0#32
  match o with
  | .rd =>
    match Reg.ofOffset? (op.extractLsb' 0 12) with
    | some r => .ok (.ofRead r)
    | none => .ok (.rd (op.extractLsb' 0 12))
  | .wr =>
    match Reg.ofOffset? (op.extractLsb' 0 12) with
    | some r => .ok (.ofWrite (arg 0) r)
    | none => .ok (.wr (op.extractLsb' 0 12) (arg 0))
  | .tblrd => .ok (.tblrd ch (.ofCode (op.extractLsb' 8 1)) (.ofCode (op.extractLsb' 0 2)))
  | .tblwr => .ok (.tblwr ch (.ofCode (op.extractLsb' 8 1)) (.ofCode (op.extractLsb' 0 2)) (arg 0))
  | .locate => .ok (.locate (arg 0) (arg 1) (arg 2) (arg 3))
  | .tblchk => .ok (.tblchk (arg 0))
  | .setmap => .ok (.setmap ch (op.extractLsb' 0 8))
  | .setprio => .ok (.setprio ch (.ofCode (op.extractLsb' 0 1)))
  | .setmode => .ok (.setmode ch (.ofCode (op.extractLsb' 0 3)))
  | .setgran => .ok (.setgran ch (.ofCode (op.extractLsb' 0 1)))
  | .setarb => .ok (.setarb ch (op.extractLsb' 0 4))
  | .unmask => .ok (.unmask ch)
  | .clkon => .ok .clkon
  | .init =>
    match decodeRecords args with
    | .error e => .error e
    | .ok rs => .ok (.init rs)
  | .cfgsrc => .ok (.cfgsrc ch (.ofCode (op.extractLsb' 2 2)) (.ofCode (op.extractLsb' 0 2)) (arg 0))
  | .cfgdst => .ok (.cfgdst ch (.ofCode (op.extractLsb' 2 2)) (.ofCode (op.extractLsb' 0 2)) (arg 0))
  | .start => .ok (.start ch (op.extractLsb' 0 16))

/-- The decoder (R69, R70, R74): total, rejecting by name. -/
def decode (p : Packet) : Except DecodeError Instr :=
  match Opcode.ofCode? (opcodeField p.op) with
  | none => .error (.reservedOpcode p.op)
  | some o =>
    if p.op &&& o.mask ≠ o.matchWord then .error (.mustBeZero p.op)
    else if p.args.length ≠ o.argc p.op then .error (.wrongLength p.op)
    else decodeFields o p.op p.args

/-! ### The encoder -/

/-- An OP word from its three parts (R69): `{op, ch, lo}`. -/
def opWordOf (o : Opcode) (ch : BitVec 8) (lo : BitVec 16) : Word := o.code ++ ch ++ lo

/-- The word of a configuration record (R68): `{0, arb, gran, mode, tier, enc, ch}`. -/
def encodeRecord (r : ConfigRecord) : Word :=
  0#7 ++ r.arb ++ r.gran.code ++ r.mode.code ++ r.tier.code ++ r.enc ++ r.ch

/-- The packet of RD at an offset. -/
def readPacket (off : BitVec 12) : Packet := { op := opWordOf .rd 0#8 (0#4 ++ off), args := [] }

/-- The packet of WR at an offset. -/
def writePacket (off : BitVec 12) (data : Word) : Packet :=
  { op := opWordOf .wr 0#8 (0#4 ++ off), args := [data] }

/-- The packet of a request (R70, R75). -/
def packetOf : Instr → Packet
  | .locate b s a t => { op := opWordOf .locate 0#8 0#16, args := [b, s, a, t] }
  | .tblchk b => { op := opWordOf .tblchk 0#8 0#16, args := [b] }
  | .tblrd ch h w => { op := opWordOf .tblrd ch (0#7 ++ h.code ++ 0#6 ++ w.code), args := [] }
  | .tblwr ch h w d => { op := opWordOf .tblwr ch (0#7 ++ h.code ++ 0#6 ++ w.code), args := [d] }
  | .clkon => { op := opWordOf .clkon 0#8 0#16, args := [] }
  | .setmap ch enc => { op := opWordOf .setmap ch (0#8 ++ enc), args := [] }
  | .setprio ch t => { op := opWordOf .setprio ch (0#15 ++ t.code), args := [] }
  | .setmode ch m => { op := opWordOf .setmode ch (0#13 ++ m.code), args := [] }
  | .setgran ch g => { op := opWordOf .setgran ch (0#15 ++ g.code), args := [] }
  | .setarb ch a => { op := opWordOf .setarb ch (0#12 ++ a), args := [] }
  | .unmask ch => { op := opWordOf .unmask ch 0#16, args := [] }
  | .init rs => { op := opWordOf .init 0#8 (BitVec.ofNat 16 (rs.length % 64)), args := rs.map encodeRecord }
  | .cfgsrc ch i z e => { op := opWordOf .cfgsrc ch (0#12 ++ i.code ++ z.code), args := [e] }
  | .cfgdst ch i z e => { op := opWordOf .cfgdst ch (0#12 ++ i.code ++ z.code), args := [e] }
  | .start ch n => { op := opWordOf .start ch n, args := [] }
  | .rdStat => readPacket (Reg.offset .stat)
  | .wrStat d => writePacket (Reg.offset .stat) d
  | .rdCfg => readPacket (Reg.offset .cfg)
  | .wrCfg d => writePacket (Reg.offset .cfg) d
  | .rdCtlbase => readPacket (Reg.offset .ctlbase)
  | .wrCtlbase d => writePacket (Reg.offset .ctlbase) d
  | .rdAltbase => readPacket (Reg.offset .altbase)
  | .wrAltbase d => writePacket (Reg.offset .altbase) d
  | .rdWaitstat => readPacket (Reg.offset .waitstat)
  | .wrWaitstat d => writePacket (Reg.offset .waitstat) d
  | .rdSwreq => readPacket (Reg.offset .swreq)
  | .wrSwreq d => writePacket (Reg.offset .swreq) d
  | .rdUseburstset => readPacket (Reg.offset .useburstset)
  | .wrUseburstset d => writePacket (Reg.offset .useburstset) d
  | .rdUseburstclr => readPacket (Reg.offset .useburstclr)
  | .wrUseburstclr d => writePacket (Reg.offset .useburstclr) d
  | .rdReqmaskset => readPacket (Reg.offset .reqmaskset)
  | .wrReqmaskset d => writePacket (Reg.offset .reqmaskset) d
  | .rdReqmaskclr => readPacket (Reg.offset .reqmaskclr)
  | .wrReqmaskclr d => writePacket (Reg.offset .reqmaskclr) d
  | .rdEnaset => readPacket (Reg.offset .enaset)
  | .wrEnaset d => writePacket (Reg.offset .enaset) d
  | .rdEnaclr => readPacket (Reg.offset .enaclr)
  | .wrEnaclr d => writePacket (Reg.offset .enaclr) d
  | .rdAltset => readPacket (Reg.offset .altset)
  | .wrAltset d => writePacket (Reg.offset .altset) d
  | .rdAltclr => readPacket (Reg.offset .altclr)
  | .wrAltclr d => writePacket (Reg.offset .altclr) d
  | .rdPrioset => readPacket (Reg.offset .prioset)
  | .wrPrioset d => writePacket (Reg.offset .prioset) d
  | .rdPrioclr => readPacket (Reg.offset .prioclr)
  | .wrPrioclr d => writePacket (Reg.offset .prioclr) d
  | .rdErrclr => readPacket (Reg.offset .errclr)
  | .wrErrclr d => writePacket (Reg.offset .errclr) d
  | .rdChasgn => readPacket (Reg.offset .chasgn)
  | .wrChasgn d => writePacket (Reg.offset .chasgn) d
  | .rdChmap0 => readPacket (Reg.offset .chmap0)
  | .wrChmap0 d => writePacket (Reg.offset .chmap0) d
  | .rdChmap1 => readPacket (Reg.offset .chmap1)
  | .wrChmap1 d => writePacket (Reg.offset .chmap1) d
  | .rdChmap2 => readPacket (Reg.offset .chmap2)
  | .wrChmap2 d => writePacket (Reg.offset .chmap2) d
  | .rdChmap3 => readPacket (Reg.offset .chmap3)
  | .wrChmap3 d => writePacket (Reg.offset .chmap3) d
  | .rd off => readPacket off
  | .wr off d => writePacket off d

/-- The words of a request as the host sends them: the OP word first (R69). -/
def encode (i : Instr) : List Word := (packetOf i).op :: (packetOf i).args

/-! ### The words of an opcode-table row -/

/-- The packet whose bits are `w`, bit 0 the least significant bit of the OP word, every bit from `nbits` on being 0,
and its argument words those that the OP word asks for. -/
def tableWords (nbits w : Nat) : List Word :=
  let v := w % 2 ^ nbits
  let op := BitVec.ofNat 32 v
  op :: (List.range (argCount op)).map fun k => BitVec.ofNat 32 (v >>> (32 * (k + 1)))

/-- What the decoder reads from an instruction whose bits are `w`. -/
def decodeTableWord (nbits w : Nat) : Option Instr :=
  match framePacket (tableWords nbits w) with
  | none => none
  | some (p, _) => (decode p).toOption

end Sys2Proof
end

