-- ==== Sys2Proof/Machine/State.lean ====
section
/-! DEFINITION. The machine's state (spec 10_state.md R10 and, for memory, R11), the reasons a step can stop, and the
state after reset (70_reset_and_hazards.md R138). All plain data. INVENTORY.md lists every field with its rule. -/

namespace Sys2Proof.Machine

/-- What memory held before the first write, `MEM0` (R5, R124): an open parameter of the machine. -/
inductive PowerOn where
  /-- Not known: each byte is the free value `Config.mem0` of its address. So it is after reset (R138, R141). -/
  | free
  /-- Known: every byte is `b`. A start state that a statement or a vector gives (95_test_vectors.md) says so. -/
  | filled (b : Byte)
deriving DecidableEq, Repr

/-- System memory: what it held at power-on, and the listed bytes that differ from it, addresses strictly rising
(log 4). -/
structure Memory where
  powerOn : PowerOn
  cells : List Host.Cell
deriving DecidableEq, Repr

/-- `csr.*` (R10): the controller register set's state. -/
structure Csr where
  /-- R21. -/
  masten : Bool
  /-- R22. -/
  ctlbase : Word
  /-- R22. -/
  ctlbaseWritten : Bool
  /-- R27. -/
  useburst : Word
  /-- R28. -/
  reqmask : Word
  /-- R29. -/
  ena : Word
  /-- R30. -/
  altsel : Word
  /-- R31. -/
  prio : Word
  /-- R32. -/
  err : Word
  /-- R33. -/
  chasgn : Word
  /-- R34: channels 0 to 3. -/
  chmap0 : Word
  /-- R34: channels 4 to 7. -/
  chmap1 : Word
  /-- R34: channels 8 to 11. -/
  chmap2 : Word
  /-- R34: channels 12 to 15. -/
  chmap3 : Word
deriving DecidableEq, Repr

/-- `cfg.*` (R35): the configuration store. -/
structure CfgStore where
  list : List ConfigRecord
  valid : Bool
deriving DecidableEq, Repr

/-- `sys.*` (R17, R18): the two system-control bits. -/
structure SysCtl where
  clkEn : Bool
  pwrOk : Bool
deriving DecidableEq, Repr

/-- `flt.*` (R16): the fault latch. -/
structure FaultLatch where
  code : Byte
  info : Word
  op : Word
deriving DecidableEq, Repr

/-- The events of the history (R39). -/
inductive Event where
  | req (seq : Nat) (op : Word) (args : List Word)
  | memR (addr : Nat) (value : Word)
  | memW (addr : Nat) (value : Word)
  | swReq (ch : Nat)
  | clkSet
  | settle
  | resp (seq : Nat) (status : Byte) (value : Word)
deriving DecidableEq, Repr

/-- The sixteen fault names (60_exceptions.md R121). Raising one is a NEXT state (R128), not a stop of this model. -/
inductive FaultName where
  | illegalCommand | badOffset | accessViolation | channelRange | mapRange | badOperand | zeroCount | countRange
  | listTooLong | clockGated | noTable | tableAlign | baseRewrite | alignFail | tableOverrun | memFault
deriving DecidableEq, Repr

/-- The machine's state. -/
structure State where
  csr : Csr
  cfg : CfgStore
  sys : SysCtl
  flt : FaultLatch
  /-- R14: how many requests have completed since reset. -/
  seq : Nat
  /-- R39: the ghost history, oldest event first. -/
  hist : List Event
  /-- System memory, the control table among it (R11, R124). -/
  mem : Memory
  /-- MODEL's own (log 1): the words the host has sent and the block has not yet taken, oldest first. -/
  port : List Word
  /-- MODEL's own (log 2): the open parameters of R5 and R124. No step changes them. -/
  par : Params
  /-- MODEL's own (log 3): how many draws have been handed out. -/
  draws : Nat
deriving DecidableEq, Repr

/-- Why the MODEL stops where the spec says the case cannot occur (log 5). Both are raised by the table accesses of
Machine/Ops.lean (`memRead`, `memWrite`), only in states whose `csr.ctlbase` is not a multiple of 1024. -/
inductive Fault where
  /-- A table address of 2^32 or more (00_scope.md R7: "a fault, never a wrap"; R47: never occurs for a legal base).
  Raised by `memRead` and `memWrite`. Safe: the model stops. -/
  | outsideAddressSpace
  /-- A word access at an address that is not a multiple of 4 (20_memory.md R41 b, R42: "cannot occur"). Raised by
  `memRead` and `memWrite`. Safe: the model stops. -/
  | misalignedAccess
deriving DecidableEq, Repr

/-- Why the model gives no meaning. -/
inductive Refusal where
  /-- The instruction has no meaning yet. Raised by an arm of `exec`; no arm does. Safe: the model stops. -/
  | notModelled (mnemonic : String)
deriving DecidableEq, Repr

/-- The registers after reset (R138). -/
def Csr.reset : Csr :=
  { masten := false, ctlbase := 0, ctlbaseWritten := false, useburst := 0, reqmask := 0, ena := 0, altsel := 0
    prio := 0, err := 0, chasgn := 0, chmap0 := 0, chmap1 := 0, chmap2 := 0, chmap3 := 0 }

/-- The machine right after reset (R138). Memory lists nothing, so each of its bytes is a free value (R141, log 4); the
model's own fields are an empty port, the parameters' defaults and no draw handed out (log 1, log 2, log 3). -/
def State.reset : State :=
  { csr := Csr.reset
    cfg := { list := [], valid := false }
    sys := { clkEn := false, pwrOk := false }
    flt := { code := 0, info := 0, op := 0 }
    seq := 0
    hist := []
    mem := { powerOn := .free, cells := [] }
    port := []
    par := Params.standard
    draws := 0 }

end Sys2Proof.Machine
end

