-- ==== Sys2Proof/Machine/Memory.lean ====
section
/-! DEFINITION. System memory as data: one byte, one aligned little-endian word (spec 20_memory.md R40, R42), and the
canonical form of the list. -/

namespace Sys2Proof.Machine

/-- What the byte at `a` reads as while it is not listed: what memory held there at power-on (R124, R141, log 4). -/
def unlistedByte (p : PowerOn) (a : Nat) : Byte :=
  match p with
  | .free => Config.mem0 a
  | .filled b => b

/-- The byte at `a` of a list of cells. -/
def readCells (p : PowerOn) (cs : List Host.Cell) (a : Nat) : Byte :=
  match cs with
  | [] => unlistedByte p a
  | (b, v) :: rest => if a = b then v else readCells p rest a

/-- The cells after the byte at `a` became `v`: its entry is put in its place by address, or taken out where the byte
reads as an unlisted one. -/
def writeCells (p : PowerOn) (cs : List Host.Cell) (a : Nat) (v : Byte) : List Host.Cell :=
  match cs with
  | [] => if v = unlistedByte p a then [] else [(a, v)]
  | (b, u) :: rest =>
    if a < b then
      if v = unlistedByte p a then (b, u) :: rest else (a, v) :: (b, u) :: rest
    else if a = b then
      if v = unlistedByte p a then rest else (a, v) :: rest
    else (b, u) :: writeCells p rest a v

/-- One byte of memory. -/
def readByte (m : Memory) (a : Nat) : Byte := readCells m.powerOn m.cells a

/-- Store one byte. -/
def writeByte (m : Memory) (a : Nat) (v : Byte) : Memory := { m with cells := writeCells m.powerOn m.cells a v }

/-- The word at `a`, little-endian (R40). -/
def readWord (m : Memory) (a : Nat) : Word :=
  readByte m (a + 3) ++ readByte m (a + 2) ++ readByte m (a + 1) ++ readByte m a

/-- Store a word at `a`, little-endian (R40). -/
def writeWord (m : Memory) (a : Nat) (v : Word) : Memory :=
  writeByte
    (writeByte (writeByte (writeByte m a (v.extractLsb' 0 8)) (a + 1) (v.extractLsb' 8 8)) (a + 2)
      (v.extractLsb' 16 8))
    (a + 3) (v.extractLsb' 24 8)

/-- Every listed address lies at or above `lo` and below 2^32, the addresses strictly rise, and no listed byte reads
as an unlisted one does. -/
def canonicalFrom (p : PowerOn) (lo : Nat) (cs : List Host.Cell) : Bool :=
  match cs with
  | [] => true
  | (a, v) :: rest =>
    decide (lo ≤ a) && decide (a < Config.addrLimit) && decide (v ≠ unlistedByte p a) && canonicalFrom p (a + 1) rest

/-- The canonical form: memories of one power-on content that read the same are equal. -/
def Memory.wf (m : Memory) : Bool := canonicalFrom m.powerOn 0 m.cells

end Sys2Proof.Machine
end

