-- ==== Sys2Proof/Machine/Flags.lean ====
section
/-! DEFINITION. The block has no condition flags (spec 10_state.md R15): no request writes a flag. What it has are the
per-channel bit vectors of R26 to R32 and R65, whose bits are computed here: the write-1-to-set and write-1-to-clear
ports, and one channel's bit. -/

namespace Sys2Proof.Machine

/-- R65: the mask with only the channel's bit set, `1 << ch`. -/
def chBit (ch : BitVec 8) : Word := 1#32 <<< ch.toNat

/-- R26, WR `VSET`: `V <- V | data`. -/
def setPort (v data : Word) : Word := v ||| data

/-- R26, WR `VCLR`: `V <- V & ~data`. -/
def clrPort (v data : Word) : Word := v &&& ~~~data

/-- R83: the write to the set or the clear port that makes the channel's bit equal to `b`. -/
def putBit (v : Word) (ch : BitVec 8) (b : Bool) : Word :=
  if b then setPort v (chBit ch) else clrPort v (chBit ch)

/-- Bit `ch` of a vector (R8: `csr.X[i]`). -/
def getBit (v : Word) (ch : BitVec 8) : Bool := v.getLsbD ch.toNat

end Sys2Proof.Machine
end

