-- ==== Sys2Proof/Machine/Operands.lean ====
section
/-! DEFINITION. Operand forms: the fields of the control word (spec 30_encoding.md R58), field insertion (00_scope.md
R7), entry addresses (20_memory.md R47, R48), the mapping registers (R66), and the predicates on operands. -/

namespace Sys2Proof.Machine

/-! ### The control word -/

/-- A field of the control word: its mask and its low bit (R58). -/
structure CwField where
  mask : Word
  shift : Nat
deriving DecidableEq, Repr

/-- R58, `mode` [2:0]. -/
def cwMode : CwField := { mask := 0x00000007, shift := 0 }
/-- R58, `nub` [3]. -/
def cwNub : CwField := { mask := 0x00000008, shift := 3 }
/-- R58, `size` [13:4]: the item count minus one. -/
def cwSize : CwField := { mask := 0x00003ff0, shift := 4 }
/-- R58, `arb` [17:14]. -/
def cwArb : CwField := { mask := 0x0003c000, shift := 14 }
/-- R58, `sprot` [20:18]. -/
def cwSprot : CwField := { mask := 0x001c0000, shift := 18 }
/-- R58, `dprot` [23:21]. -/
def cwDprot : CwField := { mask := 0x00e00000, shift := 21 }
/-- R58, `ssize` [25:24]. -/
def cwSsize : CwField := { mask := 0x03000000, shift := 24 }
/-- R58, `sinc` [27:26]. -/
def cwSinc : CwField := { mask := 0x0c000000, shift := 26 }
/-- R58, `dsize` [29:28]. -/
def cwDsize : CwField := { mask := 0x30000000, shift := 28 }
/-- R58, `dinc` [31:30]. -/
def cwDinc : CwField := { mask := 0xc0000000, shift := 30 }
/-- R92: `ssize` and `sinc` together, written by CFGSRC. -/
def cwSource : CwField := { mask := 0x0f000000, shift := 24 }
/-- R93: `dsize` and `dinc` together, written by CFGDST. -/
def cwDest : CwField := { mask := 0xf0000000, shift := 28 }

/-- R7: `insert(w, mask, sh, f) = (w & ~mask) | ((f << sh) & mask)`. -/
def insertField (fld : CwField) (w f : Word) : Word := (w &&& ~~~fld.mask) ||| ((f <<< fld.shift) &&& fld.mask)

/-- The value of a field: the masked word shifted down (R6, R58). -/
def getField (fld : CwField) (w : Word) : Word := (w &&& fld.mask) >>> fld.shift

/-- R58, `packcw`: the ten fields put together. -/
def packcw (mode : BitVec 3) (nub : BitVec 1) (size : BitVec 10) (arb : BitVec 4) (sprot dprot : BitVec 3)
    (ssize sinc dsize dinc : BitVec 2) : Word :=
  mode.setWidth 32 ||| nub.setWidth 32 <<< 3 ||| size.setWidth 32 <<< 4 ||| arb.setWidth 32 <<< 14 |||
    sprot.setWidth 32 <<< 18 ||| dprot.setWidth 32 <<< 21 ||| ssize.setWidth 32 <<< 24 ||| sinc.setWidth 32 <<< 26 |||
    dsize.setWidth 32 <<< 28 ||| dinc.setWidth 32 <<< 30

/-- R92, R93: `(inc << 2) | size`, the four bits CFGSRC and CFGDST write. -/
def incSize (inc : Increment) (size : ItemSize) : Word := inc.code.setWidth 32 <<< 2 ||| size.code.setWidth 32

/-- R59: `primary_group(mode) = (mode <= 2)`. -/
def primaryGroup (m : TransferMode) : Bool := decide (m.code.toNat ≤ 2)

/-! ### Entries -/

/-- R47: the byte address of word `w` of the entry of `ch` in a half, in unbounded naturals (R7). -/
def entryAddr (ctlbase : Word) (ch : BitVec 8) (h : Half) (w : EntryWord) : Nat :=
  ctlbase.toNat + h.code.toNat * Config.halfBytes + ch.toNat * Config.entryBytes + w.code.toNat * 4

/-- R8, `entaddr` at the table base the state holds. -/
def entaddr (s : State) (ch : BitVec 8) (h : Half) (w : EntryWord) : Nat := entryAddr s.csr.ctlbase ch h w

/-- R48, `tgt(ch)`: the half the field-packing requests write. -/
def tgt (s : State) (ch : BitVec 8) : Half :=
  match s.par.fieldTarget with
  | .primary => .pri
  | .selected => if getBit s.csr.altsel ch then .alt else .pri

/-- R49: `table_ok(base)`. -/
def tableOk (base : Word) : Bool :=
  decide (base.toNat % Config.tableAlign = 0) && decide (base.toNat + Config.tableBytes ≤ Config.addrLimit)

/-- R124, `mem_ok(addr)`. -/
def memOk (s : State) (a : Nat) : Bool :=
  s.par.memRefused.all fun r => !(decide (r.base ≤ a) && decide (a < r.base + r.size))

/-! ### Mapping registers -/

/-- R66: the register that holds the channel's field, `ch div 4`, of the four there are. -/
def mapIndex (ch : BitVec 8) : Fin 4 := Fin.ofNat 4 (ch.toNat / 4)

/-- R66: the low bit of the channel's field, `8 * (ch mod 4)`. -/
def mapShift (ch : BitVec 8) : Nat := 8 * (ch.toNat % 4)

/-- `csr.chmap[r]` (R34). -/
def chmap (c : Csr) (r : Fin 4) : Word :=
  match r with
  | 0 => c.chmap0
  | 1 => c.chmap1
  | 2 => c.chmap2
  | 3 => c.chmap3

/-- `csr.chmap[r] <- v` (R34). -/
def withChmap (c : Csr) (r : Fin 4) (v : Word) : Csr :=
  match r with
  | 0 => { c with chmap0 := v }
  | 1 => { c with chmap1 := v }
  | 2 => { c with chmap2 := v }
  | 3 => { c with chmap3 := v }

/-- R85: `csr.chmap[r] | (enc << s)`. -/
def orMapping (c : Csr) (ch enc : BitVec 8) : Csr :=
  withChmap c (mapIndex ch) (chmap c (mapIndex ch) ||| enc.setWidth 32 <<< mapShift ch)

end Sys2Proof.Machine
end

