-- ==== Sys2Proof/Machine/Ops.lean ====
section
/-! DEFINITION. The shared operations: the outcome of a piece of a request, the event history (spec 10_state.md R39),
taking a fault (60_exceptions.md R128) and what stands beside it (refusal R129, reset R130, R138), the frame of every
request (40_table_manager.md, preamble), the common checks (R83, R123), and the table accesses (00_scope.md R8). -/

namespace Sys2Proof.Machine

/-- How a piece of a request ends. -/
inductive Result (α : Type) where
  /-- It went through, with a value. -/
  | done (a : α) (s : State)
  /-- `raise F(info)` (R8): the state holds what was written before the raise (R127). -/
  | raised (f : FaultName) (info : Word) (s : State)
  /-- The model stops (`Fault`). -/
  | stopped (f : Fault)

/-- One piece after another: a raise or a stop ends the request where it stands (R8). -/
def Result.bind {α β : Type} (r : Result α) (k : α → State → Result β) : Result β :=
  match r with
  | .done a s => k a s
  | .raised f info s => .raised f info s
  | .stopped f => .stopped f

/-! ### History, fault, response -/

/-- `emit E` (R8, R39). -/
def emit (e : Event) (s : State) : State := { s with hist := s.hist ++ [e] }

/-- Several events in order. -/
def emitAll (es : List Event) (s : State) : State := { s with hist := s.hist ++ es }

/-- The code of a fault (R121). -/
def FaultName.code : FaultName → Byte
  | .illegalCommand => 1 | .badOffset => 2 | .accessViolation => 3 | .channelRange => 4 | .mapRange => 5
  | .badOperand => 6 | .zeroCount => 7 | .countRange => 8 | .listTooLong => 9 | .clockGated => 10 | .noTable => 11
  | .tableAlign => 12 | .baseRewrite => 13 | .alignFail => 14 | .tableOverrun => 15 | .memFault => 16

/-- R72: the status of a completed request. -/
def statusOk : Byte := 0x00

/-- R72: the status of a refused request. -/
def statusRefused : Byte := 0xff

/-- TAKING A FAULT (R128): the latch is written and the response carries the code and the info; `seq` stays. -/
def raiseFault (f : FaultName) (info op : Word) (s : State) : State :=
  emit (.resp s.seq f.code info) { s with flt := { code := f.code, info := info, op := op } }

/-- A completed request (R8 `respond`, R14): the response carries the request's own index, then `seq` moves on
(log 7). -/
def respond (v : Word) (s : State) : State :=
  { emit (.resp s.seq statusOk v) s with seq := s.seq + 1 }

/-- R129: the answer to a request that finds the block faulted; nothing else changes. -/
def refuse (s : State) : State := emit (.resp s.seq statusRefused 0) s

/-- R16: a fault is latched. -/
def State.faulted (s : State) : Bool := s.flt.code != 0

/-- THE RETURN FROM A FAULT: there is none but reset (R130). The reset input (R138): every element of R138 at its
reset value, memory kept; the model's own fields are not the block's and stay (log 9). -/
def resetInput (s : State) : State :=
  { State.reset with mem := s.mem, port := s.port, par := s.par, draws := s.draws }

/-- The frame of every request (40_table_manager.md, preamble): the Req event, refusal of a faulted block (R129),
then the body, and its response or its fault (R72, R128). -/
def request (p : Packet) (body : Word → State → Result Word) (s : State) : Host.Outcome State Fault Refusal :=
  let s₁ := emit (.req s.seq p.op p.args) s
  if s.faulted then .next (refuse s₁)
  else
    match body p.op s₁ with
    | .done v t => .next (respond v t)
    | .raised f info t => .next (raiseFault f info p.op t)
    | .stopped f => .fault f

/-- A packet that the decoder rejects (R74 a): the request raises IllegalCommand and does nothing else. -/
def illegalPacket (p : Packet) (e : DecodeError) (s : State) : Host.Outcome State Fault Refusal :=
  request p (fun _ s => .raised .illegalCommand e.info s) s

/-! ### Checks that several requests share -/

/-- R83: `ch >= 32` raises ChannelRange. -/
def inRange {α : Type} (ch : BitVec 8) (s : State) (k : State → Result α) : Result α :=
  if Config.nch ≤ ch.toNat then .raised .channelRange (ch.setWidth 32) s else k s

/-- R85: `ch >= 16` raises MapRange. -/
def inMapRange {α : Type} (ch : BitVec 8) (s : State) (k : State → Result α) : Result α :=
  if Config.nmapch ≤ ch.toNat then .raised .mapRange (ch.setWidth 32) s else k s

/-- R92, R93: item size 3 raises BadOperand. -/
def sizeLegal {α : Type} (z : ItemSize) (s : State) (k : State → Result α) : Result α :=
  if z = .reserved then .raised .badOperand (z.code.setWidth 32) s else k s

/-- R123: without the clock, ClockGated. -/
def clocked {α : Type} (op : Word) (s : State) (k : State → Result α) : Result α :=
  if s.sys.clkEn then k s else .raised .clockGated op s

/-- R121, D14: without a table base, NoTable. -/
def tabled {α : Type} (op : Word) (s : State) (k : State → Result α) : Result α :=
  if s.csr.ctlbaseWritten then k s else .raised .noTable op s

/-! ### Table accesses -/

/-- The checks of an access of 4 bytes at `a`: the two cases the spec says cannot occur (log 5), then `mem_ok`
(R124). -/
def access {α : Type} (a : Nat) (s : State) (k : State → Result α) : Result α :=
  if a % 4 ≠ 0 then .stopped .misalignedAccess
  else if Config.addrLimit ≤ a then .stopped .outsideAddressSpace
  else if memOk s a then k s
  else .raised .memFault (BitVec.ofNat 32 a) s

/-- `MemRead(addr, 4)` (R8, R39). -/
def memRead (a : Nat) (s : State) : Result Word :=
  access a s fun s => .done (readWord s.mem a) (emit (.memR a (readWord s.mem a)) s)

/-- `MemWrite(addr, 4, v)` (R8, R39). -/
def memWrite (a : Nat) (v : Word) (s : State) : Result Unit :=
  access a s fun s => .done () (emit (.memW a v) { s with mem := writeWord s.mem a v })

/-- `rmw(addr, mask, sh, f)` (R8): two memory events. -/
def rmw (a : Nat) (fld : CwField) (f : Word) (s : State) : Result Unit :=
  (memRead a s).bind fun w s => memWrite a (insertField fld w f) s

/-- `rmw(entaddr(ch, tgt(ch), 2), …)`: a field of the channel's control word, in the half R48 names at the moment of
the access (log 15). -/
def rmwControl (ch : BitVec 8) (fld : CwField) (f : Word) (s : State) : Result Unit :=
  rmw (entaddr s ch (tgt s ch) .ctl) fld f s

end Sys2Proof.Machine
end

