-- ==== Sys2Proof/Machine/ChannelSetters.lean ====
section
/-! DEFINITION. The per-channel setters (spec 41_channel_setters.md): CLKON, SETMAP, SETPRIO, SETMODE, SETGRAN, SETARB,
UNMASK. Each has its body, what R91 calls `body(X)` (the pseudocode without the checks), and its meaning. -/

namespace Sys2Proof.Machine

/-- The body of CLKON (R84): set the clock bit if it is 0, the settle delay as an event, then the power-status bit. -/
def clkonBody (s : State) : State :=
  let s₁ := if s.sys.clkEn then s else emit .clkSet { s with sys := { s.sys with clkEn := true } }
  let s₂ := emit .settle s₁
  { s₂ with sys := { s₂.sys with pwrOk := true } }

/-- The body of SETMAP (R85): the encoding is ORed into the field. -/
def setmapBody (ch enc : BitVec 8) (s : State) : State := { s with csr := orMapping s.csr ch enc }

/-- The body of SETPRIO (R86). -/
def setprioBody (ch : BitVec 8) (t : Tier) (s : State) : State :=
  { s with csr := { s.csr with prio := putBit s.csr.prio ch (t == .high) } }

/-- The body of SETMODE (R87): the mode bits of the control word, then the alternate-select bit (D24). -/
def setmodeBody (ch : BitVec 8) (m : TransferMode) (s : State) : Result Unit :=
  (rmwControl ch cwMode (m.code.setWidth 32) s).bind fun _ s =>
    .done () { s with csr := { s.csr with altsel := putBit s.csr.altsel ch (!primaryGroup m) } }

/-- The body of SETGRAN (R88). -/
def setgranBody (ch : BitVec 8) (g : Granularity) (s : State) : State :=
  { s with csr := { s.csr with useburst := putBit s.csr.useburst ch (g == .burst) } }

/-- The body of SETARB (R89). -/
def setarbBody (ch : BitVec 8) (arb : BitVec 4) (s : State) : Result Unit :=
  rmwControl ch cwArb (arb.setWidth 32) s

/-- The body of UNMASK (R90): the effect of writing `1 << ch` to REQMASKCLR (90_conflicts.md C2). -/
def unmaskBody (ch : BitVec 8) (s : State) : State :=
  { s with csr := { s.csr with reqmask := clrPort s.csr.reqmask (chBit ch) } }

/-- CLKON (R84). -/
def execClkon (s : State) : Host.Outcome State Fault Refusal :=
  request (packetOf .clkon) (fun _ s => .done 0 (clkonBody s)) s

/-- SETMAP (R85). -/
def execSetmap (ch enc : BitVec 8) (s : State) : Host.Outcome State Fault Refusal :=
  request (packetOf (.setmap ch enc))
    (fun op s => inRange ch s fun s => inMapRange ch s fun s => clocked op s fun s => .done 0 (setmapBody ch enc s)) s

/-- SETPRIO (R86). -/
def execSetprio (ch : BitVec 8) (t : Tier) (s : State) : Host.Outcome State Fault Refusal :=
  request (packetOf (.setprio ch t))
    (fun op s => inRange ch s fun s => clocked op s fun s => .done 0 (setprioBody ch t s)) s

/-- SETMODE (R87). -/
def execSetmode (ch : BitVec 8) (m : TransferMode) (s : State) : Host.Outcome State Fault Refusal :=
  request (packetOf (.setmode ch m))
    (fun op s => inRange ch s fun s => clocked op s fun s => tabled op s fun s =>
      (setmodeBody ch m s).bind fun _ s => .done 0 s) s

/-- SETGRAN (R88). -/
def execSetgran (ch : BitVec 8) (g : Granularity) (s : State) : Host.Outcome State Fault Refusal :=
  request (packetOf (.setgran ch g))
    (fun op s => inRange ch s fun s => clocked op s fun s => .done 0 (setgranBody ch g s)) s

/-- SETARB (R89). -/
def execSetarb (ch : BitVec 8) (arb : BitVec 4) (s : State) : Host.Outcome State Fault Refusal :=
  request (packetOf (.setarb ch arb))
    (fun op s => inRange ch s fun s => clocked op s fun s => tabled op s fun s =>
      (setarbBody ch arb s).bind fun _ s => .done 0 s) s

/-- UNMASK (R90). -/
def execUnmask (ch : BitVec 8) (s : State) : Host.Outcome State Fault Refusal :=
  request (packetOf (.unmask ch))
    (fun op s => inRange ch s fun s => clocked op s fun s => .done 0 (unmaskBody ch s)) s

end Sys2Proof.Machine
end

