-- ==== Sys2Proof/Machine/RegisterRead.lean ====
section
/-! DEFINITION. Register reads (spec 43_csr_access.md): `readReg` is R96 with the read value of R98 to R119; one meaning
for each RD row. -/

namespace Sys2Proof.Machine

/-- R20, R24: a draw, a free value (log 3). -/
def drawBody (s : State) : Result Word := .done (Config.draw s.draws) { s with draws := s.draws + 1 }

/-- R121: AccessViolation and BadOffset carry the offset. -/
def offsetInfo (off : BitVec 12) : Word := off.setWidth 32

/-- R23: ALTBASE reads the address of the alternate half. -/
def altBase (c : Csr) : Word := c.ctlbase + 512#32

/-- R96 for a register of the map: AccessViolation for the write-only register, ClockGated, then the value. -/
def readReg (r : Reg) (op : Word) (s : State) : Result Word :=
  match r with
  | .stat => clocked op s drawBody
  | .cfg => clocked op s fun s => .done ((BitVec.ofBool s.csr.masten).setWidth 32) s
  | .ctlbase => clocked op s fun s => .done s.csr.ctlbase s
  | .altbase => clocked op s fun s => .done (altBase s.csr) s
  | .waitstat => clocked op s drawBody
  | .swreq => .raised .accessViolation (offsetInfo (Reg.offset .swreq)) s
  | .useburstset => clocked op s fun s => .done s.csr.useburst s
  | .useburstclr => clocked op s fun s => .done s.csr.useburst s
  | .reqmaskset => clocked op s fun s => .done s.csr.reqmask s
  | .reqmaskclr => clocked op s fun s => .done s.csr.reqmask s
  | .enaset => clocked op s fun s => .done s.csr.ena s
  | .enaclr => clocked op s fun s => .done s.csr.ena s
  | .altset => clocked op s fun s => .done s.csr.altsel s
  | .altclr => clocked op s fun s => .done s.csr.altsel s
  | .prioset => clocked op s fun s => .done s.csr.prio s
  | .prioclr => clocked op s fun s => .done s.csr.prio s
  | .errclr => clocked op s fun s => .done s.csr.err s
  | .chasgn => clocked op s fun s => .done s.csr.chasgn s
  | .chmap0 => clocked op s fun s => .done s.csr.chmap0 s
  | .chmap1 => clocked op s fun s => .done s.csr.chmap1 s
  | .chmap2 => clocked op s fun s => .done s.csr.chmap2 s
  | .chmap3 => clocked op s fun s => .done s.csr.chmap3 s

/-- R96 at any offset: BadOffset where the offset is not in the map (R120). -/
def readOffset (off : BitVec 12) (op : Word) (s : State) : Result Word :=
  match Reg.ofOffset? off with
  | none => .raised .badOffset (offsetInfo off) s
  | some r => readReg r op s

/-- RD.STAT (R98). -/
def execRdStat (s : State) : Host.Outcome State Fault Refusal := request (packetOf .rdStat) (readReg .stat) s

/-- RD.CFG (R99). -/
def execRdCfg (s : State) : Host.Outcome State Fault Refusal := request (packetOf .rdCfg) (readReg .cfg) s

/-- RD.CTLBASE (R100). -/
def execRdCtlbase (s : State) : Host.Outcome State Fault Refusal := request (packetOf .rdCtlbase) (readReg .ctlbase) s

/-- RD.ALTBASE (R101). -/
def execRdAltbase (s : State) : Host.Outcome State Fault Refusal := request (packetOf .rdAltbase) (readReg .altbase) s

/-- RD.WAITSTAT (R102). -/
def execRdWaitstat (s : State) : Host.Outcome State Fault Refusal := request (packetOf .rdWaitstat) (readReg .waitstat) s

/-- RD.SWREQ (R103). -/
def execRdSwreq (s : State) : Host.Outcome State Fault Refusal := request (packetOf .rdSwreq) (readReg .swreq) s

/-- RD.USEBURSTSET (R104). -/
def execRdUseburstset (s : State) : Host.Outcome State Fault Refusal := request (packetOf .rdUseburstset) (readReg .useburstset) s

/-- RD.USEBURSTCLR (R105). -/
def execRdUseburstclr (s : State) : Host.Outcome State Fault Refusal := request (packetOf .rdUseburstclr) (readReg .useburstclr) s

/-- RD.REQMASKSET (R106). -/
def execRdReqmaskset (s : State) : Host.Outcome State Fault Refusal := request (packetOf .rdReqmaskset) (readReg .reqmaskset) s

/-- RD.REQMASKCLR (R107). -/
def execRdReqmaskclr (s : State) : Host.Outcome State Fault Refusal := request (packetOf .rdReqmaskclr) (readReg .reqmaskclr) s

/-- RD.ENASET (R108). -/
def execRdEnaset (s : State) : Host.Outcome State Fault Refusal := request (packetOf .rdEnaset) (readReg .enaset) s

/-- RD.ENACLR (R109). -/
def execRdEnaclr (s : State) : Host.Outcome State Fault Refusal := request (packetOf .rdEnaclr) (readReg .enaclr) s

/-- RD.ALTSET (R110). -/
def execRdAltset (s : State) : Host.Outcome State Fault Refusal := request (packetOf .rdAltset) (readReg .altset) s

/-- RD.ALTCLR (R111). -/
def execRdAltclr (s : State) : Host.Outcome State Fault Refusal := request (packetOf .rdAltclr) (readReg .altclr) s

/-- RD.PRIOSET (R112). -/
def execRdPrioset (s : State) : Host.Outcome State Fault Refusal := request (packetOf .rdPrioset) (readReg .prioset) s

/-- RD.PRIOCLR (R113). -/
def execRdPrioclr (s : State) : Host.Outcome State Fault Refusal := request (packetOf .rdPrioclr) (readReg .prioclr) s

/-- RD.ERRCLR (R114). -/
def execRdErrclr (s : State) : Host.Outcome State Fault Refusal := request (packetOf .rdErrclr) (readReg .errclr) s

/-- RD.CHASGN (R115). -/
def execRdChasgn (s : State) : Host.Outcome State Fault Refusal := request (packetOf .rdChasgn) (readReg .chasgn) s

/-- RD.CHMAP0 (R116). -/
def execRdChmap0 (s : State) : Host.Outcome State Fault Refusal := request (packetOf .rdChmap0) (readReg .chmap0) s

/-- RD.CHMAP1 (R117). -/
def execRdChmap1 (s : State) : Host.Outcome State Fault Refusal := request (packetOf .rdChmap1) (readReg .chmap1) s

/-- RD.CHMAP2 (R118). -/
def execRdChmap2 (s : State) : Host.Outcome State Fault Refusal := request (packetOf .rdChmap2) (readReg .chmap2) s

/-- RD.CHMAP3 (R119). -/
def execRdChmap3 (s : State) : Host.Outcome State Fault Refusal := request (packetOf .rdChmap3) (readReg .chmap3) s

/-- RD at an offset that is not in the map (R96, R120; log 14 for a term with a mapped offset). -/
def execRd (off : BitVec 12) (s : State) : Host.Outcome State Fault Refusal :=
  request (packetOf (.rd off)) (readOffset off) s

end Sys2Proof.Machine
end

