-- ==== Sys2Proof/Machine/TableManager.lean ====
section
/-! DEFINITION. The table manager's requests (spec 40_table_manager.md): LOCATE, TBLCHK, TBLRD, TBLWR. -/

namespace Sys2Proof.Machine

/-- A fault that a check finds, with its info. -/
structure Violation where
  fault : FaultName
  info : Word
deriving DecidableEq, Repr

/-- R78: the distance from `b` to the next multiple of `a`. -/
def alignDistance (b a : Nat) : Nat := (a - b % a) % a

/-- LOCATE in closed form (R78), with the operand checks of R77; in unbounded naturals (R7). -/
def locate (b s a t : Nat) : Except Violation Nat :=
  if a = 0 then .error { fault := .badOperand, info := BitVec.ofNat 32 a }
  else if Config.addrLimit < b + s then .error { fault := .badOperand, info := BitVec.ofNat 32 s }
  else if s ≤ alignDistance b a then .error { fault := .alignFail, info := BitVec.ofNat 32 b }
  else if s < alignDistance b a + t then
    .error { fault := .tableOverrun, info := BitVec.ofNat 32 (b + alignDistance b a) }
  else .ok (b + alignDistance b a)

/-- R77, the byte-by-byte scan: from `x`, at most `n` bytes, up to the first multiple of `a`. -/
def scanFrom (a : Nat) : (n x : Nat) → Nat
  | 0, x => x
  | n + 1, x => if x % a = 0 then x else scanFrom a n (x + 1)

/-- LOCATE by the scan, R77's pseudocode line by line. `exec` uses the closed form `locate`; a statement says that the
two are equal (R78). -/
def locateByScan (b s a t : Nat) : Except Violation Nat :=
  if a = 0 then .error { fault := .badOperand, info := BitVec.ofNat 32 a }
  else if Config.addrLimit < b + s then .error { fault := .badOperand, info := BitVec.ofNat 32 s }
  else
    let x := scanFrom a s b
    if b + s ≤ x then .error { fault := .alignFail, info := BitVec.ofNat 32 b }
    else if b + s < x + t then .error { fault := .tableOverrun, info := BitVec.ofNat 32 x }
    else .ok x

/-- R77: the base address, or the fault. -/
def locateBody (b s a t : Word) (st : State) : Result Word :=
  match locate b.toNat s.toNat a.toNat t.toNat with
  | .ok x => .done (BitVec.ofNat 32 x) st
  | .error v => .raised v.fault v.info st

/-- LOCATE (R77, R78). -/
def execLocate (b s a t : Word) (st : State) : Host.Outcome State Fault Refusal :=
  request (packetOf (.locate b s a t)) (fun _ st => locateBody b s a t st) st

/-- TBLCHK (R80). -/
def execTblchk (base : Word) (s : State) : Host.Outcome State Fault Refusal :=
  request (packetOf (.tblchk base)) (fun _ s => .done (if tableOk base then 1 else 0) s) s

/-- TBLRD (R81). -/
def execTblrd (ch : BitVec 8) (h : Half) (w : EntryWord) (s : State) : Host.Outcome State Fault Refusal :=
  request (packetOf (.tblrd ch h w))
    (fun op s => inRange ch s fun s => clocked op s fun s => tabled op s fun s => memRead (entaddr s ch h w) s) s

/-- TBLWR (R82). -/
def execTblwr (ch : BitVec 8) (h : Half) (w : EntryWord) (data : Word) (s : State) :
    Host.Outcome State Fault Refusal :=
  request (packetOf (.tblwr ch h w data))
    (fun op s => inRange ch s fun s => clocked op s fun s => tabled op s fun s =>
      (memWrite (entaddr s ch h w) data s).bind fun _ s => .done 0 s) s

end Sys2Proof.Machine
end

