-- ==== Sys2Proof/Machine/TransferOps.lean ====
section
/-! DEFINITION. The transfer operations (spec 42_transfer_ops.md): INIT, CFGSRC, CFGDST, START. -/

namespace Sys2Proof.Machine

/-- `csr.ctlbase <- base; csr.ctlbase_written <- 1`, or BaseRewrite where another base has been written (R22, R91
step 3, R100). -/
def programBase (base : Word) (s : State) : Result Unit :=
  if s.csr.ctlbaseWritten && base != s.csr.ctlbase then .raised .baseRewrite base s
  else .done () { s with csr := { s.csr with ctlbase := base, ctlbaseWritten := true } }

/-- R91, the channel checks: record by record, ChannelRange before MapRange. -/
def recordViolation : List ConfigRecord → Option Violation
  | [] => none
  | r :: rs =>
    if Config.nch ≤ r.ch.toNat then some { fault := .channelRange, info := r.ch.setWidth 32 }
    else if Config.nmapch ≤ r.ch.toNat then some { fault := .mapRange, info := r.ch.setWidth 32 }
    else recordViolation rs

/-- R91 step 4 for one record: the six setters in the source's order. -/
def applyRecord (r : ConfigRecord) (s : State) : Result Unit :=
  (setmodeBody r.ch r.mode (setprioBody r.ch r.tier (setmapBody r.ch r.enc s))).bind fun _ s =>
    (setarbBody r.ch r.arb (setgranBody r.ch r.gran s)).bind fun _ s => .done () (unmaskBody r.ch s)

/-- R91 step 4: the records in list order. -/
def applyRecords : List ConfigRecord → State → Result Unit
  | [], s => .done () s
  | r :: rs, s => (applyRecord r s).bind fun _ s => applyRecords rs s

/-- R91, steps 1 and 2: the clock, then the master enable. -/
def initPower (s : State) : State :=
  let s₁ := clkonBody s
  { s₁ with csr := { s₁.csr with masten := true } }

/-- R91, step 3: the base from the block's own buffer parameters (R36), then the rewrite check. -/
def initBase (s : State) : Result Unit :=
  match locate s.par.bufBase.toNat s.par.bufBytes Config.tableAlign Config.tableBytes with
  | .error v => .raised v.fault v.info s
  | .ok x => programBase (BitVec.ofNat 32 x) s

/-- INIT after the decoder's check of the record words (R91, R126). -/
def initBody (rs : List ConfigRecord) (s : State) : Result Word :=
  if Config.ncfgMax < rs.length then .raised .listTooLong (BitVec.ofNat 32 rs.length) s
  else
    match recordViolation rs with
    | some v => .raised v.fault v.info s
    | none =>
      (initBase (initPower s)).bind fun _ s =>
        (applyRecords rs s).bind fun _ s => .done 0 { s with cfg := { list := rs, valid := true } }

/-- R94: the first record of the stored list with the channel, if a list is stored. -/
def findRecord (c : CfgStore) (ch : BitVec 8) : Option ConfigRecord :=
  if c.valid then c.list.find? fun r => r.ch == ch else none

/-- R94, step 1: re-apply the mode, then the size field `count - 1`. -/
def startFound (ch : BitVec 8) (count : BitVec 16) (m : TransferMode) (s : State) : Result Unit :=
  (setmodeBody ch m s).bind fun _ s => rmwControl ch cwSize ((count - 1#16).setWidth 32) s

/-- R94, step 3: as WR ENASET, `1 << ch`. -/
def armBody (ch : BitVec 8) (s : State) : State :=
  { s with csr := { s.csr with ena := setPort s.csr.ena (chBit ch) } }

/-- R94: the count is 1 to 1024. -/
def countLegal {α : Type} (op : Word) (count : BitVec 16) (s : State) (k : State → Result α) : Result α :=
  if count = 0#16 then .raised .zeroCount op s
  else if 1024 < count.toNat then .raised .countRange (count.setWidth 32) s
  else k s

/-- R94 after the checks. -/
def startBody (ch : BitVec 8) (count : BitVec 16) (s : State) : Result Word :=
  match findRecord s.cfg ch with
  | some r => (startFound ch count r.mode s).bind fun _ s => .done 0 (armBody ch s)
  | none => .done 0 (armBody ch s)

/-- R92, R93: an end pointer, then four bits of the control word (D24). -/
def endpointBody (ch : BitVec 8) (w : EntryWord) (fld : CwField) (inc : Increment) (z : ItemSize) (e : Word)
    (s : State) : Result Word :=
  (memWrite (entaddr s ch (tgt s ch) w) e s).bind fun _ s =>
    (rmwControl ch fld (incSize inc z) s).bind fun _ s => .done 0 s

/-- INIT (R91). -/
def execInit (rs : List ConfigRecord) (s : State) : Host.Outcome State Fault Refusal :=
  request (packetOf (.init rs)) (fun _ s => initBody rs s) s

/-- CFGSRC (R92). -/
def execCfgsrc (ch : BitVec 8) (inc : Increment) (z : ItemSize) (e : Word) (s : State) :
    Host.Outcome State Fault Refusal :=
  request (packetOf (.cfgsrc ch inc z e))
    (fun op s => inRange ch s fun s => sizeLegal z s fun s => clocked op s fun s => tabled op s fun s =>
      endpointBody ch .src cwSource inc z e s) s

/-- CFGDST (R93). -/
def execCfgdst (ch : BitVec 8) (inc : Increment) (z : ItemSize) (e : Word) (s : State) :
    Host.Outcome State Fault Refusal :=
  request (packetOf (.cfgdst ch inc z e))
    (fun op s => inRange ch s fun s => sizeLegal z s fun s => clocked op s fun s => tabled op s fun s =>
      endpointBody ch .dst cwDest inc z e s) s

/-- START (R94). -/
def execStart (ch : BitVec 8) (count : BitVec 16) (s : State) : Host.Outcome State Fault Refusal :=
  request (packetOf (.start ch count))
    (fun op s => inRange ch s fun s => countLegal op count s fun s => clocked op s fun s => startBody ch count s) s

end Sys2Proof.Machine
end

