-- ==== Sys2Proof/Machine/RegisterWrite.lean ====
section
/-! DEFINITION. Register writes (spec 43_csr_access.md): `writeReg` is R97 with the write effect of R98 to R119; one
meaning for each WR row. -/

namespace Sys2Proof.Machine

/-- R97 at its end: with the clock on, the registers become `f`, and the response value is 0. -/
def storeCsr (op : Word) (f : Csr → Csr) (s : State) : Result Word :=
  clocked op s fun s => .done 0 { s with csr := f s.csr }

/-- R99: bits [31:1] of CFG must be written 0. -/
def writeCfg (data op : Word) (s : State) : Result Word :=
  if data.extractLsb' 1 31 ≠ 0#31 then .raised .badOperand data s
  else storeCsr op (fun c => { c with masten := data.getLsbD 0 }) s

/-- R100: TableAlign, then BaseRewrite, then the write. -/
def writeCtlbase (data op : Word) (s : State) : Result Word :=
  clocked op s fun s =>
    if data.toNat % Config.tableAlign ≠ 0 then .raised .tableAlign data s
    else (programBase data s).bind fun _ s => .done 0 s

/-- R25, R103: one event for each bit that is 1, in ascending order. -/
def swReqEvents (data : Word) : List Event :=
  ((List.range 32).filter fun i => data.getLsbD i).map Event.swReq

/-- R97 for a register of the map: AccessViolation for the read-only registers, the operand check of CFG, ClockGated,
then the effect. -/
def writeReg (r : Reg) (data op : Word) (s : State) : Result Word :=
  match r with
  | .stat => .raised .accessViolation (offsetInfo (Reg.offset .stat)) s
  | .cfg => writeCfg data op s
  | .ctlbase => writeCtlbase data op s
  | .altbase => .raised .accessViolation (offsetInfo (Reg.offset .altbase)) s
  | .waitstat => .raised .accessViolation (offsetInfo (Reg.offset .waitstat)) s
  | .swreq => clocked op s fun s => .done 0 (emitAll (swReqEvents data) s)
  | .useburstset => storeCsr op (fun c => { c with useburst := setPort c.useburst data }) s
  | .useburstclr => storeCsr op (fun c => { c with useburst := clrPort c.useburst data }) s
  | .reqmaskset => storeCsr op (fun c => { c with reqmask := setPort c.reqmask data }) s
  | .reqmaskclr => storeCsr op (fun c => { c with reqmask := clrPort c.reqmask data }) s
  | .enaset => storeCsr op (fun c => { c with ena := setPort c.ena data }) s
  | .enaclr => storeCsr op (fun c => { c with ena := clrPort c.ena data }) s
  | .altset => storeCsr op (fun c => { c with altsel := setPort c.altsel data }) s
  | .altclr => storeCsr op (fun c => { c with altsel := clrPort c.altsel data }) s
  | .prioset => storeCsr op (fun c => { c with prio := setPort c.prio data }) s
  | .prioclr => storeCsr op (fun c => { c with prio := clrPort c.prio data }) s
  | .errclr => storeCsr op (fun c => { c with err := clrPort c.err data }) s
  | .chasgn => storeCsr op (fun c => { c with chasgn := data }) s
  | .chmap0 => storeCsr op (fun c => { c with chmap0 := data }) s
  | .chmap1 => storeCsr op (fun c => { c with chmap1 := data }) s
  | .chmap2 => storeCsr op (fun c => { c with chmap2 := data }) s
  | .chmap3 => storeCsr op (fun c => { c with chmap3 := data }) s

/-- R97 at any offset: BadOffset where the offset is not in the map (R120). -/
def writeOffset (off : BitVec 12) (data op : Word) (s : State) : Result Word :=
  match Reg.ofOffset? off with
  | none => .raised .badOffset (offsetInfo off) s
  | some r => writeReg r data op s

/-- WR.STAT (R98). -/
def execWrStat (data : Word) (s : State) : Host.Outcome State Fault Refusal :=
  request (packetOf (.wrStat data)) (writeReg .stat data) s

/-- WR.CFG (R99). -/
def execWrCfg (data : Word) (s : State) : Host.Outcome State Fault Refusal :=
  request (packetOf (.wrCfg data)) (writeReg .cfg data) s

/-- WR.CTLBASE (R100). -/
def execWrCtlbase (data : Word) (s : State) : Host.Outcome State Fault Refusal :=
  request (packetOf (.wrCtlbase data)) (writeReg .ctlbase data) s

/-- WR.ALTBASE (R101). -/
def execWrAltbase (data : Word) (s : State) : Host.Outcome State Fault Refusal :=
  request (packetOf (.wrAltbase data)) (writeReg .altbase data) s

/-- WR.WAITSTAT (R102). -/
def execWrWaitstat (data : Word) (s : State) : Host.Outcome State Fault Refusal :=
  request (packetOf (.wrWaitstat data)) (writeReg .waitstat data) s

/-- WR.SWREQ (R103). -/
def execWrSwreq (data : Word) (s : State) : Host.Outcome State Fault Refusal :=
  request (packetOf (.wrSwreq data)) (writeReg .swreq data) s

/-- WR.USEBURSTSET (R104). -/
def execWrUseburstset (data : Word) (s : State) : Host.Outcome State Fault Refusal :=
  request (packetOf (.wrUseburstset data)) (writeReg .useburstset data) s

/-- WR.USEBURSTCLR (R105). -/
def execWrUseburstclr (data : Word) (s : State) : Host.Outcome State Fault Refusal :=
  request (packetOf (.wrUseburstclr data)) (writeReg .useburstclr data) s

/-- WR.REQMASKSET (R106). -/
def execWrReqmaskset (data : Word) (s : State) : Host.Outcome State Fault Refusal :=
  request (packetOf (.wrReqmaskset data)) (writeReg .reqmaskset data) s

/-- WR.REQMASKCLR (R107). -/
def execWrReqmaskclr (data : Word) (s : State) : Host.Outcome State Fault Refusal :=
  request (packetOf (.wrReqmaskclr data)) (writeReg .reqmaskclr data) s

/-- WR.ENASET (R108). -/
def execWrEnaset (data : Word) (s : State) : Host.Outcome State Fault Refusal :=
  request (packetOf (.wrEnaset data)) (writeReg .enaset data) s

/-- WR.ENACLR (R109). -/
def execWrEnaclr (data : Word) (s : State) : Host.Outcome State Fault Refusal :=
  request (packetOf (.wrEnaclr data)) (writeReg .enaclr data) s

/-- WR.ALTSET (R110). -/
def execWrAltset (data : Word) (s : State) : Host.Outcome State Fault Refusal :=
  request (packetOf (.wrAltset data)) (writeReg .altset data) s

/-- WR.ALTCLR (R111). -/
def execWrAltclr (data : Word) (s : State) : Host.Outcome State Fault Refusal :=
  request (packetOf (.wrAltclr data)) (writeReg .altclr data) s

/-- WR.PRIOSET (R112). -/
def execWrPrioset (data : Word) (s : State) : Host.Outcome State Fault Refusal :=
  request (packetOf (.wrPrioset data)) (writeReg .prioset data) s

/-- WR.PRIOCLR (R113). -/
def execWrPrioclr (data : Word) (s : State) : Host.Outcome State Fault Refusal :=
  request (packetOf (.wrPrioclr data)) (writeReg .prioclr data) s

/-- WR.ERRCLR (R114). -/
def execWrErrclr (data : Word) (s : State) : Host.Outcome State Fault Refusal :=
  request (packetOf (.wrErrclr data)) (writeReg .errclr data) s

/-- WR.CHASGN (R115). -/
def execWrChasgn (data : Word) (s : State) : Host.Outcome State Fault Refusal :=
  request (packetOf (.wrChasgn data)) (writeReg .chasgn data) s

/-- WR.CHMAP0 (R116). -/
def execWrChmap0 (data : Word) (s : State) : Host.Outcome State Fault Refusal :=
  request (packetOf (.wrChmap0 data)) (writeReg .chmap0 data) s

/-- WR.CHMAP1 (R117). -/
def execWrChmap1 (data : Word) (s : State) : Host.Outcome State Fault Refusal :=
  request (packetOf (.wrChmap1 data)) (writeReg .chmap1 data) s

/-- WR.CHMAP2 (R118). -/
def execWrChmap2 (data : Word) (s : State) : Host.Outcome State Fault Refusal :=
  request (packetOf (.wrChmap2 data)) (writeReg .chmap2 data) s

/-- WR.CHMAP3 (R119). -/
def execWrChmap3 (data : Word) (s : State) : Host.Outcome State Fault Refusal :=
  request (packetOf (.wrChmap3 data)) (writeReg .chmap3 data) s

/-- WR at an offset that is not in the map (R97, R120; log 14 for a term with a mapped offset). -/
def execWr (off : BitVec 12) (data : Word) (s : State) : Host.Outcome State Fault Refusal :=
  request (packetOf (.wr off data)) (writeOffset off data) s

end Sys2Proof.Machine
end

