-- ==== Sys2Proof/Machine/Dispatch.lean ====
section
/-! DEFINITION. The meaning of every request: one arm for each row of spec/opcode_table.json, in the table's order. -/

namespace Sys2Proof.Machine

def exec (i : Instr) (s : State) : Host.Outcome State Fault Refusal :=
  match i with
  | .locate b n a t => Sys2Proof.Machine.execLocate b n a t s
  | .tblchk b => Sys2Proof.Machine.execTblchk b s
  | .tblrd ch h w => Sys2Proof.Machine.execTblrd ch h w s
  | .tblwr ch h w d => Sys2Proof.Machine.execTblwr ch h w d s
  | .clkon => Sys2Proof.Machine.execClkon s
  | .setmap ch enc => Sys2Proof.Machine.execSetmap ch enc s
  | .setprio ch t => Sys2Proof.Machine.execSetprio ch t s
  | .setmode ch m => Sys2Proof.Machine.execSetmode ch m s
  | .setgran ch g => Sys2Proof.Machine.execSetgran ch g s
  | .setarb ch a => Sys2Proof.Machine.execSetarb ch a s
  | .unmask ch => Sys2Proof.Machine.execUnmask ch s
  | .init rs => Sys2Proof.Machine.execInit rs s
  | .cfgsrc ch inc z e => Sys2Proof.Machine.execCfgsrc ch inc z e s
  | .cfgdst ch inc z e => Sys2Proof.Machine.execCfgdst ch inc z e s
  | .start ch n => Sys2Proof.Machine.execStart ch n s
  | .rdStat => Sys2Proof.Machine.execRdStat s
  | .wrStat d => Sys2Proof.Machine.execWrStat d s
  | .rdCfg => Sys2Proof.Machine.execRdCfg s
  | .wrCfg d => Sys2Proof.Machine.execWrCfg d s
  | .rdCtlbase => Sys2Proof.Machine.execRdCtlbase s
  | .wrCtlbase d => Sys2Proof.Machine.execWrCtlbase d s
  | .rdAltbase => Sys2Proof.Machine.execRdAltbase s
  | .wrAltbase d => Sys2Proof.Machine.execWrAltbase d s
  | .rdWaitstat => Sys2Proof.Machine.execRdWaitstat s
  | .wrWaitstat d => Sys2Proof.Machine.execWrWaitstat d s
  | .rdSwreq => Sys2Proof.Machine.execRdSwreq s
  | .wrSwreq d => Sys2Proof.Machine.execWrSwreq d s
  | .rdUseburstset => Sys2Proof.Machine.execRdUseburstset s
  | .wrUseburstset d => Sys2Proof.Machine.execWrUseburstset d s
  | .rdUseburstclr => Sys2Proof.Machine.execRdUseburstclr s
  | .wrUseburstclr d => Sys2Proof.Machine.execWrUseburstclr d s
  | .rdReqmaskset => Sys2Proof.Machine.execRdReqmaskset s
  | .wrReqmaskset d => Sys2Proof.Machine.execWrReqmaskset d s
  | .rdReqmaskclr => Sys2Proof.Machine.execRdReqmaskclr s
  | .wrReqmaskclr d => Sys2Proof.Machine.execWrReqmaskclr d s
  | .rdEnaset => Sys2Proof.Machine.execRdEnaset s
  | .wrEnaset d => Sys2Proof.Machine.execWrEnaset d s
  | .rdEnaclr => Sys2Proof.Machine.execRdEnaclr s
  | .wrEnaclr d => Sys2Proof.Machine.execWrEnaclr d s
  | .rdAltset => Sys2Proof.Machine.execRdAltset s
  | .wrAltset d => Sys2Proof.Machine.execWrAltset d s
  | .rdAltclr => Sys2Proof.Machine.execRdAltclr s
  | .wrAltclr d => Sys2Proof.Machine.execWrAltclr d s
  | .rdPrioset => Sys2Proof.Machine.execRdPrioset s
  | .wrPrioset d => Sys2Proof.Machine.execWrPrioset d s
  | .rdPrioclr => Sys2Proof.Machine.execRdPrioclr s
  | .wrPrioclr d => Sys2Proof.Machine.execWrPrioclr d s
  | .rdErrclr => Sys2Proof.Machine.execRdErrclr s
  | .wrErrclr d => Sys2Proof.Machine.execWrErrclr d s
  | .rdChasgn => Sys2Proof.Machine.execRdChasgn s
  | .wrChasgn d => Sys2Proof.Machine.execWrChasgn d s
  | .rdChmap0 => Sys2Proof.Machine.execRdChmap0 s
  | .wrChmap0 d => Sys2Proof.Machine.execWrChmap0 d s
  | .rdChmap1 => Sys2Proof.Machine.execRdChmap1 s
  | .wrChmap1 d => Sys2Proof.Machine.execWrChmap1 d s
  | .rdChmap2 => Sys2Proof.Machine.execRdChmap2 s
  | .wrChmap2 d => Sys2Proof.Machine.execWrChmap2 d s
  | .rdChmap3 => Sys2Proof.Machine.execRdChmap3 s
  | .wrChmap3 d => Sys2Proof.Machine.execWrChmap3 d s
  | .rd off => Sys2Proof.Machine.execRd off s
  | .wr off d => Sys2Proof.Machine.execWr off d s

end Sys2Proof.Machine
end

