-- ==== Sys2Proof/Machine/Step.lean ====
section
/-! DEFINITION. One step: the block takes one request packet from its port and executes it (spec 00_scope.md R9,
70_reset_and_hazards.md R148). There is no program counter and no fetch from memory (10_state.md R13). -/

namespace Sys2Proof.Machine

/-- One request. With no whole packet on the port the block waits and nothing changes (log 1). -/
def step (s : State) : Host.Outcome State Fault Refusal :=
  match framePacket s.port with
  | none => .next s
  | some (p, rest) =>
    match decode p with
    | .ok i => exec i { s with port := rest }
    | .error e => illegalPacket p e { s with port := rest }

/-- The host sends a packet: the words of the opcode-table row whose bits are `w` stand at the head of the port, so
that the next step takes exactly them (log 12). -/
def State.withFetchWord (s : State) (nbits w : Nat) : State := { s with port := tableWords nbits w ++ s.port }

end Sys2Proof.Machine
end

