-- ==== Sys2Proof/Machine/Engine.lean ====
section
/-! DEFINITION. The engine as an agent (spec 60_exceptions.md R136): the liberties that bound it, as actions it may take
between two requests. `step` never takes one: the engine is out of scope (00_scope.md R4 a), and what it may do between
two events of one request cannot be shown by a machine whose step is a request (log 13). -/

namespace Sys2Proof.Machine

/-- What the engine may do on behalf of a channel (R136). -/
inductive EngineAction where
  /-- Read any word of either entry of the channel. -/
  | readEntry (ch : BitVec 8) (h : Half) (w : EntryWord)
  /-- Write word 2 of either entry of the channel. -/
  | writeControl (ch : BitVec 8) (h : Half) (v : Word)
  /-- Clear the channel's enable bit. -/
  | clearEnable (ch : BitVec 8)
  /-- Flip the channel's alternate-select bit. -/
  | flipAltSel (ch : BitVec 8)
  /-- Set the channel's error bit. -/
  | setError (ch : BitVec 8)
  /-- Read data memory outside the table. -/
  | readData (ch : BitVec 8) (a : Nat)
  /-- Write a byte of data memory outside the table. -/
  | writeData (ch : BitVec 8) (a : Nat) (v : Byte)
  /-- Change what STAT and WAITSTAT return. -/
  | changeStatus (ch : BitVec 8)
deriving DecidableEq, Repr

/-- The channel an action is taken for. -/
def EngineAction.channel : EngineAction → BitVec 8
  | .readEntry ch _ _ => ch
  | .writeControl ch _ _ => ch
  | .clearEnable ch => ch
  | .flipAltSel ch => ch
  | .setError ch => ch
  | .readData ch _ => ch
  | .writeData ch _ _ => ch
  | .changeStatus ch => ch

/-- R136: the engine acts only for a channel whose enable bit is 1, and only while the master enable is 1. -/
def engineMayAct (s : State) (ch : BitVec 8) : Bool := s.csr.masten && getBit s.csr.ena ch

/-- The byte lies in the 1024 bytes of the control table (R47). -/
def inTable (ctlbase : Word) (a : Nat) : Bool :=
  decide (ctlbase.toNat ≤ a) && decide (a < ctlbase.toNat + Config.tableBytes)

/-- The effect of an action the engine is free to take. Reads leave no trace in the block's state; a change of what
STAT and WAITSTAT return is a draw used up. DESIGN CHOICE (log 18): a write takes effect whatever `mem_ok` (R124) says of
its address; the spec does not say whether `mem_ok` binds the engine's accesses. -/
def engineEffect (act : EngineAction) (s : State) : State :=
  match act with
  | .readEntry _ _ _ => s
  | .writeControl ch h v => { s with mem := writeWord s.mem (entaddr s ch h .ctl) v }
  | .clearEnable ch => { s with csr := { s.csr with ena := clrPort s.csr.ena (chBit ch) } }
  | .flipAltSel ch => { s with csr := { s.csr with altsel := s.csr.altsel ^^^ chBit ch } }
  | .setError ch => { s with csr := { s.csr with err := setPort s.csr.err (chBit ch) } }
  | .readData _ _ => s
  | .writeData _ a v => { s with mem := writeByte s.mem a v }
  | .changeStatus _ => { s with draws := s.draws + 1 }

/-- Data memory lies in the address space and outside the table (R136). -/
def engineAddressOk (act : EngineAction) (s : State) : Bool :=
  match act with
  | .readData _ a => decide (a < Config.addrLimit) && !inTable s.csr.ctlbase a
  | .writeData _ a _ => decide (a < Config.addrLimit) && !inTable s.csr.ctlbase a
  | .readEntry .. | .writeControl .. | .clearEnable .. | .flipAltSel .. | .setError .. | .changeStatus .. => true

/-- One action of the engine, `none` where R136 does not allow it. -/
def engineAct (act : EngineAction) (s : State) : Option State :=
  if engineMayAct s act.channel && engineAddressOk act s then some (engineEffect act s) else none

end Sys2Proof.Machine
end

