-- ==== Sys2Proof/WellFormed.lean ====
section
/-! DEFINITION. Which terms of `Instr` are requests of the packet encoding. The types already bound every field; what
they do not say is checked here: a generic RD or WR row stands only for an offset that is not in the register map
(spec 30_encoding.md R70: the row with the larger mask wins), and the field `n` of INIT has 6 bits (R70). -/

namespace Sys2Proof

/-- The offset is not in the register map (R45, R120). -/
def offsetUnmapped (off : BitVec 12) : Bool := (Reg.ofOffset? off).isNone

/-- The number of records fits the 6-bit field `n` of INIT's OP word (R70, R71). -/
def recordCountFits (records : List ConfigRecord) : Bool := decide (records.length < 64)

/-- A well-formed request. -/
def Instr.wellFormed : Instr → Bool
  | .init records => recordCountFits records
  | .rd off => offsetUnmapped off
  | .wr off _ => offsetUnmapped off
  | .locate .. | .tblchk .. | .tblrd .. | .tblwr .. | .clkon | .setmap .. | .setprio .. | .setmode .. | .setgran ..
  | .setarb .. | .unmask .. | .cfgsrc .. | .cfgdst .. | .start .. => true
  | .rdStat | .wrStat .. | .rdCfg | .wrCfg .. | .rdCtlbase | .wrCtlbase .. | .rdAltbase | .wrAltbase .. | .rdWaitstat | .wrWaitstat .. | .rdSwreq | .wrSwreq ..
  | .rdUseburstset | .wrUseburstset .. | .rdUseburstclr | .wrUseburstclr .. | .rdReqmaskset | .wrReqmaskset .. | .rdReqmaskclr | .wrReqmaskclr .. | .rdEnaset | .wrEnaset ..
  | .rdEnaclr | .wrEnaclr .. | .rdAltset | .wrAltset .. | .rdAltclr | .wrAltclr .. | .rdPrioset | .wrPrioset .. | .rdPrioclr | .wrPrioclr .. | .rdErrclr | .wrErrclr ..
  | .rdChasgn | .wrChasgn .. | .rdChmap0 | .wrChmap0 .. | .rdChmap1 | .wrChmap1 .. | .rdChmap2 | .wrChmap2 .. | .rdChmap3 | .wrChmap3 .. => true

end Sys2Proof
end

