-- ==== Sys2Proof/Safety.lean ====
section
/-! DEFINITION. The terms that statements use: the state after a request that completed, that raised a fault, or that
was refused; what a store leaves in memory; the invariant of the machine; sequences of requests. -/

namespace Sys2Proof.Machine

/-! ### After a request -/

/-- The history after a request: its Req event, what it emitted, its Resp event (R39, R72), both with the index at
which the request started (log 7). -/
def historyAfter (p : Packet) (evs : List Event) (status : Byte) (v : Word) (s : State) : List Event :=
  s.hist ++ [Event.req s.seq p.op p.args] ++ evs ++ [Event.resp s.seq status v]

/-- A request completed with response `(0x00, v)` (R14, R72) and otherwise left the state as it was. -/
def completed (i : Instr) (v : Word) (evs : List Event) (s : State) : State :=
  { s with seq := s.seq + 1, hist := historyAfter (packetOf i) evs 0x00#8 v s }

/-- A packet raised a fault (R128) and otherwise left the state as it was: the latch, the response, no count. -/
def trappedPacket (p : Packet) (code : Byte) (info : Word) (evs : List Event) (s : State) : State :=
  { s with flt := { code := code, info := info, op := p.op }, hist := historyAfter p evs code info s }

/-- A request raised a fault (R128) and otherwise left the state as it was. -/
def trapped (i : Instr) (code : Byte) (info : Word) (evs : List Event) (s : State) : State :=
  trappedPacket (packetOf i) code info evs s

/-- A packet found the block faulted (R129). -/
def refusedPacket (p : Packet) (s : State) : State :=
  { s with hist := historyAfter p [] 0xff#8 0#32 s }

/-- An event inside a request: everything but the Req and the Resp that frame it (R39). -/
def Event.inner : Event → Bool
  | .req .. => false
  | .resp .. => false
  | .memR .. => true
  | .memW .. => true
  | .swReq _ => true
  | .clkSet => true
  | .settle => true

/-! ### When requests are accepted -/

/-- R16: no fault is latched. -/
abbrev Accepting (s : State) : Prop := s.flt.code = 0#8

/-- R123: no fault is latched and the clock is on. -/
abbrev Clocked (s : State) : Prop := Accepting s ∧ s.sys.clkEn = true

/-- No fault, the clock on, a table base programmed (R121, D14) and aligned (R22), memory in its canonical form. -/
abbrev TableReady (s : State) : Prop :=
  Clocked s ∧ s.csr.ctlbaseWritten = true ∧ s.csr.ctlbase.toNat % 1024 = 0 ∧ Memory.wf s.mem = true

/-! ### Memory -/

/-- From `m` to `m'` the word at `a` became `v`, and every byte outside its four kept its value. -/
def WordStored (m m' : Memory) (a : Nat) (v : Word) : Prop :=
  readWord m' a = v ∧ ∀ b, b < a ∨ a + 4 ≤ b → readByte m' b = readByte m b

/-- Every byte reads in `m'` as in `m`. -/
def MemorySame (m m' : Memory) : Prop := ∀ a, readByte m' a = readByte m a

/-! ### The invariant -/

/-- R22, R49: the table base is aligned, and is 0 until it has been written. -/
abbrev BaseOk (s : State) : Prop :=
  s.csr.ctlbase.toNat % 1024 = 0 ∧ (s.csr.ctlbaseWritten = false → s.csr.ctlbase = 0#32)

/-- R16, R121: the latch holds no fault and zeros, or one of the sixteen codes. -/
abbrev LatchOk (s : State) : Prop :=
  s.flt.code.toNat ≤ 16 ∧ (s.flt.code = 0#8 → s.flt.info = 0#32 ∧ s.flt.op = 0#32)

/-- R35, R91: at most 32 records, every channel one that can be mapped; nothing stored before an INIT. -/
abbrev StoreOk (s : State) : Prop :=
  s.cfg.list.length ≤ 32 ∧ (∀ r ∈ s.cfg.list, r.ch.toNat < 16) ∧ (s.cfg.valid = false → s.cfg.list = [])

/-- R17, R18, R84, R94: the power-status bit is set with the clock bit; a stored list means a programmed base; without
the clock every register still holds its reset value. -/
abbrev BootOk (s : State) : Prop :=
  s.sys.pwrOk = s.sys.clkEn ∧ (s.cfg.valid = true → s.csr.ctlbaseWritten = true) ∧
    (s.sys.clkEn = false → s.csr = Csr.reset)

/-- What holds of every state of the block. -/
abbrev State.Inv (s : State) : Prop :=
  BaseOk s ∧ LatchOk s ∧ StoreOk s ∧ BootOk s ∧ Memory.wf s.mem = true

/-! ### Sequences of requests -/

/-- Several requests, one after the other, to the first stop. -/
def execAll : List Instr → State → Host.Outcome State Fault Refusal
  | [], s => .next s
  | i :: is, s =>
    match exec i s with
    | .next t => execAll is t
    | .fault f => .fault f
    | .refused r => .refused r

/-- R140, step 4 by hand: the six setters of one record. -/
def recordRequests (r : ConfigRecord) : List Instr :=
  [.setmap r.ch r.enc, .setprio r.ch r.tier, .setmode r.ch r.mode, .setgran r.ch r.gran, .setarb r.ch r.arb,
    .unmask r.ch]

/-- R140, steps 1 to 4 by hand: the clock, the master enable, the table base, the setters of each record. -/
def bootRequests (base : Word) (rs : List ConfigRecord) : List Instr :=
  .clkon :: .wrCfg 1#32 :: .wrCtlbase base :: rs.flatMap recordRequests

/-- R50, R78: the first multiple of 1024 at or above `BUF_BASE`, the base INIT computes. -/
def bufferTable (p : Params) : Word := BitVec.ofNat 32 ((p.bufBase.toNat + 1023) / 1024 * 1024)

/-- The 8-bit mapping field of a channel 0 to 15 (R66). -/
def mappingField (c : Csr) (ch : BitVec 8) : BitVec 8 := (chmap c (mapIndex ch)).extractLsb' (mapShift ch) 8

/-- Both control words of the channel accept accesses (R124). -/
abbrev ControlWordsOk (s : State) (base : Word) (ch : BitVec 8) : Prop :=
  memOk s (entryAddr base ch .pri .ctl) = true ∧ memOk s (entryAddr base ch .alt .ctl) = true

end Sys2Proof.Machine
end

