-- ==== Sys2Proof/Certificates/Slice0/Obligations.lean ====
section
/-! DEFINITION. The statements about the model, each a formal reading of numbered rules of the spec. -/

open Sys2Proof Sys2Proof.Machine

/-! ### Encoding -/

/-- R70, R75 and the packets of 95_test_vectors.md: words written out from the spec decode to their requests. -/
def Obligations.SpecWordsDecode : Prop :=
  decode ⟨0x10000000#32, [0x20000123#32, 0x7ff#32, 0x400#32, 0x400#32]⟩ =
      .ok (.locate 0x20000123#32 0x7ff#32 0x400#32 0x400#32) ∧
    decode ⟨0x11000000#32, [0x20000400#32]⟩ = .ok (.tblchk 0x20000400#32) ∧
    decode ⟨0x081f0002#32, []⟩ = .ok (.tblrd 31#8 .pri .ctl) ∧
    decode ⟨0x091f0103#32, [0xdeadbeef#32]⟩ = .ok (.tblwr 31#8 .alt .rsv 0xdeadbeef#32) ∧
    decode ⟨0x26000000#32, []⟩ = .ok .clkon ∧
    decode ⟨0x20090002#32, []⟩ = .ok (.setmap 9#8 2#8) ∧
    decode ⟨0x22080003#32, []⟩ = .ok (.setmode 8#8 .pingpong) ∧
    decode ⟨0x30000002#32, [0x00830108#32, 0x00740209#32]⟩ =
      .ok (.init [⟨8#8, 1#8, .high, .basic, .single, 4#4⟩, ⟨9#8, 2#8, .default, .auto, .burst, 3#4⟩]) ∧
    decode ⟨0x3108000a#32, [0x200010fc#32]⟩ = .ok (.cfgsrc 8#8 .incword .word 0x200010fc#32) ∧
    decode ⟨0x33080040#32, []⟩ = .ok (.start 8#8 64#16) ∧
    decode ⟨0x01000028#32, []⟩ = .ok .rdEnaset ∧
    decode ⟨0x02000514#32, [0x04030201#32]⟩ = .ok (.wrChmap1 0x04030201#32) ∧
    decode ⟨0x01000040#32, []⟩ = .ok (.rd 0x040#12) ∧
    decode ⟨0x02000029#32, [1#32]⟩ = .ok (.wr 0x029#12 1#32)

/-- R69, R70: every well-formed request, encoded and followed by any words, is framed as its own packet and decodes to
itself; the words after it stay. -/
def Obligations.EncodedRequestDecodesToItself : Prop :=
  ∀ (i : Instr) (rest : List Word), i.wellFormed = true →
    framePacket (encode i ++ rest) = some (packetOf i, rest) ∧ decode (packetOf i) = .ok i

/-- R69, R70, R74: every packet that the decoder accepts is the packet of the one well-formed request it decodes to:
no bit of a packet is ignored. -/
def Obligations.AcceptedPacketIsItsEncoding : Prop :=
  ∀ (p : Packet) (i : Instr), decode p = .ok i → i.wellFormed = true ∧ packetOf i = p

/-- R71: the number of argument words, from the OP word alone. That an OP word with a must-be-0 bit set still asks for
the words of its opcode (INIT: of its field `n`), so that each clause holds whatever the other bits are, is the model's
reading (log 10). -/
def Obligations.ArgumentCountOfEachOpcode : Prop :=
  ∀ op : Word,
    (op.extractLsb' 24 8 ∈ [0x01#8, 0x08#8, 0x20#8, 0x21#8, 0x22#8, 0x23#8, 0x24#8, 0x25#8, 0x26#8, 0x33#8] →
        argCount op = 0) ∧
    (op.extractLsb' 24 8 ∈ [0x02#8, 0x09#8, 0x11#8, 0x31#8, 0x32#8] → argCount op = 1) ∧
    (op.extractLsb' 24 8 = 0x10#8 → argCount op = 4) ∧
    (op.extractLsb' 24 8 = 0x30#8 → argCount op = (op.extractLsb' 0 6).toNat) ∧
    (op.extractLsb' 24 8 ∉ [0x01#8, 0x02#8, 0x08#8, 0x09#8, 0x10#8, 0x11#8, 0x20#8, 0x21#8, 0x22#8, 0x23#8, 0x24#8,
        0x25#8, 0x26#8, 0x30#8, 0x31#8, 0x32#8, 0x33#8] → argCount op = 0)

/-- R74 a, R121, R128: a reserved opcode, a "must be 0" bit, or a record with bits [31:25] set raises IllegalCommand
with the OP word (the record word for a record, the first such record deciding) and changes nothing else. A reserved
opcode takes no more words. The index that the Req and Resp events carry is the model's reading (log 7). That the
packet leaves the port whole is the model's reading too (log 10). -/
def Obligations.RejectedPacketRaisesIllegalCommand : Prop :=
  ∀ s : State, Accepting s →
    (∀ (op : Word) (rest : List Word), s.port = op :: rest →
      op.extractLsb' 24 8 ∉ [0x01#8, 0x02#8, 0x08#8, 0x09#8, 0x10#8, 0x11#8, 0x20#8, 0x21#8, 0x22#8, 0x23#8, 0x24#8,
        0x25#8, 0x26#8, 0x30#8, 0x31#8, 0x32#8, 0x33#8] →
      step s = .next (trappedPacket ⟨op, []⟩ 1#8 op [] { s with port := rest })) ∧
    (∀ (o : Opcode) (p : Packet) (rest : List Word), framePacket s.port = some (p, rest) →
      p.op.extractLsb' 24 8 = o.code → p.op &&& o.mask ≠ o.matchWord →
      step s = .next (trappedPacket p 1#8 p.op [] { s with port := rest })) ∧
    (∀ (p : Packet) (rest before after : List Word) (w : Word), framePacket s.port = some (p, rest) →
      p.op &&& 0xffffffc0#32 = 0x30000000#32 → p.args = before ++ w :: after →
      (∀ v ∈ before, v.extractLsb' 25 7 = 0#7) → w.extractLsb' 25 7 ≠ 0#7 →
      step s = .next (trappedPacket p 1#8 w [] { s with port := rest }))

/-! ### The step -/

/-- R9, R148: when the packet at the head of the port decodes to a request, the step takes the packet off the port and
is that request's execution; so it is for the encoding of every well-formed request. -/
def Obligations.StepRunsTheDecodedRequest : Prop :=
  (∀ (s : State) (p : Packet) (rest : List Word) (i : Instr), framePacket s.port = some (p, rest) →
    decode p = .ok i → step s = exec i { s with port := rest }) ∧
  (∀ (s : State) (rest : List Word) (i : Instr), i.wellFormed = true → s.port = encode i ++ rest →
    step s = exec i { s with port := rest })

/-- The MODEL's choice (log 1), the spec being silent on a block with no request: while the port holds no whole packet
(none at all, or fewer words than its OP word asks for) a step changes nothing. -/
def Obligations.BlockWaitsForAWholePacket : Prop :=
  ∀ s : State, (s.port = [] → step s = .next s) ∧
    (∀ (op : Word) (rest : List Word), s.port = op :: rest → rest.length < argCount op → step s = .next s)

/-! ### Faults -/

/-- R129: a faulted block answers every packet, also one that decodes to nothing, with `(0xFF, 0)`; only the history
gains the Req and Resp events. The index that the Req and Resp events carry is the model's reading (log 7). That the
packet leaves the port whole is the model's reading too (log 10). -/
def Obligations.FaultedBlockRefusesEveryPacket : Prop :=
  (∀ (s : State) (p : Packet) (rest : List Word), s.flt.code ≠ 0#8 → framePacket s.port = some (p, rest) →
    step s = .next (refusedPacket p { s with port := rest })) ∧
  (∀ (i : Instr) (s : State), s.flt.code ≠ 0#8 → exec i s = .next (refusedPacket (packetOf i) s))

/-- R130: from a faulted state no number of steps leaves the condition or changes any state but the history and the
host's words; reset does leave it. -/
def Obligations.FaultedBlockStaysFaulted : Prop :=
  ∀ (k : Nat) (s : State), s.flt.code ≠ 0#8 →
    (∃ t, Sys2Proof.core.run k s = .next t ∧ t.flt = s.flt ∧ t.csr = s.csr ∧ t.cfg = s.cfg ∧ t.sys = s.sys ∧
      t.seq = s.seq ∧ t.mem = s.mem ∧ t.par = s.par ∧ t.draws = s.draws) ∧
    (resetInput s).flt.code = 0#8

/-- R14, R39, R72, R128: a request that an unfaulted block executes is answered once, at the end of what it emitted:
with `(0x00, v)`, no fault latched and `seq` one more, or with a fault's code and info, both latched with the
request's OP word, and `seq` unchanged. The index that the Req and Resp events carry is the model's reading (log 7).
-/
def Obligations.EveryRequestIsAnsweredOnce : Prop :=
  ∀ (i : Instr) (s t : State), Accepting s → exec i s = .next t →
    ∃ evs : List Event, (∀ e ∈ evs, e.inner = true) ∧
      ((∃ v, t.hist = historyAfter (packetOf i) evs 0x00#8 v s ∧ t.flt = s.flt ∧ t.seq = s.seq + 1) ∨
       (∃ code info, 1 ≤ code.toNat ∧ code.toNat ≤ 16 ∧ t.hist = historyAfter (packetOf i) evs code info s ∧
          t.flt = { code := code, info := info, op := (packetOf i).op } ∧ t.seq = s.seq))

/-- R96, R97, R123, R126: with the clock off every request but LOCATE, TBLCHK, CLKON and INIT raises ClockGated with its
OP word or, before it, a fault of its operands, and changes nothing else; RD of a readable register, WR of a writable
one and WR CFG of 0 or 1, which have no bad operand, raise exactly ClockGated with their OP word. The index that the Req
and Resp events carry is the model's reading (log 7). -/
def Obligations.ClockOffRequestsOnlyFault : Prop :=
  (∀ (i : Instr) (s : State), Accepting s → s.sys.clkEn = false →
    (∀ b n a t, i ≠ .locate b n a t) → (∀ b, i ≠ .tblchk b) → i ≠ .clkon → (∀ rs, i ≠ .init rs) →
    ∃ code info, exec i s = .next (trapped i code info [] s) ∧
      ((code = 10#8 ∧ info = (packetOf i).op) ∨
        code ∈ [2#8, 3#8, 4#8, 5#8, 6#8, 7#8, 8#8])) ∧
  (∀ (d : Word) (s : State), Accepting s → s.sys.clkEn = false →
    (∀ i ∈ [Instr.rdStat, .rdCfg, .rdCtlbase, .rdAltbase, .rdWaitstat, .rdUseburstset, .rdUseburstclr, .rdReqmaskset,
        .rdReqmaskclr, .rdEnaset, .rdEnaclr, .rdAltset, .rdAltclr, .rdPrioset, .rdPrioclr, .rdErrclr, .rdChasgn,
        .rdChmap0, .rdChmap1, .rdChmap2, .rdChmap3],
      exec i s = .next (trapped i 10#8 (packetOf i).op [] s)) ∧
    (∀ i ∈ [Instr.wrCtlbase d, .wrSwreq d, .wrUseburstset d, .wrUseburstclr d, .wrReqmaskset d, .wrReqmaskclr d,
        .wrEnaset d, .wrEnaclr d, .wrAltset d, .wrAltclr d, .wrPrioset d, .wrPrioclr d, .wrErrclr d, .wrChasgn d,
        .wrChmap0 d, .wrChmap1 d, .wrChmap2 d, .wrChmap3 d],
      exec i s = .next (trapped i 10#8 (packetOf i).op [] s)) ∧
    (d = 0#32 ∨ d = 1#32 →
      exec (.wrCfg d) s = .next (trapped (.wrCfg d) 10#8 (packetOf (.wrCfg d)).op [] s)))

/-! ### Table manager -/

/-- R77: LOCATE answers the first multiple of the alignment at or above the buffer's start; the alignment 0, a buffer
past 2^32, a buffer with no aligned address and a table that leaves the buffer raise their faults. No clock and no
table base is needed, and nothing else changes. The index that the Req and Resp events carry is the model's reading
(log 7). -/
def Obligations.LocateFindsTheFirstAlignedAddress : Prop :=
  ∀ (b n a t : Word) (s : State), Accepting s →
    packetOf (.locate b n a t) = ⟨0x10000000#32, [b, n, a, t]⟩ ∧
    (a = 0#32 → exec (.locate b n a t) s = .next (trapped (.locate b n a t) 6#8 0#32 [] s)) ∧
    (a ≠ 0#32 → 2 ^ 32 < b.toNat + n.toNat →
      exec (.locate b n a t) s = .next (trapped (.locate b n a t) 6#8 n [] s)) ∧
    (a ≠ 0#32 → b.toNat + n.toNat ≤ 2 ^ 32 → (∀ x, b.toNat ≤ x → x < b.toNat + n.toNat → x % a.toNat ≠ 0) →
      exec (.locate b n a t) s = .next (trapped (.locate b n a t) 14#8 b [] s)) ∧
    (∀ x : Nat, a ≠ 0#32 → b.toNat + n.toNat ≤ 2 ^ 32 → b.toNat ≤ x → x < b.toNat + n.toNat → x % a.toNat = 0 →
      (∀ y, b.toNat ≤ y → y < x → y % a.toNat ≠ 0) →
      exec (.locate b n a t) s =
        .next (if b.toNat + n.toNat < x + t.toNat then trapped (.locate b n a t) 15#8 (BitVec.ofNat 32 x) [] s
          else completed (.locate b n a t) (BitVec.ofNat 32 x) [] s))

/-- R78: the byte-by-byte scan of R77 and the closed form are the same function. -/
def Obligations.ScanEqualsClosedForm : Prop :=
  ∀ b n a t : Nat, locateByScan b n a t = locate b n a t

/-- R79: with a buffer of at least `table_size + required_alignment - 1` bytes LOCATE raises nothing and answers a
multiple of the alignment whose table lies within the buffer. The index that the Req and Resp events carry is the
model's reading (log 7). -/
def Obligations.LocateNeverFailsOnABigEnoughBuffer : Prop :=
  ∀ (b n a t : Word) (s : State), Accepting s → 1 ≤ a.toNat → 1 ≤ t.toNat → t.toNat + a.toNat - 1 ≤ n.toNat →
    b.toNat + n.toNat ≤ 2 ^ 32 →
    ∃ v : Word, exec (.locate b n a t) s = .next (completed (.locate b n a t) v [] s) ∧ v.toNat % a.toNat = 0 ∧
      b.toNat ≤ v.toNat ∧ v.toNat < b.toNat + n.toNat ∧ v.toNat + t.toNat ≤ b.toNat + n.toNat

/-- R80: TBLCHK answers 1 for a multiple of 1024 and 0 for any other base, which is `table_ok`; it needs no clock and
no table base, and changes nothing. The index that the Req and Resp events carry is the model's reading (log 7). -/
def Obligations.TblchkAnswersTheAlignmentCheck : Prop :=
  ∀ (b : Word) (s : State),
    packetOf (.tblchk b) = ⟨0x11000000#32, [b]⟩ ∧ (tableOk b = true ↔ b.toNat % 1024 = 0) ∧
    (Accepting s →
      exec (.tblchk b) s = .next (completed (.tblchk b) (if b.toNat % 1024 = 0 then 1#32 else 0#32) [] s))

/-- R81: TBLRD answers the word of the entry and changes nothing; ChannelRange, ClockGated, NoTable and MemFault in
that order. The index that the Req and Resp events carry, and that a refused access leaves no event, are the model's
reading (log 7, log 8). -/
def Obligations.TblrdReadsOneEntryWord : Prop :=
  ∀ (ch : BitVec 8) (h : Half) (w : EntryWord) (s : State), Accepting s →
    packetOf (.tblrd ch h w) =
      ⟨0x08000000#32 ||| ch.setWidth 32 <<< 16 ||| h.code.setWidth 32 <<< 8 ||| w.code.setWidth 32, []⟩ ∧
    (32 ≤ ch.toNat → exec (.tblrd ch h w) s = .next (trapped (.tblrd ch h w) 4#8 (ch.setWidth 32) [] s)) ∧
    (ch.toNat < 32 → s.sys.clkEn = false →
      exec (.tblrd ch h w) s = .next (trapped (.tblrd ch h w) 10#8 (packetOf (.tblrd ch h w)).op [] s)) ∧
    (ch.toNat < 32 → s.sys.clkEn = true → s.csr.ctlbaseWritten = false →
      exec (.tblrd ch h w) s = .next (trapped (.tblrd ch h w) 11#8 (packetOf (.tblrd ch h w)).op [] s)) ∧
    (ch.toNat < 32 → TableReady s → memOk s (entaddr s ch h w) = false →
      exec (.tblrd ch h w) s = .next (trapped (.tblrd ch h w) 16#8 (BitVec.ofNat 32 (entaddr s ch h w)) [] s)) ∧
    (ch.toNat < 32 → TableReady s → memOk s (entaddr s ch h w) = true →
      exec (.tblrd ch h w) s =
        .next (completed (.tblrd ch h w) (readWord s.mem (entaddr s ch h w))
          [.memR (entaddr s ch h w) (readWord s.mem (entaddr s ch h w))] s))

/-- R82: TBLWR stores the word of the entry, whole, and changes nothing else; ChannelRange, ClockGated, NoTable and
MemFault in that order. The index that the Req and Resp events carry, and that a refused access leaves no event, are
the model's reading (log 7, log 8). -/
def Obligations.TblwrStoresOneEntryWord : Prop :=
  ∀ (ch : BitVec 8) (h : Half) (w : EntryWord) (d : Word) (s : State), Accepting s →
    packetOf (.tblwr ch h w d) =
      ⟨0x09000000#32 ||| ch.setWidth 32 <<< 16 ||| h.code.setWidth 32 <<< 8 ||| w.code.setWidth 32, [d]⟩ ∧
    (32 ≤ ch.toNat → exec (.tblwr ch h w d) s = .next (trapped (.tblwr ch h w d) 4#8 (ch.setWidth 32) [] s)) ∧
    (ch.toNat < 32 → s.sys.clkEn = false →
      exec (.tblwr ch h w d) s = .next (trapped (.tblwr ch h w d) 10#8 (packetOf (.tblwr ch h w d)).op [] s)) ∧
    (ch.toNat < 32 → s.sys.clkEn = true → s.csr.ctlbaseWritten = false →
      exec (.tblwr ch h w d) s = .next (trapped (.tblwr ch h w d) 11#8 (packetOf (.tblwr ch h w d)).op [] s)) ∧
    (ch.toNat < 32 → TableReady s → memOk s (entaddr s ch h w) = false →
      exec (.tblwr ch h w d) s = .next (trapped (.tblwr ch h w d) 16#8 (BitVec.ofNat 32 (entaddr s ch h w)) [] s)) ∧
    (ch.toNat < 32 → TableReady s → memOk s (entaddr s ch h w) = true →
      ∃ m, exec (.tblwr ch h w d) s =
          .next { completed (.tblwr ch h w d) 0#32 [.memW (entaddr s ch h w) d] s with mem := m } ∧
        WordStored s.mem m (entaddr s ch h w) d)

/-- R47, R81, R82: a word that TBLWR stored is what a later TBLRD of the same entry word answers, and a TBLRD of any
other entry word answers what it would have answered before. The index that the Resp event carries is the model's
reading (log 7). -/
def Obligations.TblrdAnswersWhatTblwrStored : Prop :=
  ∀ (ch ch' : BitVec 8) (h h' : Half) (w w' : EntryWord) (d : Word) (s t : State), ch.toNat < 32 → ch'.toNat < 32 →
    TableReady s → memOk s (entaddr s ch h w) = true → memOk s (entaddr s ch' h' w') = true →
    exec (.tblwr ch h w d) s = .next t →
    ∃ u, exec (.tblrd ch' h' w') t = .next u ∧
      u.hist.getLast? = some (.resp t.seq 0x00#8
        (if (ch', h', w') = (ch, h, w) then d else readWord s.mem (entaddr s ch' h' w')))

/-! ### Channel setters -/

/-- R84: CLKON sets the clock bit (with a ClkSet event where it was 0), the settle event, and the power-status bit,
and changes nothing else; it needs no clock. No request clears the clock bit; reset does. The index that the Req and
Resp events carry is the model's reading (log 7). -/
def Obligations.ClkonTurnsTheClockOn : Prop :=
  packetOf .clkon = ⟨0x26000000#32, []⟩ ∧
  (∀ s t : State, s.sys.clkEn = true → step s = .next t → t.sys.clkEn = true) ∧
  (∀ s : State, (resetInput s).sys.clkEn = false) ∧
  ∀ s : State, Accepting s →
    exec .clkon s =
      .next { completed .clkon 0#32 (if s.sys.clkEn then [.settle] else [.clkSet, .settle]) s with
        sys := { clkEn := true, pwrOk := true } }

/-- R85: SETMAP ORs the encoding into the channel's field of its mapping register and changes nothing else;
ChannelRange, MapRange, ClockGated in that order. The index that the Req and Resp events carry is the model's reading
(log 7). -/
def Obligations.SetmapOrsTheEncoding : Prop :=
  ∀ (ch enc : BitVec 8) (s : State), Accepting s →
    packetOf (.setmap ch enc) = ⟨0x20000000#32 ||| ch.setWidth 32 <<< 16 ||| enc.setWidth 32, []⟩ ∧
    (32 ≤ ch.toNat → exec (.setmap ch enc) s = .next (trapped (.setmap ch enc) 4#8 (ch.setWidth 32) [] s)) ∧
    (16 ≤ ch.toNat → ch.toNat < 32 →
      exec (.setmap ch enc) s = .next (trapped (.setmap ch enc) 5#8 (ch.setWidth 32) [] s)) ∧
    (ch.toNat < 16 → s.sys.clkEn = false →
      exec (.setmap ch enc) s = .next (trapped (.setmap ch enc) 10#8 (packetOf (.setmap ch enc)).op [] s)) ∧
    (ch.toNat < 16 → s.sys.clkEn = true →
      ∃ c, exec (.setmap ch enc) s = .next { completed (.setmap ch enc) 0#32 [] s with csr := c } ∧
        c = { s.csr with chmap0 := c.chmap0, chmap1 := c.chmap1, chmap2 := c.chmap2, chmap3 := c.chmap3 } ∧
        (∀ r : Fin 4, chmap c r =
          if r.val = ch.toNat / 4 then chmap s.csr r ||| enc.setWidth 32 <<< (8 * (ch.toNat % 4)) else chmap s.csr r))

/-- R86: SETPRIO makes the channel's priority bit the tier and changes nothing else; ChannelRange, ClockGated in that
order. The index that the Req and Resp events carry is the model's reading (log 7). -/
def Obligations.SetprioWritesTheTierBit : Prop :=
  ∀ (ch : BitVec 8) (tier : Tier) (s : State), Accepting s →
    packetOf (.setprio ch tier) = ⟨0x21000000#32 ||| ch.setWidth 32 <<< 16 ||| tier.code.setWidth 32, []⟩ ∧
    (32 ≤ ch.toNat → exec (.setprio ch tier) s = .next (trapped (.setprio ch tier) 4#8 (ch.setWidth 32) [] s)) ∧
    (ch.toNat < 32 → s.sys.clkEn = false →
      exec (.setprio ch tier) s = .next (trapped (.setprio ch tier) 10#8 (packetOf (.setprio ch tier)).op [] s)) ∧
    (ch.toNat < 32 → s.sys.clkEn = true →
      ∃ v : Word, exec (.setprio ch tier) s =
          .next { completed (.setprio ch tier) 0#32 [] s with csr := { s.csr with prio := v } } ∧
        v = (if tier = .high then s.csr.prio ||| (1#32 <<< ch.toNat) else s.csr.prio &&& ~~~(1#32 <<< ch.toNat)) ∧
        v.getLsbD ch.toNat = (tier == .high) ∧ ∀ j, j ≠ ch.toNat → v.getLsbD j = s.csr.prio.getLsbD j)

/-- R88: SETGRAN makes the channel's burst-only bit the granularity and changes nothing else; ChannelRange, ClockGated
in that order. The index that the Req and Resp events carry is the model's reading (log 7). -/
def Obligations.SetgranWritesTheBurstBit : Prop :=
  ∀ (ch : BitVec 8) (gran : Granularity) (s : State), Accepting s →
    packetOf (.setgran ch gran) = ⟨0x23000000#32 ||| ch.setWidth 32 <<< 16 ||| gran.code.setWidth 32, []⟩ ∧
    (32 ≤ ch.toNat → exec (.setgran ch gran) s = .next (trapped (.setgran ch gran) 4#8 (ch.setWidth 32) [] s)) ∧
    (ch.toNat < 32 → s.sys.clkEn = false →
      exec (.setgran ch gran) s = .next (trapped (.setgran ch gran) 10#8 (packetOf (.setgran ch gran)).op [] s)) ∧
    (ch.toNat < 32 → s.sys.clkEn = true →
      ∃ v : Word, exec (.setgran ch gran) s =
          .next { completed (.setgran ch gran) 0#32 [] s with csr := { s.csr with useburst := v } } ∧
        v = (if gran = .burst then s.csr.useburst ||| (1#32 <<< ch.toNat)
          else s.csr.useburst &&& ~~~(1#32 <<< ch.toNat)) ∧
        v.getLsbD ch.toNat = (gran == .burst) ∧ ∀ j, j ≠ ch.toNat → v.getLsbD j = s.csr.useburst.getLsbD j)

/-- R90: UNMASK clears the channel's mask bit and changes nothing else; ChannelRange, ClockGated in that order. The
index that the Req and Resp events carry is the model's reading (log 7). -/
def Obligations.UnmaskClearsTheMaskBit : Prop :=
  ∀ (ch : BitVec 8) (s : State), Accepting s →
    packetOf (.unmask ch) = ⟨0x25000000#32 ||| ch.setWidth 32 <<< 16, []⟩ ∧
    (32 ≤ ch.toNat → exec (.unmask ch) s = .next (trapped (.unmask ch) 4#8 (ch.setWidth 32) [] s)) ∧
    (ch.toNat < 32 → s.sys.clkEn = false →
      exec (.unmask ch) s = .next (trapped (.unmask ch) 10#8 (packetOf (.unmask ch)).op [] s)) ∧
    (ch.toNat < 32 → s.sys.clkEn = true →
      ∃ v : Word, exec (.unmask ch) s =
          .next { completed (.unmask ch) 0#32 [] s with csr := { s.csr with reqmask := v } } ∧
        v = s.csr.reqmask &&& ~~~(1#32 <<< ch.toNat) ∧
        v.getLsbD ch.toNat = false ∧ ∀ j, j ≠ ch.toNat → v.getLsbD j = s.csr.reqmask.getLsbD j)

/-- R87: SETMODE writes the mode bits of the channel's control word, keeping its other 29 bits, then makes the
alternate-select bit 0 for STOP, BASIC and AUTO-REQUEST and 1 for the other modes; nothing else changes. ChannelRange,
ClockGated, NoTable, MemFault in that order; a MemFault leaves `altsel` alone. The index that the Req and Resp events
carry, and that a refused access leaves no event, are the model's reading (log 7, log 8). -/
def Obligations.SetmodeWritesModeAndAltSelect : Prop :=
  ∀ (ch : BitVec 8) (mode : TransferMode) (s : State), Accepting s →
    packetOf (.setmode ch mode) = ⟨0x22000000#32 ||| ch.setWidth 32 <<< 16 ||| mode.code.setWidth 32, []⟩ ∧
    (32 ≤ ch.toNat → exec (.setmode ch mode) s = .next (trapped (.setmode ch mode) 4#8 (ch.setWidth 32) [] s)) ∧
    (ch.toNat < 32 → s.sys.clkEn = false →
      exec (.setmode ch mode) s = .next (trapped (.setmode ch mode) 10#8 (packetOf (.setmode ch mode)).op [] s)) ∧
    (ch.toNat < 32 → s.sys.clkEn = true → s.csr.ctlbaseWritten = false →
      exec (.setmode ch mode) s = .next (trapped (.setmode ch mode) 11#8 (packetOf (.setmode ch mode)).op [] s)) ∧
    (∀ a, a = entaddr s ch (tgt s ch) .ctl → ch.toNat < 32 → TableReady s → memOk s a = false →
      exec (.setmode ch mode) s = .next (trapped (.setmode ch mode) 16#8 (BitVec.ofNat 32 a) [] s)) ∧
    (∀ a, a = entaddr s ch (tgt s ch) .ctl → ch.toNat < 32 → TableReady s → memOk s a = true →
      ∃ (m : Memory) (v new : Word), exec (.setmode ch mode) s =
          .next { completed (.setmode ch mode) 0#32 [.memR a (readWord s.mem a), .memW a new] s with
            mem := m, csr := { s.csr with altsel := v } } ∧
        WordStored s.mem m a new ∧
        new.extractLsb' 0 3 = mode.code ∧ new.extractLsb' 3 29 = (readWord s.mem a).extractLsb' 3 29 ∧
        v.getLsbD ch.toNat = (mode != .stop && mode != .basic && mode != .auto) ∧
        ∀ j, j ≠ ch.toNat → v.getLsbD j = s.csr.altsel.getLsbD j)

/-- R89: SETARB writes bits [17:14] of the channel's control word, keeping its other bits, and changes nothing else;
ChannelRange, ClockGated, NoTable, MemFault in that order. The index that the Req and Resp events carry, and that a
refused access leaves no event, are the model's reading (log 7, log 8). -/
def Obligations.SetarbWritesTheArbitrationField : Prop :=
  ∀ (ch : BitVec 8) (arb : BitVec 4) (s : State), Accepting s →
    packetOf (.setarb ch arb) = ⟨0x24000000#32 ||| ch.setWidth 32 <<< 16 ||| arb.setWidth 32, []⟩ ∧
    (32 ≤ ch.toNat → exec (.setarb ch arb) s = .next (trapped (.setarb ch arb) 4#8 (ch.setWidth 32) [] s)) ∧
    (ch.toNat < 32 → s.sys.clkEn = false →
      exec (.setarb ch arb) s = .next (trapped (.setarb ch arb) 10#8 (packetOf (.setarb ch arb)).op [] s)) ∧
    (ch.toNat < 32 → s.sys.clkEn = true → s.csr.ctlbaseWritten = false →
      exec (.setarb ch arb) s = .next (trapped (.setarb ch arb) 11#8 (packetOf (.setarb ch arb)).op [] s)) ∧
    (∀ a, a = entaddr s ch (tgt s ch) .ctl → ch.toNat < 32 → TableReady s → memOk s a = false →
      exec (.setarb ch arb) s = .next (trapped (.setarb ch arb) 16#8 (BitVec.ofNat 32 a) [] s)) ∧
    (∀ a, a = entaddr s ch (tgt s ch) .ctl → ch.toNat < 32 → TableReady s → memOk s a = true →
      ∃ (m : Memory) (new : Word), exec (.setarb ch arb) s =
          .next { completed (.setarb ch arb) 0#32 [.memR a (readWord s.mem a), .memW a new] s with mem := m } ∧
        WordStored s.mem m a new ∧ new.extractLsb' 14 4 = arb ∧
        new.extractLsb' 0 14 = (readWord s.mem a).extractLsb' 0 14 ∧
        new.extractLsb' 18 14 = (readWord s.mem a).extractLsb' 18 14)

/-- R83, R92 to R94: a request for one channel that ends in a next state, completed, faulted or refused, with or without
a clock and a table base, leaves every other channel's bits, mapping field and entry words as they were. -/
def Obligations.SettersLeaveOtherChannelsAlone : Prop :=
  ∀ (ch j : BitVec 8) (i : Instr) (s t : State), j.toNat < 32 → j ≠ ch →
    ((∃ enc, i = .setmap ch enc) ∨ (∃ tier, i = .setprio ch tier) ∨ (∃ mode, i = .setmode ch mode) ∨
      (∃ gran, i = .setgran ch gran) ∨ (∃ arb, i = .setarb ch arb) ∨ i = .unmask ch ∨
      (∃ inc z e, i = .cfgsrc ch inc z e) ∨ (∃ inc z e, i = .cfgdst ch inc z e) ∨ (∃ n, i = .start ch n)) →
    exec i s = .next t →
    t.csr.prio.getLsbD j.toNat = s.csr.prio.getLsbD j.toNat ∧
    t.csr.altsel.getLsbD j.toNat = s.csr.altsel.getLsbD j.toNat ∧
    t.csr.useburst.getLsbD j.toNat = s.csr.useburst.getLsbD j.toNat ∧
    t.csr.reqmask.getLsbD j.toNat = s.csr.reqmask.getLsbD j.toNat ∧
    t.csr.ena.getLsbD j.toNat = s.csr.ena.getLsbD j.toNat ∧
    (j.toNat < 16 → mappingField t.csr j = mappingField s.csr j) ∧
    ∀ (h : Half) (w : EntryWord), readWord t.mem (entaddr s j h w) = readWord s.mem (entaddr s j h w)

/-! ### Transfer operations -/

/-- R91, R126, D32: INIT's checks of its list come before any effect: a list of more than 32 records, then record by
record a channel of 32 or more and a channel of 16 to 31. The index that the Req and Resp events carry is the model's
reading (log 7). -/
def Obligations.InitRejectsABadListBeforeAnyEffect : Prop :=
  ∀ (rs before after : List ConfigRecord) (r : ConfigRecord) (s : State), Accepting s →
    (32 < rs.length →
      exec (.init rs) s = .next (trapped (.init rs) 9#8 (BitVec.ofNat 32 rs.length) [] s)) ∧
    (rs.length ≤ 32 → rs = before ++ r :: after → (∀ q ∈ before, q.ch.toNat < 16) → 32 ≤ r.ch.toNat →
      exec (.init rs) s = .next (trapped (.init rs) 4#8 (r.ch.setWidth 32) [] s)) ∧
    (rs.length ≤ 32 → rs = before ++ r :: after → (∀ q ∈ before, q.ch.toNat < 16) → 16 ≤ r.ch.toNat →
      r.ch.toNat < 32 →
      exec (.init rs) s = .next (trapped (.init rs) 5#8 (r.ch.setWidth 32) [] s))

/-- R91, R127: an INIT that finds another base already programmed raises BaseRewrite with the base it computed; the
clock, the power-status bit and the master enable stay set, nothing else changes. The index that the Req and Resp
events carry is the model's reading (log 7). -/
def Obligations.InitWithAnotherBaseKeepsSteps1And2 : Prop :=
  ∀ (rs : List ConfigRecord) (s : State), Accepting s → rs.length ≤ 32 → (∀ r ∈ rs, r.ch.toNat < 16) →
    s.par.BufferOk → s.csr.ctlbaseWritten = true → s.csr.ctlbase ≠ bufferTable s.par →
    exec (.init rs) s =
      .next { trapped (.init rs) 13#8 (bufferTable s.par)
          (if s.sys.clkEn then [.settle] else [.clkSet, .settle]) s with
        sys := { clkEn := true, pwrOk := true }, csr := { s.csr with masten := true } }

/-- R91, R140: INIT completes, and leaves the registers, the system bits and memory exactly as the hand-made sequence
CLKON, WR CFG 1, WR CTLBASE, then the six setters of each record in order, leaves them; beyond it INIT stores the list,
and it counts as one request. With `FIELD_TARGET = selected` both write the control word of the half that R48 names at
the moment of each access, which is the model's reading (log 15). -/
def Obligations.InitEqualsTheHandMadeSequence : Prop :=
  ∀ (rs : List ConfigRecord) (s : State), Accepting s → rs.length ≤ 32 → (∀ r ∈ rs, r.ch.toNat < 16) →
    s.par.BufferOk → Memory.wf s.mem = true →
    (s.csr.ctlbaseWritten = true → s.csr.ctlbase = bufferTable s.par) →
    (∀ r ∈ rs, ControlWordsOk s (bufferTable s.par) r.ch) →
    ∃ t u, exec (.init rs) s = .next t ∧ execAll (bootRequests (bufferTable s.par) rs) s = .next u ∧
      t.csr = u.csr ∧ t.sys = u.sys ∧ t.mem = u.mem ∧ t.flt = s.flt ∧ u.flt = s.flt ∧
      t.cfg = { list := rs, valid := true } ∧ u.cfg = s.cfg ∧ t.seq = s.seq + 1 ∧ u.seq = s.seq + 3 + 6 * rs.length ∧
      t.port = s.port ∧ t.par = s.par ∧ t.draws = s.draws

/-- R91: what a completed INIT leaves. The clock, the power bit, the master enable, the base and the list; for each
record that is the last of its channel, the tier, mode group, granularity and an unmasked channel; for each mapped
channel the OR of the encodings of its records; no register bit of an unlisted channel, no enable bit, error bit or
channel assignment changed; with `FIELD_TARGET = primary` (the value R48 fixes) the mode and arbitration fields of the
primary control word of each last record and no other bit of it; and no byte outside the control words of the listed
channels, of both halves; that with `primary` the alternate ones keep their bytes follows from
`InitEqualsTheHandMadeSequence` with the statements about the six setters. With `FIELD_TARGET = selected` the half is
the one that R48 names at the moment of each access, the model's reading (log 15). -/
def Obligations.InitAppliesEachRecord : Prop :=
  ∀ (rs : List ConfigRecord) (s : State), Accepting s → rs.length ≤ 32 → (∀ r ∈ rs, r.ch.toNat < 16) →
    s.par.BufferOk → Memory.wf s.mem = true →
    (s.csr.ctlbaseWritten = true → s.csr.ctlbase = bufferTable s.par) →
    (∀ r ∈ rs, ControlWordsOk s (bufferTable s.par) r.ch) →
    ∃ t, exec (.init rs) s = .next t ∧
      t.sys = { clkEn := true, pwrOk := true } ∧ t.cfg = { list := rs, valid := true } ∧ t.seq = s.seq + 1 ∧
      t.flt = s.flt ∧ t.port = s.port ∧ t.par = s.par ∧ t.draws = s.draws ∧
      t.csr.masten = true ∧ t.csr.ctlbase = bufferTable s.par ∧ t.csr.ctlbaseWritten = true ∧
      t.csr.ena = s.csr.ena ∧ t.csr.err = s.csr.err ∧ t.csr.chasgn = s.csr.chasgn ∧
      (∀ (before after : List ConfigRecord) (r : ConfigRecord), rs = before ++ r :: after →
        (∀ q ∈ after, q.ch ≠ r.ch) →
        t.csr.prio.getLsbD r.ch.toNat = (r.tier == .high) ∧
        t.csr.altsel.getLsbD r.ch.toNat = (r.mode != .stop && r.mode != .basic && r.mode != .auto) ∧
        t.csr.useburst.getLsbD r.ch.toNat = (r.gran == .burst) ∧
        t.csr.reqmask.getLsbD r.ch.toNat = false ∧
        (s.par.fieldTarget = .primary → ∀ a, a = entryAddr (bufferTable s.par) r.ch .pri .ctl →
          (readWord t.mem a).extractLsb' 0 3 = r.mode.code ∧ (readWord t.mem a).extractLsb' 14 4 = r.arb ∧
          (readWord t.mem a).extractLsb' 3 11 = (readWord s.mem a).extractLsb' 3 11 ∧
          (readWord t.mem a).extractLsb' 18 14 = (readWord s.mem a).extractLsb' 18 14)) ∧
      (∀ ch : BitVec 8, ch.toNat < 16 →
        mappingField t.csr ch =
          (rs.filter fun r => r.ch == ch).foldl (fun v r => v ||| r.enc) (mappingField s.csr ch)) ∧
      (∀ ch : BitVec 8, (∀ r ∈ rs, r.ch ≠ ch) →
        t.csr.prio.getLsbD ch.toNat = s.csr.prio.getLsbD ch.toNat ∧
        t.csr.altsel.getLsbD ch.toNat = s.csr.altsel.getLsbD ch.toNat ∧
        t.csr.useburst.getLsbD ch.toNat = s.csr.useburst.getLsbD ch.toNat ∧
        t.csr.reqmask.getLsbD ch.toNat = s.csr.reqmask.getLsbD ch.toNat) ∧
      (∀ b, (∀ r ∈ rs, ∀ h : Half, b < entryAddr (bufferTable s.par) r.ch h .ctl ∨
          entryAddr (bufferTable s.par) r.ch h .ctl + 4 ≤ b) →
        readByte t.mem b = readByte s.mem b)

/-- R92: CFGSRC stores the end address in the source end pointer, whole, then the size and increment in bits [27:24]
of the control word, keeping its other 28 bits, and changes nothing else; ChannelRange, BadOperand, ClockGated,
NoTable in that order, and a MemFault of either access keeps what was written before it. The index that the Req and
Resp events carry, and that a refused access leaves no event, are the model's reading (log 7, log 8). -/
def Obligations.CfgsrcProgramsTheSourceSide : Prop :=
  ∀ (ch : BitVec 8) (inc : Increment) (z : ItemSize) (e : Word) (s : State), Accepting s →
    packetOf (.cfgsrc ch inc z e) =
      ⟨0x31000000#32 ||| ch.setWidth 32 <<< 16 ||| inc.code.setWidth 32 <<< 2 ||| z.code.setWidth 32, [e]⟩ ∧
    (32 ≤ ch.toNat →
      exec (.cfgsrc ch inc z e) s = .next (trapped (.cfgsrc ch inc z e) 4#8 (ch.setWidth 32) [] s)) ∧
    (ch.toNat < 32 → z = .reserved →
      exec (.cfgsrc ch inc z e) s = .next (trapped (.cfgsrc ch inc z e) 6#8 3#32 [] s)) ∧
    (ch.toNat < 32 → z ≠ .reserved → s.sys.clkEn = false →
      exec (.cfgsrc ch inc z e) s =
        .next (trapped (.cfgsrc ch inc z e) 10#8 (packetOf (.cfgsrc ch inc z e)).op [] s)) ∧
    (ch.toNat < 32 → z ≠ .reserved → s.sys.clkEn = true → s.csr.ctlbaseWritten = false →
      exec (.cfgsrc ch inc z e) s =
        .next (trapped (.cfgsrc ch inc z e) 11#8 (packetOf (.cfgsrc ch inc z e)).op [] s)) ∧
    (∀ p a, p = entaddr s ch (tgt s ch) .src → a = entaddr s ch (tgt s ch) .ctl → ch.toNat < 32 →
      z ≠ .reserved → TableReady s →
      (memOk s p = false →
        exec (.cfgsrc ch inc z e) s = .next (trapped (.cfgsrc ch inc z e) 16#8 (BitVec.ofNat 32 p) [] s)) ∧
      (memOk s p = true → memOk s a = false →
        ∃ m, exec (.cfgsrc ch inc z e) s =
            .next { trapped (.cfgsrc ch inc z e) 16#8 (BitVec.ofNat 32 a) [.memW p e] s with mem := m } ∧
          WordStored s.mem m p e) ∧
      (memOk s p = true → memOk s a = true →
        ∃ (m : Memory) (new : Word), exec (.cfgsrc ch inc z e) s =
            .next { completed (.cfgsrc ch inc z e) 0#32
                [.memW p e, .memR a (readWord s.mem a), .memW a new] s with mem := m } ∧
          readWord m p = e ∧ readWord m a = new ∧
          (∀ b, (b < p ∨ p + 4 ≤ b) → (b < a ∨ a + 4 ≤ b) → readByte m b = readByte s.mem b) ∧
          new.extractLsb' 24 2 = z.code ∧ new.extractLsb' 26 2 = inc.code ∧
          new.extractLsb' 0 24 = (readWord s.mem a).extractLsb' 0 24 ∧
          new.extractLsb' 28 4 = (readWord s.mem a).extractLsb' 28 4))

/-- R93: CFGDST stores the end address in the destination end pointer, whole, then the size and increment in bits
[31:28] of the control word, keeping its other 28 bits, and changes nothing else; faults as CFGSRC. The index that the
Req and Resp events carry, and that a refused access leaves no event, are the model's reading (log 7, log 8). -/
def Obligations.CfgdstProgramsTheDestinationSide : Prop :=
  ∀ (ch : BitVec 8) (inc : Increment) (z : ItemSize) (e : Word) (s : State), Accepting s →
    packetOf (.cfgdst ch inc z e) =
      ⟨0x32000000#32 ||| ch.setWidth 32 <<< 16 ||| inc.code.setWidth 32 <<< 2 ||| z.code.setWidth 32, [e]⟩ ∧
    (32 ≤ ch.toNat →
      exec (.cfgdst ch inc z e) s = .next (trapped (.cfgdst ch inc z e) 4#8 (ch.setWidth 32) [] s)) ∧
    (ch.toNat < 32 → z = .reserved →
      exec (.cfgdst ch inc z e) s = .next (trapped (.cfgdst ch inc z e) 6#8 3#32 [] s)) ∧
    (ch.toNat < 32 → z ≠ .reserved → s.sys.clkEn = false →
      exec (.cfgdst ch inc z e) s =
        .next (trapped (.cfgdst ch inc z e) 10#8 (packetOf (.cfgdst ch inc z e)).op [] s)) ∧
    (ch.toNat < 32 → z ≠ .reserved → s.sys.clkEn = true → s.csr.ctlbaseWritten = false →
      exec (.cfgdst ch inc z e) s =
        .next (trapped (.cfgdst ch inc z e) 11#8 (packetOf (.cfgdst ch inc z e)).op [] s)) ∧
    (∀ p a, p = entaddr s ch (tgt s ch) .dst → a = entaddr s ch (tgt s ch) .ctl → ch.toNat < 32 →
      z ≠ .reserved → TableReady s →
      (memOk s p = false →
        exec (.cfgdst ch inc z e) s = .next (trapped (.cfgdst ch inc z e) 16#8 (BitVec.ofNat 32 p) [] s)) ∧
      (memOk s p = true → memOk s a = false →
        ∃ m, exec (.cfgdst ch inc z e) s =
            .next { trapped (.cfgdst ch inc z e) 16#8 (BitVec.ofNat 32 a) [.memW p e] s with mem := m } ∧
          WordStored s.mem m p e) ∧
      (memOk s p = true → memOk s a = true →
        ∃ (m : Memory) (new : Word), exec (.cfgdst ch inc z e) s =
            .next { completed (.cfgdst ch inc z e) 0#32
                [.memW p e, .memR a (readWord s.mem a), .memW a new] s with mem := m } ∧
          readWord m p = e ∧ readWord m a = new ∧
          (∀ b, (b < p ∨ p + 4 ≤ b) → (b < a ∨ a + 4 ≤ b) → readByte m b = readByte s.mem b) ∧
          new.extractLsb' 28 2 = z.code ∧ new.extractLsb' 30 2 = inc.code ∧
          new.extractLsb' 0 28 = (readWord s.mem a).extractLsb' 0 28))

/-- R93, S3 of 95_test_vectors.md: CFGSRC then CFGDST and CFGDST then CFGSRC leave the same memory and registers, in
which both pointers and both sides' fields are the programmed ones. -/
def Obligations.SourceAndDestinationCommute : Prop :=
  ∀ (ch : BitVec 8) (i₁ i₂ : Increment) (z₁ z₂ : ItemSize) (e₁ e₂ : Word) (s : State), ch.toNat < 32 →
    z₁ ≠ .reserved → z₂ ≠ .reserved → TableReady s → (∀ w, memOk s (entaddr s ch (tgt s ch) w) = true) →
    ∃ t u, execAll [.cfgsrc ch i₁ z₁ e₁, .cfgdst ch i₂ z₂ e₂] s = .next t ∧
      execAll [.cfgdst ch i₂ z₂ e₂, .cfgsrc ch i₁ z₁ e₁] s = .next u ∧
      t.mem = u.mem ∧ t.csr = u.csr ∧ t.csr = s.csr ∧
      readWord t.mem (entaddr s ch (tgt s ch) .src) = e₁ ∧ readWord t.mem (entaddr s ch (tgt s ch) .dst) = e₂ ∧
      (∀ c, c = readWord t.mem (entaddr s ch (tgt s ch) .ctl) →
        c.extractLsb' 24 2 = z₁.code ∧ c.extractLsb' 26 2 = i₁.code ∧ c.extractLsb' 28 2 = z₂.code ∧
        c.extractLsb' 30 2 = i₂.code ∧
        c.extractLsb' 0 24 = (readWord s.mem (entaddr s ch (tgt s ch) .ctl)).extractLsb' 0 24)

/-- R94: what START refuses: a channel of 32 or more, a count of 0, a count above 1024, and the clock off, in that
order, with no effect. The index that the Req and Resp events carry is the model's reading (log 7). -/
def Obligations.StartRejectsBadOperands : Prop :=
  ∀ (ch : BitVec 8) (n : BitVec 16) (s : State), Accepting s →
    packetOf (.start ch n) = ⟨0x33000000#32 ||| ch.setWidth 32 <<< 16 ||| n.setWidth 32, []⟩ ∧
    (32 ≤ ch.toNat → exec (.start ch n) s = .next (trapped (.start ch n) 4#8 (ch.setWidth 32) [] s)) ∧
    (ch.toNat < 32 → n = 0#16 →
      exec (.start ch n) s = .next (trapped (.start ch n) 7#8 (packetOf (.start ch n)).op [] s)) ∧
    (ch.toNat < 32 → 1024 < n.toNat →
      exec (.start ch n) s = .next (trapped (.start ch n) 8#8 (n.setWidth 32) [] s)) ∧
    (ch.toNat < 32 → 1 ≤ n.toNat → n.toNat ≤ 1024 → s.sys.clkEn = false →
      exec (.start ch n) s = .next (trapped (.start ch n) 10#8 (packetOf (.start ch n)).op [] s))

/-- R94, R122: START on a channel that no stored record has sets the channel's enable bit and changes nothing else: no
table word, no mode. The index that the Req and Resp events carry is the model's reading (log 7). -/
def Obligations.StartOfAnUnlistedChannelOnlyArms : Prop :=
  ∀ (ch : BitVec 8) (n : BitVec 16) (s : State), Clocked s → ch.toNat < 32 → 1 ≤ n.toNat → n.toNat ≤ 1024 →
    (s.cfg.valid = false ∨ ∀ r ∈ s.cfg.list, r.ch ≠ ch) →
    exec (.start ch n) s =
      .next { completed (.start ch n) 0#32 [] s with
        csr := { s.csr with ena := s.csr.ena ||| (1#32 <<< ch.toNat) } }

/-- R94: START on a listed channel re-applies the mode of the first record of the channel (its mode bits, then its
alternate-select bit), then writes `count - 1` in the size field, then sets the enable bit; each of the two
read-modify-writes keeps the other bits of its word, and nothing else changes. The second one is at the half that R48
names after the first (log 15). The index that the Req and Resp events carry is the model's reading (log 7). -/
def Obligations.StartOfAListedChannelReappliesItsMode : Prop :=
  ∀ (ch : BitVec 8) (n : BitVec 16) (before after : List ConfigRecord) (r : ConfigRecord) (s : State),
    TableReady s → ch.toNat < 32 → 1 ≤ n.toNat → n.toNat ≤ 1024 → s.cfg.valid = true →
    s.cfg.list = before ++ r :: after → (∀ q ∈ before, q.ch ≠ ch) → r.ch = ch →
    ∀ (alt : Word) (a a' : Nat),
      alt = (if r.mode = .stop ∨ r.mode = .basic ∨ r.mode = .auto then s.csr.altsel &&& ~~~(1#32 <<< ch.toNat)
        else s.csr.altsel ||| (1#32 <<< ch.toNat)) →
      a = entaddr s ch (tgt s ch) .ctl →
      a' = entaddr s ch (tgt { s with csr := { s.csr with altsel := alt } } ch) .ctl →
      memOk s a = true → memOk s a' = true →
      ∃ (m m' : Memory) (w w' : Word), exec (.start ch n) s =
          .next { completed (.start ch n) 0#32
              [.memR a (readWord s.mem a), .memW a w, .memR a' (readWord m a'), .memW a' w'] s with
            mem := m', csr := { s.csr with altsel := alt, ena := s.csr.ena ||| (1#32 <<< ch.toNat) } } ∧
        WordStored s.mem m a w ∧ WordStored m m' a' w' ∧
        w.extractLsb' 0 3 = r.mode.code ∧ w.extractLsb' 3 29 = (readWord s.mem a).extractLsb' 3 29 ∧
        (w'.extractLsb' 4 10).toNat = n.toNat - 1 ∧
        w'.extractLsb' 0 4 = (readWord m a').extractLsb' 0 4 ∧
        w'.extractLsb' 14 18 = (readWord m a').extractLsb' 14 18

/-- R127: a START whose mode write memory refuses raises MemFault and arms nothing. The index that the Req and Resp
events carry, and that a refused access leaves no event, are the model's reading (log 7, log 8). -/
def Obligations.StartThatMemoryRefusesArmsNothing : Prop :=
  ∀ (ch : BitVec 8) (n : BitVec 16) (s : State), TableReady s → ch.toNat < 32 → 1 ≤ n.toNat → n.toNat ≤ 1024 →
    s.cfg.valid = true → (∃ r ∈ s.cfg.list, r.ch = ch) → memOk s (entaddr s ch (tgt s ch) .ctl) = false →
    exec (.start ch n) s =
      .next (trapped (.start ch n) 16#8 (BitVec.ofNat 32 (entaddr s ch (tgt s ch) .ctl)) [] s)

/-- R94, S5 of 95_test_vectors.md, with `FIELD_TARGET = primary` (the value R48 fixes): a START given twice leaves the
same memory and the same registers as given once, the enable bit set. -/
def Obligations.StartIsIdempotent : Prop :=
  ∀ (ch : BitVec 8) (n : BitVec 16) (s t : State), TableReady s → s.par.fieldTarget = .primary →
    exec (.start ch n) s = .next t → t.flt.code = 0#8 →
    ∃ u, exec (.start ch n) t = .next u ∧ u.mem = t.mem ∧ u.csr = t.csr ∧ u.flt = t.flt ∧
      u.csr.ena.getLsbD ch.toNat = true

/-- R91, R127: an INIT that an unfaulted block ends with a fault leaves the stored list, the enable bits, the error bits
and the channel assignment as they were; where the fault is BaseRewrite or MemFault (steps 3 and 4), the clock, the
power bit and the master enable stay set, and otherwise nothing but the latch and the history changed, for a legal
buffer. -/
def Obligations.FaultedInitStoresNoList : Prop :=
  ∀ (rs : List ConfigRecord) (s t : State), Accepting s → exec (.init rs) s = .next t → t.flt.code ≠ 0#8 →
    t.cfg = s.cfg ∧ t.csr.ena = s.csr.ena ∧ t.csr.err = s.csr.err ∧ t.csr.chasgn = s.csr.chasgn ∧ t.seq = s.seq ∧
    (t.flt.code = 13#8 ∨ t.flt.code = 16#8 → t.sys = { clkEn := true, pwrOk := true } ∧ t.csr.masten = true) ∧
    (s.par.BufferOk → t.flt.code ≠ 13#8 → t.flt.code ≠ 16#8 → t = { s with flt := t.flt, hist := t.hist })

/-- R94, R127: a START that an unfaulted block ends with a fault arms nothing: no enable bit changes, nor any register
but the alternate-select vector, and that one only at MemFault. -/
def Obligations.FaultedStartArmsNothing : Prop :=
  ∀ (ch : BitVec 8) (n : BitVec 16) (s t : State), Accepting s → exec (.start ch n) s = .next t → t.flt.code ≠ 0#8 →
    t.cfg = s.cfg ∧ t.sys = s.sys ∧ t.seq = s.seq ∧ t.csr = { s.csr with altsel := t.csr.altsel } ∧
    (t.flt.code ≠ 16#8 → t = { s with flt := t.flt, hist := t.hist })

/-! ### Register access -/

/-- R26: each of the five vectors has a set port and a clear port: WR of the set port ORs the data into the vector, WR
of the clear port clears the bits that are 1 in the data, RD of either port answers the vector; nothing else changes.
The index that the Req and Resp events carry is the model's reading (log 7). -/
def Obligations.SetAndClearPorts : Prop :=
  packetOf .rdUseburstset = ⟨0x01000018#32, []⟩ ∧ (∀ d, packetOf (.wrUseburstset d) = ⟨0x02000018#32, [d]⟩) ∧
  packetOf .rdUseburstclr = ⟨0x0100001c#32, []⟩ ∧ (∀ d, packetOf (.wrUseburstclr d) = ⟨0x0200001c#32, [d]⟩) ∧
  packetOf .rdReqmaskset = ⟨0x01000020#32, []⟩ ∧ (∀ d, packetOf (.wrReqmaskset d) = ⟨0x02000020#32, [d]⟩) ∧
  packetOf .rdReqmaskclr = ⟨0x01000024#32, []⟩ ∧ (∀ d, packetOf (.wrReqmaskclr d) = ⟨0x02000024#32, [d]⟩) ∧
  packetOf .rdEnaset = ⟨0x01000028#32, []⟩ ∧ (∀ d, packetOf (.wrEnaset d) = ⟨0x02000028#32, [d]⟩) ∧
  packetOf .rdEnaclr = ⟨0x0100002c#32, []⟩ ∧ (∀ d, packetOf (.wrEnaclr d) = ⟨0x0200002c#32, [d]⟩) ∧
  packetOf .rdAltset = ⟨0x01000030#32, []⟩ ∧ (∀ d, packetOf (.wrAltset d) = ⟨0x02000030#32, [d]⟩) ∧
  packetOf .rdAltclr = ⟨0x01000034#32, []⟩ ∧ (∀ d, packetOf (.wrAltclr d) = ⟨0x02000034#32, [d]⟩) ∧
  packetOf .rdPrioset = ⟨0x01000038#32, []⟩ ∧ (∀ d, packetOf (.wrPrioset d) = ⟨0x02000038#32, [d]⟩) ∧
  packetOf .rdPrioclr = ⟨0x0100003c#32, []⟩ ∧ (∀ d, packetOf (.wrPrioclr d) = ⟨0x0200003c#32, [d]⟩) ∧
  ∀ (d : Word) (s : State), Clocked s →
    (exec (.wrUseburstset d) s = .next { completed (.wrUseburstset d) 0#32 [] s with
        csr := { s.csr with useburst := s.csr.useburst ||| d } } ∧
      exec (.wrUseburstclr d) s = .next { completed (.wrUseburstclr d) 0#32 [] s with
        csr := { s.csr with useburst := s.csr.useburst &&& ~~~d } } ∧
      exec .rdUseburstset s = .next (completed .rdUseburstset s.csr.useburst [] s) ∧
      exec .rdUseburstclr s = .next (completed .rdUseburstclr s.csr.useburst [] s)) ∧
    (exec (.wrReqmaskset d) s = .next { completed (.wrReqmaskset d) 0#32 [] s with
        csr := { s.csr with reqmask := s.csr.reqmask ||| d } } ∧
      exec (.wrReqmaskclr d) s = .next { completed (.wrReqmaskclr d) 0#32 [] s with
        csr := { s.csr with reqmask := s.csr.reqmask &&& ~~~d } } ∧
      exec .rdReqmaskset s = .next (completed .rdReqmaskset s.csr.reqmask [] s) ∧
      exec .rdReqmaskclr s = .next (completed .rdReqmaskclr s.csr.reqmask [] s)) ∧
    (exec (.wrEnaset d) s = .next { completed (.wrEnaset d) 0#32 [] s with
        csr := { s.csr with ena := s.csr.ena ||| d } } ∧
      exec (.wrEnaclr d) s = .next { completed (.wrEnaclr d) 0#32 [] s with
        csr := { s.csr with ena := s.csr.ena &&& ~~~d } } ∧
      exec .rdEnaset s = .next (completed .rdEnaset s.csr.ena [] s) ∧
      exec .rdEnaclr s = .next (completed .rdEnaclr s.csr.ena [] s)) ∧
    (exec (.wrAltset d) s = .next { completed (.wrAltset d) 0#32 [] s with
        csr := { s.csr with altsel := s.csr.altsel ||| d } } ∧
      exec (.wrAltclr d) s = .next { completed (.wrAltclr d) 0#32 [] s with
        csr := { s.csr with altsel := s.csr.altsel &&& ~~~d } } ∧
      exec .rdAltset s = .next (completed .rdAltset s.csr.altsel [] s) ∧
      exec .rdAltclr s = .next (completed .rdAltclr s.csr.altsel [] s)) ∧
    (exec (.wrPrioset d) s = .next { completed (.wrPrioset d) 0#32 [] s with
        csr := { s.csr with prio := s.csr.prio ||| d } } ∧
      exec (.wrPrioclr d) s = .next { completed (.wrPrioclr d) 0#32 [] s with
        csr := { s.csr with prio := s.csr.prio &&& ~~~d } } ∧
      exec .rdPrioset s = .next (completed .rdPrioset s.csr.prio [] s) ∧
      exec .rdPrioclr s = .next (completed .rdPrioclr s.csr.prio [] s))

/-- R32, R114: ERRCLR clears the error bits written as 1 and reads the error vector; no request sets an error bit, so
without the engine it reads 0 always. The index that the Req and Resp events carry is the model's reading (log 7). -/
def Obligations.ErrclrClearsErrorBits : Prop :=
  packetOf .rdErrclr = ⟨0x0100004c#32, []⟩ ∧ (∀ d, packetOf (.wrErrclr d) = ⟨0x0200004c#32, [d]⟩) ∧
  (∀ s t : State, s.csr.err = 0#32 → step s = .next t → t.csr.err = 0#32) ∧ (∀ s : State, (resetInput s).csr.err = 0#32) ∧
  ∀ (d : Word) (s : State), Clocked s →
    exec (.wrErrclr d) s = .next { completed (.wrErrclr d) 0#32 [] s with
      csr := { s.csr with err := s.csr.err &&& ~~~d } } ∧
    exec .rdErrclr s = .next (completed .rdErrclr s.csr.err [] s)

/-- R33, R34, R115 to R119: CHASGN and CHMAP0 to CHMAP3 are plain storage: WR replaces all 32 bits, RD answers them,
nothing else changes. The index that the Req and Resp events carry is the model's reading (log 7). -/
def Obligations.PlainStorageRegisters : Prop :=
  packetOf .rdChasgn = ⟨0x01000500#32, []⟩ ∧ (∀ d, packetOf (.wrChasgn d) = ⟨0x02000500#32, [d]⟩) ∧
  packetOf .rdChmap0 = ⟨0x01000510#32, []⟩ ∧ (∀ d, packetOf (.wrChmap0 d) = ⟨0x02000510#32, [d]⟩) ∧
  packetOf .rdChmap1 = ⟨0x01000514#32, []⟩ ∧ (∀ d, packetOf (.wrChmap1 d) = ⟨0x02000514#32, [d]⟩) ∧
  packetOf .rdChmap2 = ⟨0x01000518#32, []⟩ ∧ (∀ d, packetOf (.wrChmap2 d) = ⟨0x02000518#32, [d]⟩) ∧
  packetOf .rdChmap3 = ⟨0x0100051c#32, []⟩ ∧ (∀ d, packetOf (.wrChmap3 d) = ⟨0x0200051c#32, [d]⟩) ∧
  ∀ (d : Word) (s : State), Clocked s →
    exec (.wrChasgn d) s = .next { completed (.wrChasgn d) 0#32 [] s with csr := { s.csr with chasgn := d } } ∧
    exec .rdChasgn s = .next (completed .rdChasgn s.csr.chasgn [] s) ∧
    exec (.wrChmap0 d) s = .next { completed (.wrChmap0 d) 0#32 [] s with csr := { s.csr with chmap0 := d } } ∧
    exec .rdChmap0 s = .next (completed .rdChmap0 s.csr.chmap0 [] s) ∧
    exec (.wrChmap1 d) s = .next { completed (.wrChmap1 d) 0#32 [] s with csr := { s.csr with chmap1 := d } } ∧
    exec .rdChmap1 s = .next (completed .rdChmap1 s.csr.chmap1 [] s) ∧
    exec (.wrChmap2 d) s = .next { completed (.wrChmap2 d) 0#32 [] s with csr := { s.csr with chmap2 := d } } ∧
    exec .rdChmap2 s = .next (completed .rdChmap2 s.csr.chmap2 [] s) ∧
    exec (.wrChmap3 d) s = .next { completed (.wrChmap3 d) 0#32 [] s with csr := { s.csr with chmap3 := d } } ∧
    exec .rdChmap3 s = .next (completed .rdChmap3 s.csr.chmap3 [] s)

/-- R99: CFG reads the master enable, zero-extended; WR stores data bit 0, or raises BadOperand with the data where
any other bit is 1 (before the clock is looked at, R126). The index that the Req and Resp events carry is the model's
reading (log 7). -/
def Obligations.CfgHoldsTheMasterEnable : Prop :=
  packetOf .rdCfg = ⟨0x01000004#32, []⟩ ∧ (∀ d, packetOf (.wrCfg d) = ⟨0x02000004#32, [d]⟩) ∧
  ∀ (d : Word) (s : State), Accepting s →
    (s.sys.clkEn = true →
      exec .rdCfg s = .next (completed .rdCfg (if s.csr.masten then 1#32 else 0#32) [] s)) ∧
    (d ≠ 0#32 → d ≠ 1#32 → exec (.wrCfg d) s = .next (trapped (.wrCfg d) 6#8 d [] s)) ∧
    (d = 0#32 ∨ d = 1#32 → s.sys.clkEn = true →
      exec (.wrCfg d) s =
        .next { completed (.wrCfg d) 0#32 [] s with csr := { s.csr with masten := d == 1#32 } })

/-- R100: CTLBASE reads the table base; WR raises TableAlign for a value that is not a multiple of 1024, BaseRewrite
for a value other than the one already written, and else writes the base and marks it written. The index that the Req
and Resp events carry is the model's reading (log 7). -/
def Obligations.CtlbaseIsWrittenOnceAligned : Prop :=
  packetOf .rdCtlbase = ⟨0x01000008#32, []⟩ ∧ (∀ d, packetOf (.wrCtlbase d) = ⟨0x02000008#32, [d]⟩) ∧
  ∀ (d : Word) (s : State), Clocked s →
    exec .rdCtlbase s = .next (completed .rdCtlbase s.csr.ctlbase [] s) ∧
    (d.toNat % 1024 ≠ 0 → exec (.wrCtlbase d) s = .next (trapped (.wrCtlbase d) 12#8 d [] s)) ∧
    (d.toNat % 1024 = 0 → s.csr.ctlbaseWritten = true → d ≠ s.csr.ctlbase →
      exec (.wrCtlbase d) s = .next (trapped (.wrCtlbase d) 13#8 d [] s)) ∧
    (d.toNat % 1024 = 0 → s.csr.ctlbaseWritten = false ∨ d = s.csr.ctlbase →
      exec (.wrCtlbase d) s =
        .next { completed (.wrCtlbase d) 0#32 [] s with
          csr := { s.csr with ctlbase := d, ctlbaseWritten := true } })

/-- R101: ALTBASE reads the table base plus 512 (R23: without wrap, the base being aligned), and a WR of it raises
AccessViolation. The index that the Req and Resp events carry is the model's reading (log 7). -/
def Obligations.AltbaseIsTheBasePlus512 : Prop :=
  packetOf .rdAltbase = ⟨0x0100000c#32, []⟩ ∧ (∀ d, packetOf (.wrAltbase d) = ⟨0x0200000c#32, [d]⟩) ∧
  ∀ (d : Word) (s : State), Accepting s →
    (s.sys.clkEn = true →
      exec .rdAltbase s = .next (completed .rdAltbase (s.csr.ctlbase + 512#32) [] s)) ∧
    (s.csr.ctlbase.toNat % 1024 = 0 → (s.csr.ctlbase + 512#32).toNat = s.csr.ctlbase.toNat + 512) ∧
    exec (.wrAltbase d) s = .next (trapped (.wrAltbase d) 3#8 0x00c#32 [] s)

/-- R20, R24, R98, R102: STAT and WAITSTAT answer a draw, whatever its value, and change nothing the spec names; a WR
of either raises AccessViolation. That the draw is the next value of the free constant `Config.draw`, counted by
`draws`, is the model's form of a free value (log 3). The index that the Req and Resp events carry is the model's
reading (log 7). -/
def Obligations.StatusReadsAreDraws : Prop :=
  ∀ (d : Word) (s : State), Accepting s →
    (s.sys.clkEn = true →
      exec .rdStat s = .next { completed .rdStat (Config.draw s.draws) [] s with draws := s.draws + 1 } ∧
      exec .rdWaitstat s = .next { completed .rdWaitstat (Config.draw s.draws) [] s with draws := s.draws + 1 }) ∧
    exec (.wrStat d) s = .next (trapped (.wrStat d) 3#8 0x000#32 [] s) ∧
    exec (.wrWaitstat d) s = .next (trapped (.wrWaitstat d) 3#8 0x010#32 [] s)

/-- R25, R103: WR SWREQ emits one request event for each bit that is 1, in ascending order, and changes no register;
RD SWREQ raises AccessViolation. The index that the Req and Resp events carry is the model's reading (log 7). -/
def Obligations.SwreqEmitsRequestsInOrder : Prop :=
  packetOf .rdSwreq = ⟨0x01000014#32, []⟩ ∧ (∀ d, packetOf (.wrSwreq d) = ⟨0x02000014#32, [d]⟩) ∧
  ∀ (d : Word) (s : State), Accepting s →
    (s.sys.clkEn = true →
      ∃ chs : List Nat, exec (.wrSwreq d) s = .next (completed (.wrSwreq d) 0#32 (chs.map Event.swReq) s) ∧
        chs.Pairwise (· < ·) ∧ ∀ i, i ∈ chs ↔ d.getLsbD i = true) ∧
    exec .rdSwreq s = .next (trapped .rdSwreq 3#8 0x014#32 [] s)

/-- R120, R45: RD and WR at an offset that is not a multiple of 4 or lies in a hole of the map raise BadOffset with
the offset, with the clock on or off, and change nothing. The index that the Req and Resp events carry is the model's
reading (log 7). -/
def Obligations.UnmappedOffsetsRaiseBadOffset : Prop :=
  (∀ (off : BitVec 12) (d : Word), packetOf (.rd off) = ⟨0x01000000#32 ||| off.setWidth 32, []⟩ ∧
    packetOf (.wr off d) = ⟨0x02000000#32 ||| off.setWidth 32, [d]⟩) ∧
  ∀ (off : BitVec 12) (d : Word) (s : State), Accepting s →
    (off.toNat % 4 ≠ 0 ∨ (0x040 ≤ off.toNat ∧ off.toNat ≤ 0x048) ∨ (0x050 ≤ off.toNat ∧ off.toNat ≤ 0x4fc) ∨
      (0x504 ≤ off.toNat ∧ off.toNat ≤ 0x50c) ∨ 0x520 ≤ off.toNat) →
    exec (.rd off) s = .next (trapped (.rd off) 2#8 (off.setWidth 32) [] s) ∧
    exec (.wr off d) s = .next (trapped (.wr off d) 2#8 (off.setWidth 32) [] s)

/-! ### The whole machine -/

/-- R16, R17, R18, R22, R35, R124: every step keeps the invariant: an aligned base that is 0 until written, a fault
latch with a legal code, a legal stored list, the power bit equal to the clock bit, registers at reset while the clock
was never on, and memory in its canonical form. -/
def Obligations.StepKeepsTheInvariant : Prop :=
  ∀ s t : State, s.Inv → step s = .next t → t.Inv

/-- R138: the state after reset satisfies the invariant. -/
def Obligations.ResetHasTheInvariant : Prop := State.reset.Inv

/-- R7, R47, R72: from every state with the invariant the step answers a next state: whatever words the host sends, no
table address overflows or is misaligned, and no request is left without a meaning. -/
def Obligations.EveryStepAnswersANextState : Prop :=
  ∀ s : State, s.Inv → ∃ t, step s = .next t

/-- R37, R47: a step changes no byte of memory outside the 1024 bytes of the control table, and none at all before a
base is programmed. -/
def Obligations.StepsStoreOnlyInTheTable : Prop :=
  ∀ s t : State, s.Inv → step s = .next t →
    (∀ a, a < t.csr.ctlbase.toNat ∨ t.csr.ctlbase.toNat + 1024 ≤ a → readByte t.mem a = readByte s.mem a) ∧
    (t.csr.ctlbaseWritten = false → t.mem = s.mem)

/-- R12: no request but TBLWR changes a reserved word, or the next-use-burst and protection bits of a control word; no
request but TBLWR and CFGSRC changes a source end pointer, and none but TBLWR and CFGDST a destination end pointer. -/
def Obligations.OnlyTblwrWritesReservedFields : Prop :=
  ∀ (i : Instr) (s t : State) (ch : BitVec 8) (h : Half), s.Inv → exec i s = .next t → ch.toNat < 32 →
    (∀ c k w d, i ≠ .tblwr c k w d) →
    (∀ a, a = entryAddr t.csr.ctlbase ch h .rsv → readWord t.mem a = readWord s.mem a) ∧
    (∀ a, a = entryAddr t.csr.ctlbase ch h .ctl →
      readWord t.mem a &&& 0x00fc0008#32 = readWord s.mem a &&& 0x00fc0008#32) ∧
    ((∀ c j z e, i ≠ .cfgsrc c j z e) →
      ∀ a, a = entryAddr t.csr.ctlbase ch h .src → readWord t.mem a = readWord s.mem a) ∧
    ((∀ c j z e, i ≠ .cfgdst c j z e) →
      ∀ a, a = entryAddr t.csr.ctlbase ch h .dst → readWord t.mem a = readWord s.mem a)

/-- R22, R17, R32, R14, R39, R5: a programmed base is never changed, the clock never goes off, no error bit is set, the
request count and the history only grow, and the parameters, what memory held at power-on among them (log 2, log 4), are
constants. -/
def Obligations.StepsOnlyMoveForward : Prop :=
  ∀ s t : State, step s = .next t →
    (s.csr.ctlbaseWritten = true → t.csr.ctlbaseWritten = true ∧ t.csr.ctlbase = s.csr.ctlbase) ∧
    (s.sys.clkEn = true → t.sys.clkEn = true) ∧
    (∀ i, t.csr.err.getLsbD i = true → s.csr.err.getLsbD i = true) ∧
    (t.seq = s.seq ∨ t.seq = s.seq + 1) ∧ s.hist <+: t.hist ∧ t.par = s.par ∧ t.mem.powerOn = s.mem.powerOn

/-- R21, R26 to R35, R17: which requests (well-formed ones: no packet is another, log 14) can change which register: a
request that does not own a register leaves it as it was. -/
def Obligations.EachRegisterHasItsWriters : Prop :=
  ∀ (i : Instr) (s t : State), i.wellFormed = true → exec i s = .next t →
    (t.cfg ≠ s.cfg → ∃ rs, i = .init rs) ∧
    (t.sys ≠ s.sys → i = .clkon ∨ ∃ rs, i = .init rs) ∧
    (t.csr.masten ≠ s.csr.masten → (∃ d, i = .wrCfg d) ∨ ∃ rs, i = .init rs) ∧
    (t.csr.ctlbase ≠ s.csr.ctlbase ∨ t.csr.ctlbaseWritten ≠ s.csr.ctlbaseWritten →
      (∃ d, i = .wrCtlbase d) ∨ ∃ rs, i = .init rs) ∧
    (t.csr.useburst ≠ s.csr.useburst →
      (∃ ch g, i = .setgran ch g) ∨ (∃ d, i = .wrUseburstset d ∨ i = .wrUseburstclr d) ∨ ∃ rs, i = .init rs) ∧
    (t.csr.reqmask ≠ s.csr.reqmask →
      (∃ ch, i = .unmask ch) ∨ (∃ d, i = .wrReqmaskset d ∨ i = .wrReqmaskclr d) ∨ ∃ rs, i = .init rs) ∧
    (t.csr.ena ≠ s.csr.ena → (∃ ch n, i = .start ch n) ∨ ∃ d, i = .wrEnaset d ∨ i = .wrEnaclr d) ∧
    (t.csr.altsel ≠ s.csr.altsel →
      (∃ ch m, i = .setmode ch m) ∨ (∃ ch n, i = .start ch n) ∨ (∃ d, i = .wrAltset d ∨ i = .wrAltclr d) ∨
        ∃ rs, i = .init rs) ∧
    (t.csr.prio ≠ s.csr.prio →
      (∃ ch p, i = .setprio ch p) ∨ (∃ d, i = .wrPrioset d ∨ i = .wrPrioclr d) ∨ ∃ rs, i = .init rs) ∧
    (t.csr.err ≠ s.csr.err → ∃ d, i = .wrErrclr d) ∧
    (t.csr.chasgn ≠ s.csr.chasgn → ∃ d, i = .wrChasgn d) ∧
    ((t.csr.chmap0, t.csr.chmap1, t.csr.chmap2, t.csr.chmap3) ≠
        (s.csr.chmap0, s.csr.chmap1, s.csr.chmap2, s.csr.chmap3) →
      (∃ ch enc, i = .setmap ch enc) ∨
        (∃ d, i = .wrChmap0 d ∨ i = .wrChmap1 d ∨ i = .wrChmap2 d ∨ i = .wrChmap3 d) ∨ ∃ rs, i = .init rs)

/-- R138, R141: the reset input puts every element of the block at the value of R138's table and keeps memory; the state
after reset that the machine starts in holds the same values, and each byte of its memory is the free value that is the
model's form of `MEM0` (log 4). -/
def Obligations.ResetRestoresTheTableOfR138 : Prop :=
  ∀ s t : State, t = resetInput s ∨ t = State.reset →
    t.csr.masten = false ∧ t.csr.ctlbase = 0#32 ∧ t.csr.ctlbaseWritten = false ∧ t.csr.useburst = 0#32 ∧
    t.csr.reqmask = 0#32 ∧ t.csr.ena = 0#32 ∧ t.csr.altsel = 0#32 ∧ t.csr.prio = 0#32 ∧ t.csr.err = 0#32 ∧
    t.csr.chasgn = 0#32 ∧ t.csr.chmap0 = 0#32 ∧ t.csr.chmap1 = 0#32 ∧ t.csr.chmap2 = 0#32 ∧ t.csr.chmap3 = 0#32 ∧
    t.cfg.list = [] ∧ t.cfg.valid = false ∧ t.sys.clkEn = false ∧ t.sys.pwrOk = false ∧ t.flt.code = 0#8 ∧
    t.flt.info = 0#32 ∧ t.flt.op = 0#32 ∧ t.seq = 0 ∧ t.hist = [] ∧
    (resetInput s).mem = s.mem ∧ (∀ a, readByte State.reset.mem a = Config.mem0 a)

/-- R58: the ten fields of the control word cover all 32 bits without overlap: packing reads back field by field, and
every word is the packing of its fields. -/
def Obligations.ControlWordPacksTenFields : Prop :=
  (∀ (mode : BitVec 3) (nub : BitVec 1) (size : BitVec 10) (arb : BitVec 4) (sprot dprot : BitVec 3)
      (ssize sinc dsize dinc : BitVec 2) (w : Word),
    w = packcw mode nub size arb sprot dprot ssize sinc dsize dinc →
      getField cwMode w = mode.setWidth 32 ∧ getField cwNub w = nub.setWidth 32 ∧
      getField cwSize w = size.setWidth 32 ∧ getField cwArb w = arb.setWidth 32 ∧
      getField cwSprot w = sprot.setWidth 32 ∧ getField cwDprot w = dprot.setWidth 32 ∧
      getField cwSsize w = ssize.setWidth 32 ∧ getField cwSinc w = sinc.setWidth 32 ∧
      getField cwDsize w = dsize.setWidth 32 ∧ getField cwDinc w = dinc.setWidth 32) ∧
  (∀ w : Word,
    packcw (w.extractLsb' 0 3) (w.extractLsb' 3 1) (w.extractLsb' 4 10) (w.extractLsb' 14 4) (w.extractLsb' 18 3)
      (w.extractLsb' 21 3) (w.extractLsb' 24 2) (w.extractLsb' 26 2) (w.extractLsb' 28 2) (w.extractLsb' 30 2) = w)

/-- R136: an action the engine may take keeps the invariant, touches only the enable, alternate-select and error bits of
a channel whose enable bit is 1, and sets no enable bit, while the master enable is 1; it never writes the state R136
names, nor a word of the table other than a control word of that channel. The actions themselves are the model's form of
R136's liberties (log 13). -/
def Obligations.EngineStaysWithinItsLiberties : Prop :=
  ∀ (act : EngineAction) (s t : State), s.Inv → engineAct act s = some t →
    t.Inv ∧ s.csr.masten = true ∧ s.csr.ena.getLsbD act.channel.toNat = true ∧
    t.cfg = s.cfg ∧ t.sys = s.sys ∧ t.flt = s.flt ∧ t.seq = s.seq ∧ t.par = s.par ∧
    t.csr = { s.csr with ena := t.csr.ena, altsel := t.csr.altsel, err := t.csr.err } ∧
    (∀ j, j ≠ act.channel.toNat →
      t.csr.ena.getLsbD j = s.csr.ena.getLsbD j ∧ t.csr.altsel.getLsbD j = s.csr.altsel.getLsbD j ∧
      t.csr.err.getLsbD j = s.csr.err.getLsbD j) ∧
    (∀ j, t.csr.ena.getLsbD j = true → s.csr.ena.getLsbD j = true) ∧
    (∀ (ch : BitVec 8) (h : Half) (w : EntryWord), ch.toNat < 32 → ¬(ch = act.channel ∧ w = .ctl) →
      readWord t.mem (entaddr s ch h w) = readWord s.mem (entaddr s ch h w))

/-- R91, R127: an INIT that memory refuses in step 4, at the mode write or at the arbitration write of the record `r`,
raises MemFault with that address; what was done before stays: the registers, the system bits and memory are those that
the hand-made sequence up to there leaves (steps 1 to 3, the six setters of every record before `r`, the setters of `r`
before the refused one); the list is not stored. Both writes go to the half that R48 names at the moment (log 15). -/
def Obligations.InitRefusedByMemoryKeepsWhatWasDone : Prop :=
  ∀ (before after : List ConfigRecord) (r : ConfigRecord) (rs : List ConfigRecord) (s : State), Accepting s →
    rs = before ++ r :: after → rs.length ≤ 32 → (∀ q ∈ rs, q.ch.toNat < 16) → s.par.BufferOk →
    Memory.wf s.mem = true → (s.csr.ctlbaseWritten = true → s.csr.ctlbase = bufferTable s.par) →
    (∀ q ∈ before, ControlWordsOk s (bufferTable s.par) q.ch) →
    ∃ u, execAll (bootRequests (bufferTable s.par) before ++ [.setmap r.ch r.enc, .setprio r.ch r.tier]) s = .next u ∧
      (∀ a, a = entaddr u r.ch (tgt u r.ch) .ctl → memOk s a = false →
        ∃ t, exec (.init rs) s = .next t ∧ t.csr = u.csr ∧ t.sys = u.sys ∧ t.mem = u.mem ∧ t.cfg = s.cfg ∧
          t.flt = { code := 16#8, info := BitVec.ofNat 32 a, op := (packetOf (.init rs)).op } ∧ t.seq = s.seq ∧
          t.port = s.port ∧ t.par = s.par ∧ t.draws = s.draws) ∧
      (memOk s (entaddr u r.ch (tgt u r.ch) .ctl) = true →
        ∃ v, execAll [.setmode r.ch r.mode, .setgran r.ch r.gran] u = .next v ∧
          ∀ a, a = entaddr v r.ch (tgt v r.ch) .ctl → memOk s a = false →
            ∃ t, exec (.init rs) s = .next t ∧ t.csr = v.csr ∧ t.sys = v.sys ∧ t.mem = v.mem ∧ t.cfg = s.cfg ∧
              t.flt = { code := 16#8, info := BitVec.ofNat 32 a, op := (packetOf (.init rs)).op } ∧ t.seq = s.seq ∧
              t.port = s.port ∧ t.par = s.par ∧ t.draws = s.draws)
end

