-- ==== Sys2Proof/Laws/Encoding.lean ====
section
/-! SUPPORT. The fields of encoded words: what the encoder puts in, the decoder's field functions take out. -/

namespace Sys2Proof

/-! ### Codes -/

@[simp] theorem TransferMode.ofCode_code (m : TransferMode) : TransferMode.ofCode m.code = m := by cases m <;> rfl
@[simp] theorem ItemSize.ofCode_code (z : ItemSize) : ItemSize.ofCode z.code = z := by cases z <;> rfl
@[simp] theorem Increment.ofCode_code (i : Increment) : Increment.ofCode i.code = i := by cases i <;> rfl
@[simp] theorem Tier.ofCode_code (t : Tier) : Tier.ofCode t.code = t := by cases t <;> rfl
@[simp] theorem Granularity.ofCode_code (g : Granularity) : Granularity.ofCode g.code = g := by cases g <;> rfl
@[simp] theorem Half.ofCode_code (h : Half) : Half.ofCode h.code = h := by cases h <;> rfl
@[simp] theorem EntryWord.ofCode_code (w : EntryWord) : EntryWord.ofCode w.code = w := by cases w <;> rfl

@[simp] theorem TransferMode.code_ofCode (b : BitVec 3) : (TransferMode.ofCode b).code = b := by
  revert b; decide
@[simp] theorem ItemSize.code_ofCode (b : BitVec 2) : (ItemSize.ofCode b).code = b := by revert b; decide
@[simp] theorem Increment.code_ofCode (b : BitVec 2) : (Increment.ofCode b).code = b := by revert b; decide
@[simp] theorem Tier.code_ofCode (b : BitVec 1) : (Tier.ofCode b).code = b := by revert b; decide
@[simp] theorem Granularity.code_ofCode (b : BitVec 1) : (Granularity.ofCode b).code = b := by revert b; decide
@[simp] theorem Half.code_ofCode (b : BitVec 1) : (Half.ofCode b).code = b := by revert b; decide
@[simp] theorem EntryWord.code_ofCode (b : BitVec 2) : (EntryWord.ofCode b).code = b := by revert b; decide

@[simp] theorem Opcode.ofCode_code (o : Opcode) : Opcode.ofCode? o.code = some o := by cases o <;> rfl

/-- A listed opcode byte is the code of its opcode. -/
theorem Opcode.code_ofCode {b : BitVec 8} {o : Opcode} (h : Opcode.ofCode? b = some o) : o.code = b := by
  simpa using List.find?_some h

@[simp] theorem Reg.ofOffset_offset (r : Reg) : Reg.ofOffset? r.offset = some r := by cases r <;> rfl

/-- A mapped offset is the offset of its register. -/
theorem Reg.offset_ofOffset {off : BitVec 12} {r : Reg} (h : Reg.ofOffset? off = some r) : r.offset = off := by
  simpa using List.find?_some h

/-! ### The OP word -/

/-- The OP word, bit by bit. -/
theorem getLsbD_opWordOf (o : Opcode) (ch : BitVec 8) (lo : BitVec 16) (i : Nat) :
    (opWordOf o ch lo).getLsbD i =
      if i < 16 then lo.getLsbD i else if i - 16 < 8 then ch.getLsbD (i - 16) else o.code.getLsbD (i - 16 - 8) := by
  simp only [opWordOf, BitVec.getLsbD_append]

@[simp] theorem opcodeField_opWordOf (o : Opcode) (ch : BitVec 8) (lo : BitVec 16) :
    opcodeField (opWordOf o ch lo) = o.code := by
  apply BitVec.eq_of_getLsbD_eq
  intro i hi
  have h1 : ¬ 24 + i < 16 := by omega
  have h2 : ¬ 24 + i - 16 < 8 := by omega
  have h3 : 24 + i - 16 - 8 = i := by omega
  simp [opcodeField, getLsbD_opWordOf, hi, h1, h2, h3]

@[simp] theorem channelField_opWordOf (o : Opcode) (ch : BitVec 8) (lo : BitVec 16) :
    channelField (opWordOf o ch lo) = ch := by
  apply BitVec.eq_of_getLsbD_eq
  intro i hi
  have h1 : ¬ 16 + i < 16 := by omega
  simp [channelField, getLsbD_opWordOf, hi, h1]

/-- A field of the low half-word. -/
theorem extract_opWordOf (o : Opcode) (ch : BitVec 8) (lo : BitVec 16) {k n : Nat} (h : k + n ≤ 16) :
    (opWordOf o ch lo).extractLsb' k n = lo.extractLsb' k n := by
  apply BitVec.eq_of_getLsbD_eq
  intro i hi
  have h1 : k + i < 16 := by omega
  simp [getLsbD_opWordOf, hi, h1]

/-- The OP word under a mask, part by part. -/
theorem opWordOf_and (o : Opcode) (ch : BitVec 8) (lo : BitVec 16) (a b : BitVec 8) (c : BitVec 16) :
    opWordOf o ch lo &&& (a ++ b ++ c : BitVec 32) = ((o.code &&& a) ++ (ch &&& b) ++ (lo &&& c) : BitVec 32) := by
  simp only [opWordOf]
  erw [BitVec.and_append, BitVec.and_append]

/-- A word is its three parts. -/
theorem word_parts (w : Word) : (opcodeField w ++ channelField w ++ w.extractLsb' 0 16 : BitVec 32) = w := by
  apply BitVec.eq_of_getLsbD_eq
  intro i hi
  simp only [opcodeField, channelField, BitVec.getLsbD_append, BitVec.getLsbD_extractLsb']
  by_cases h16 : i < 16
  · simp [h16]
  · by_cases h24 : i - 16 < 8
    · have : 16 + (i - 16) = i := by omega
      simp [h16, h24, this]
    · have h32 : i - 16 - 8 < 8 := by omega
      have : 24 + (i - 16 - 8) = i := by omega
      simp [h16, h24, h32, this]

/-- An OP word with a listed opcode is made of its three parts. -/
theorem opWordOf_parts {op : Word} {o : Opcode} (h : Opcode.ofCode? (opcodeField op) = some o) :
    opWordOf o (channelField op) (op.extractLsb' 0 16) = op := by
  rw [opWordOf, Opcode.code_ofCode h]
  exact word_parts op

/-! ### Records -/

/-- The record's word, bit by bit. -/
theorem getLsbD_encodeRecord (r : ConfigRecord) (i : Nat) :
    (encodeRecord r).getLsbD i =
      if i < 8 then r.ch.getLsbD i else if i < 16 then r.enc.getLsbD (i - 8)
      else if i < 17 then r.tier.code.getLsbD (i - 16) else if i < 20 then r.mode.code.getLsbD (i - 17)
      else if i < 21 then r.gran.code.getLsbD (i - 20) else if i < 25 then r.arb.getLsbD (i - 21) else false := by
  simp only [encodeRecord, BitVec.getLsbD_append]
  simp only [Nat.sub_sub, Nat.reduceAdd, BitVec.getLsbD_zero]
  split
  · rfl
  · simp only [show (i - 8 < 8) = (i < 16) by simp only [eq_iff_iff]; omega]
    split
    · rfl
    · simp only [show (i - 16 < 1) = (i < 17) by simp only [eq_iff_iff]; omega]
      split
      · rfl
      · simp only [show (i - 17 < 3) = (i < 20) by simp only [eq_iff_iff]; omega]
        split
        · rfl
        · simp only [show (i - 20 < 1) = (i < 21) by simp only [eq_iff_iff]; omega]
          split
          · rfl
          · simp only [show (i - 21 < 4) = (i < 25) by simp only [eq_iff_iff]; omega]

/-- R68: a record's word decodes to the record. -/
@[simp] theorem decodeRecord_encodeRecord (r : ConfigRecord) : decodeRecord (encodeRecord r) = .ok r := by
  have hz : (encodeRecord r).extractLsb' 25 7 = 0#7 := by
    apply BitVec.eq_of_getLsbD_eq
    intro i hi
    have h1 : ¬ 25 + i < 8 := by omega
    have h2 : ¬ 25 + i < 16 := by omega
    have h3 : ¬ 25 + i < 17 := by omega
    have h4 : ¬ 25 + i < 20 := by omega
    have h5 : ¬ 25 + i < 21 := by omega
    have h6 : ¬ 25 + i < 25 := by omega
    simp [getLsbD_encodeRecord, h1, h2, h3, h4, h5, h6]
  have hch : (encodeRecord r).extractLsb' 0 8 = r.ch := by
    apply BitVec.eq_of_getLsbD_eq
    intro i hi
    simp [getLsbD_encodeRecord, hi]
  have henc : (encodeRecord r).extractLsb' 8 8 = r.enc := by
    apply BitVec.eq_of_getLsbD_eq
    intro i hi
    have h2 : 8 + i < 16 := by omega
    simp [getLsbD_encodeRecord, hi, h2]
  have htier : (encodeRecord r).extractLsb' 16 1 = r.tier.code := by
    apply BitVec.eq_of_getLsbD_eq
    intro i hi
    have h0 : i = 0 := by omega
    subst h0
    simp only [BitVec.getLsbD_extractLsb', getLsbD_encodeRecord]
    rfl
  have hmode : (encodeRecord r).extractLsb' 17 3 = r.mode.code := by
    apply BitVec.eq_of_getLsbD_eq
    intro i hi
    have h1 : ¬ 17 + i < 8 := by omega
    have h2 : ¬ 17 + i < 16 := by omega
    have h4 : 17 + i < 20 := by omega
    simp [getLsbD_encodeRecord, hi, h1, h2, h4]
  have hgran : (encodeRecord r).extractLsb' 20 1 = r.gran.code := by
    apply BitVec.eq_of_getLsbD_eq
    intro i hi
    have h0 : i = 0 := by omega
    subst h0
    simp only [BitVec.getLsbD_extractLsb', getLsbD_encodeRecord]
    rfl
  have harb : (encodeRecord r).extractLsb' 21 4 = r.arb := by
    apply BitVec.eq_of_getLsbD_eq
    intro i hi
    have h1 : ¬ 21 + i < 8 := by omega
    have h2 : ¬ 21 + i < 16 := by omega
    have h3 : ¬ 21 + i < 17 := by omega
    have h4 : ¬ 21 + i < 20 := by omega
    have h6 : 21 + i < 25 := by omega
    simp [getLsbD_encodeRecord, hi, h1, h2, h3, h4, h6]
  simp [decodeRecord, hz, hch, henc, htier, hmode, hgran, harb]

/-- R68: a word that decodes to a record is the record's word. -/
theorem encodeRecord_decodeRecord {w : Word} {r : ConfigRecord} (h : decodeRecord w = .ok r) :
    encodeRecord r = w := by
  simp only [decodeRecord] at h
  split at h
  · cases h
  · next hz =>
    simp only [ne_eq, Decidable.not_not] at hz
    cases h
    apply BitVec.eq_of_getLsbD_eq
    intro i hi
    have htop : ∀ i, 25 ≤ i → i < 32 → w.getLsbD i = false := by
      intro i h1 h2
      have := congrArg (fun b => b.getLsbD (i - 25)) hz
      have h7 : i - 25 < 7 := by omega
      have hi' : 25 + (i - 25) = i := by omega
      simpa [h7, hi'] using this
    simp only [getLsbD_encodeRecord, Granularity.code_ofCode, TransferMode.code_ofCode, Tier.code_ofCode,
      BitVec.getLsbD_extractLsb']
    split
    · next h => simp [h]
    · split
      · have h1 : i - 8 < 8 := by omega
        have h2 : 8 + (i - 8) = i := by omega
        simp [h1, h2]
      · split
        · have h2 : i = 16 := by omega
          subst h2; simp
        · split
          · have h1 : i - 17 < 3 := by omega
            have h2 : 17 + (i - 17) = i := by omega
            simp [h1, h2]
          · split
            · have h2 : i = 20 := by omega
              subst h2; simp
            · split
              · have h1 : i - 21 < 4 := by omega
                have h2 : 21 + (i - 21) = i := by omega
                simp [h1, h2]
              · exact (htop i (by omega) hi).symm

/-- A list of records decodes to itself. -/
@[simp] theorem decodeRecords_encode (rs : List ConfigRecord) :
    decodeRecords (rs.map encodeRecord) = .ok rs := by
  induction rs with
  | nil => rfl
  | cons r rs ih => simp [decodeRecords, ih]

/-- Record words that decode are the words of the records. -/
theorem encode_decodeRecords {ws : List Word} {rs : List ConfigRecord} (h : decodeRecords ws = .ok rs) :
    rs.map encodeRecord = ws := by
  induction ws generalizing rs with
  | nil => cases h; rfl
  | cons w ws ih =>
    simp only [decodeRecords] at h
    split at h
    · cases h
    · next r hr =>
      split at h
      · cases h
      · next rs' hrs =>
        cases h
        simp [encodeRecord_decodeRecord hr, ih hrs]

end Sys2Proof
end

