-- ==== Sys2Proof/Laws/Memory.lean ====
section
/-! SUPPORT. The laws of memory: a read after a write, what a write leaves alone, and that writes keep the canonical
form. -/

namespace Sys2Proof.Machine

/-- The first address of a canonical list only bounds it from below. -/
theorem canonicalFrom_mono {lo lo' : Nat} {p : PowerOn} {cs : List Host.Cell}
    (h : lo' ≤ lo) (hm : canonicalFrom p lo cs = true) :
    canonicalFrom p lo' cs = true := by
  cases cs with
  | nil => rfl
  | cons c rest =>
    obtain ⟨a, v⟩ := c
    simp only [canonicalFrom, Bool.and_eq_true, decide_eq_true_eq] at hm ⊢
    exact ⟨⟨⟨by omega, hm.1.1.2⟩, hm.1.2⟩, hm.2⟩

/-- Below its lower bound a canonical list has no entry. -/
theorem readCells_below {lo a : Nat} {p : PowerOn} {cs : List Host.Cell}
    (hm : canonicalFrom p lo cs = true) (h : a < lo) :
    readCells p cs a = unlistedByte p a := by
  induction cs generalizing lo with
  | nil => rfl
  | cons c rest ih =>
    obtain ⟨b, v⟩ := c
    simp only [canonicalFrom, Bool.and_eq_true, decide_eq_true_eq] at hm
    have hb : a ≠ b := by omega
    simp only [readCells, if_neg hb]
    exact ih hm.2 (by omega)

/-- A write leaves every other byte as it was. -/
theorem readCells_writeCells_ne {p : PowerOn} {cs : List Host.Cell} {a b : Nat} {v : Byte} (h : b ≠ a) :
    readCells p (writeCells p cs a v) b = readCells p cs b := by
  induction cs with
  | nil => by_cases hv : v = unlistedByte p a <;> simp [writeCells, readCells, hv, h]
  | cons c rest ih =>
    obtain ⟨x, u⟩ := c
    simp only [writeCells]
    split
    · split
      · rfl
      · simp [readCells, h]
    · split
      · next hx => subst hx; split <;> simp [readCells, h]
      · simp only [readCells, ih]

/-- A byte written reads back. -/
theorem readCells_writeCells_same {lo a : Nat} {p : PowerOn} {cs : List Host.Cell} {v : Byte}
    (hm : canonicalFrom p lo cs = true) :
    readCells p (writeCells p cs a v) a = v := by
  induction cs generalizing lo with
  | nil => by_cases hv : v = unlistedByte p a <;> simp [writeCells, readCells, hv]
  | cons c rest ih =>
    obtain ⟨x, u⟩ := c
    simp only [canonicalFrom, Bool.and_eq_true, decide_eq_true_eq] at hm
    simp only [writeCells]
    split
    · next hx =>
      split
      · next hv =>
        have hne : a ≠ x := by omega
        simp only [readCells, if_neg hne, hv]
        exact readCells_below hm.2 (by omega)
      · simp [readCells]
    · split
      · next hx =>
        split
        · next hv => subst hx; rw [hv]; exact readCells_below hm.2 (by omega)
        · simp [readCells]
      · next hx => simp only [readCells, if_neg hx]; exact ih hm.2

/-- A write below 2^32 keeps the canonical form. -/
theorem writeCells_canonicalFrom {lo a : Nat} {p : PowerOn} {cs : List Host.Cell} {v : Byte}
    (hm : canonicalFrom p lo cs = true) (hlo : lo ≤ a)
    (ha : a < Config.addrLimit) : canonicalFrom p lo (writeCells p cs a v) = true := by
  induction cs generalizing lo with
  | nil => by_cases hv : v = unlistedByte p a <;> simp [writeCells, canonicalFrom, hv, hlo, ha]
  | cons c rest ih =>
    obtain ⟨x, u⟩ := c
    have hm' := hm
    simp only [canonicalFrom, Bool.and_eq_true, decide_eq_true_eq] at hm
    simp only [writeCells]
    split
    · split
      · exact hm'
      · next hx hv =>
        simp only [canonicalFrom, Bool.and_eq_true, decide_eq_true_eq]
        exact ⟨⟨⟨hlo, ha⟩, hv⟩, ⟨⟨by omega, hm.1.1.2⟩, hm.1.2⟩, hm.2⟩
    · split
      · next hx =>
        split
        · exact canonicalFrom_mono (by omega) hm.2
        · next hv =>
          subst hx
          simp only [canonicalFrom, Bool.and_eq_true, decide_eq_true_eq]
          exact ⟨⟨⟨hlo, ha⟩, hv⟩, hm.2⟩
      · next h1 h2 =>
        simp only [canonicalFrom, Bool.and_eq_true, decide_eq_true_eq]
        exact ⟨hm.1, ih hm.2 (by omega)⟩

/-- Canonical lists are equal when every byte reads the same. -/
theorem canonicalFrom_ext {lo : Nat} {p : PowerOn} {cs cs' : List Host.Cell}
    (hm : canonicalFrom p lo cs = true) (hm' : canonicalFrom p lo cs' = true)
    (h : ∀ a, readCells p cs a = readCells p cs' a) : cs = cs' := by
  induction cs generalizing lo cs' with
  | nil =>
    cases cs' with
    | nil => rfl
    | cons c rest =>
      obtain ⟨b, v⟩ := c
      simp only [canonicalFrom, Bool.and_eq_true, decide_eq_true_eq] at hm'
      have := h b
      simp only [readCells, if_true] at this
      exact absurd this.symm hm'.1.2
  | cons c rest ih =>
    obtain ⟨a, v⟩ := c
    have hm0 := hm
    simp only [canonicalFrom, Bool.and_eq_true, decide_eq_true_eq] at hm
    cases cs' with
    | nil =>
      have := h a
      simp only [readCells, if_true] at this
      exact absurd this hm.1.2
    | cons c' rest' =>
      obtain ⟨b, u⟩ := c'
      have hm0' := hm'
      simp only [canonicalFrom, Bool.and_eq_true, decide_eq_true_eq] at hm'
      have hab : a = b := by
        rcases Nat.lt_trichotomy a b with hlt | heq | hgt
        · have hlow : canonicalFrom p b ((b, u) :: rest') = true := by
            simp only [canonicalFrom, Bool.and_eq_true, decide_eq_true_eq]
            exact ⟨⟨⟨Nat.le_refl b, hm'.1.1.2⟩, hm'.1.2⟩, hm'.2⟩
          have := h a
          rw [readCells_below hlow hlt] at this
          simp only [readCells, if_true] at this
          exact absurd this hm.1.2
        · exact heq
        · have hlow : canonicalFrom p a ((a, v) :: rest) = true := by
            simp only [canonicalFrom, Bool.and_eq_true, decide_eq_true_eq]
            exact ⟨⟨⟨Nat.le_refl a, hm.1.1.2⟩, hm.1.2⟩, hm.2⟩
          have := h b
          rw [readCells_below hlow hgt] at this
          simp only [readCells, if_true] at this
          exact absurd this.symm hm'.1.2
      subst hab
      have hv : v = u := by have := h a; simpa [readCells] using this
      subst hv
      have hrest : rest = rest' := by
        apply ih hm.2 hm'.2
        intro x
        by_cases hx : x = a
        · subst hx
          rw [readCells_below hm.2 (by omega), readCells_below hm'.2 (by omega)]
        · have := h x
          simpa [readCells, hx] using this
      rw [hrest]

/-! ### Memory -/

/-- A write keeps what memory held at power-on. -/
@[simp] theorem writeByte_powerOn (m : Memory) (a : Nat) (v : Byte) : (writeByte m a v).powerOn = m.powerOn := rfl

/-- A word write keeps what memory held at power-on. -/
@[simp] theorem writeWord_powerOn (m : Memory) (a : Nat) (v : Word) : (writeWord m a v).powerOn = m.powerOn := rfl

/-- A write leaves every other byte as it was. -/
@[simp] theorem readByte_writeByte_ne {m : Memory} {a b : Nat} {v : Byte} (h : b ≠ a) :
    readByte (writeByte m a v) b = readByte m b := readCells_writeCells_ne h

/-- A byte written reads back. -/
theorem readByte_writeByte_same {m : Memory} {a : Nat} {v : Byte} (hm : Memory.wf m = true) :
    readByte (writeByte m a v) a = v := readCells_writeCells_same hm

/-- `Memory.wf` is kept by a byte write. -/
theorem writeByte_wf {a : Nat} {m : Memory} {v : Byte} (hm : Memory.wf m = true) (ha : a < Config.addrLimit) :
    Memory.wf (writeByte m a v) = true :=
  writeCells_canonicalFrom hm (Nat.zero_le a) ha

/-- `Memory.wf` is kept by a word write. -/
theorem writeWord_wf {a : Nat} {m : Memory} {v : Word} (hm : Memory.wf m = true) (ha : a + 3 < Config.addrLimit) :
    Memory.wf (writeWord m a v) = true :=
  writeByte_wf (writeByte_wf (writeByte_wf (writeByte_wf hm (by omega)) (by omega)) (by omega)) (by omega)

/-- A word write leaves every byte outside its four as it was. -/
theorem readByte_writeWord_outside {m : Memory} {a b : Nat} {v : Word} (h : b < a ∨ a + 4 ≤ b) :
    readByte (writeWord m a v) b = readByte m b := by
  simp only [writeWord]
  rw [readByte_writeByte_ne (by omega), readByte_writeByte_ne (by omega), readByte_writeByte_ne (by omega),
    readByte_writeByte_ne (by omega)]

/-- The four bytes of a word, put together again. -/
theorem bytes_of_word (v : Word) :
    (v.extractLsb' 24 8 ++ v.extractLsb' 16 8 ++ v.extractLsb' 8 8 ++ v.extractLsb' 0 8 : BitVec 32) = v := by
  apply BitVec.eq_of_getLsbD_eq
  intro i hi
  simp only [BitVec.getLsbD_append, BitVec.getLsbD_extractLsb']
  by_cases h8 : i < 8
  · simp [h8]
  · by_cases h16 : i - 8 < 8
    · have : 8 + (i - 8) = i := by omega
      simp [h8, h16, this]
    · by_cases h24 : i - 8 - 8 < 8
      · have : 16 + (i - 8 - 8) = i := by omega
        simp [h8, h16, h24, this]
      · have h32 : i - 8 - 8 - 8 < 8 := by omega
        have : 24 + (i - 8 - 8 - 8) = i := by omega
        simp [h8, h16, h24, h32, this]

/-- A word written reads back. -/
theorem readWord_writeWord_same {m : Memory} {a : Nat} {v : Word} (hm : Memory.wf m = true)
    (ha : a + 3 < Config.addrLimit) : readWord (writeWord m a v) a = v := by
  have h0 : Memory.wf (writeByte m a (v.extractLsb' 0 8)) = true := writeByte_wf hm (by omega)
  have h1 : Memory.wf (writeByte (writeByte m a (v.extractLsb' 0 8)) (a + 1) (v.extractLsb' 8 8)) = true :=
    writeByte_wf h0 (by omega)
  have h2 := writeByte_wf (a := a + 2) (v := v.extractLsb' 16 8) h1 (by omega)
  have e3 : readByte (writeWord m a v) (a + 3) = v.extractLsb' 24 8 := readByte_writeByte_same h2
  have e2 : readByte (writeWord m a v) (a + 2) = v.extractLsb' 16 8 := by
    rw [writeWord, readByte_writeByte_ne (by omega)]; exact readByte_writeByte_same h1
  have e1 : readByte (writeWord m a v) (a + 1) = v.extractLsb' 8 8 := by
    rw [writeWord, readByte_writeByte_ne (by omega), readByte_writeByte_ne (by omega)]
    exact readByte_writeByte_same h0
  have e0 : readByte (writeWord m a v) a = v.extractLsb' 0 8 := by
    rw [writeWord, readByte_writeByte_ne (by omega), readByte_writeByte_ne (by omega),
      readByte_writeByte_ne (by omega)]
    exact readByte_writeByte_same hm
  rw [readWord, e3, e2, e1, e0]
  exact bytes_of_word v

/-- A word is read from its four bytes alone. -/
theorem readWord_congr {m m' : Memory} {a : Nat} (h : ∀ b, a ≤ b → b < a + 4 → readByte m' b = readByte m b) :
    readWord m' a = readWord m a := by
  simp only [readWord]
  rw [h a (by omega) (by omega), h (a + 1) (by omega) (by omega), h (a + 2) (by omega) (by omega),
    h (a + 3) (by omega) (by omega)]

/-- A word write leaves every word that shares no byte with it as it was. -/
theorem readWord_writeWord_disjoint {m : Memory} {a b : Nat} {v : Word} (h : b + 4 ≤ a ∨ a + 4 ≤ b) :
    readWord (writeWord m a v) b = readWord m b :=
  readWord_congr fun x _ _ => readByte_writeWord_outside (by omega)

/-- Canonical memories of one power-on content are equal when every byte reads the same. -/
theorem canonical_ext {m m' : Memory} (hp : m.powerOn = m'.powerOn) (hm : Memory.wf m = true)
    (hm' : Memory.wf m' = true) (h : ∀ a, readByte m a = readByte m' a) : m = m' := by
  obtain ⟨p, cs⟩ := m
  obtain ⟨p', cs'⟩ := m'
  simp only at hp
  subst hp
  exact congrArg (Memory.mk p) (canonicalFrom_ext hm hm' h)

end Sys2Proof.Machine
end

