-- ==== Sys2Proof/Laws/State.lean ====
section
/-! SUPPORT. One lemma for each field of the state under each update: what a later proof needs of an update without
unfolding it. -/

namespace Sys2Proof.Machine

@[simp] theorem emit_csr (e : Event) (s : State) : (emit e s).csr = s.csr := rfl
@[simp] theorem emit_cfg (e : Event) (s : State) : (emit e s).cfg = s.cfg := rfl
@[simp] theorem emit_sys (e : Event) (s : State) : (emit e s).sys = s.sys := rfl
@[simp] theorem emit_flt (e : Event) (s : State) : (emit e s).flt = s.flt := rfl
@[simp] theorem emit_seq (e : Event) (s : State) : (emit e s).seq = s.seq := rfl
@[simp] theorem emit_hist (e : Event) (s : State) : (emit e s).hist = (s.hist ++ [e]) := rfl
@[simp] theorem emit_mem (e : Event) (s : State) : (emit e s).mem = s.mem := rfl
@[simp] theorem emit_port (e : Event) (s : State) : (emit e s).port = s.port := rfl
@[simp] theorem emit_par (e : Event) (s : State) : (emit e s).par = s.par := rfl
@[simp] theorem emit_draws (e : Event) (s : State) : (emit e s).draws = s.draws := rfl

@[simp] theorem emitAll_csr (es : List Event) (s : State) : (emitAll es s).csr = s.csr := rfl
@[simp] theorem emitAll_cfg (es : List Event) (s : State) : (emitAll es s).cfg = s.cfg := rfl
@[simp] theorem emitAll_sys (es : List Event) (s : State) : (emitAll es s).sys = s.sys := rfl
@[simp] theorem emitAll_flt (es : List Event) (s : State) : (emitAll es s).flt = s.flt := rfl
@[simp] theorem emitAll_seq (es : List Event) (s : State) : (emitAll es s).seq = s.seq := rfl
@[simp] theorem emitAll_hist (es : List Event) (s : State) : (emitAll es s).hist = (s.hist ++ es) := rfl
@[simp] theorem emitAll_mem (es : List Event) (s : State) : (emitAll es s).mem = s.mem := rfl
@[simp] theorem emitAll_port (es : List Event) (s : State) : (emitAll es s).port = s.port := rfl
@[simp] theorem emitAll_par (es : List Event) (s : State) : (emitAll es s).par = s.par := rfl
@[simp] theorem emitAll_draws (es : List Event) (s : State) : (emitAll es s).draws = s.draws := rfl

@[simp] theorem respond_csr (v : Word) (s : State) : (respond v s).csr = s.csr := rfl
@[simp] theorem respond_cfg (v : Word) (s : State) : (respond v s).cfg = s.cfg := rfl
@[simp] theorem respond_sys (v : Word) (s : State) : (respond v s).sys = s.sys := rfl
@[simp] theorem respond_flt (v : Word) (s : State) : (respond v s).flt = s.flt := rfl
@[simp] theorem respond_seq (v : Word) (s : State) : (respond v s).seq = (s.seq + 1) := rfl
@[simp] theorem respond_hist (v : Word) (s : State) : (respond v s).hist = (s.hist ++ [.resp s.seq statusOk v]) := rfl
@[simp] theorem respond_mem (v : Word) (s : State) : (respond v s).mem = s.mem := rfl
@[simp] theorem respond_port (v : Word) (s : State) : (respond v s).port = s.port := rfl
@[simp] theorem respond_par (v : Word) (s : State) : (respond v s).par = s.par := rfl
@[simp] theorem respond_draws (v : Word) (s : State) : (respond v s).draws = s.draws := rfl

@[simp] theorem refuse_csr (s : State) : (refuse s).csr = s.csr := rfl
@[simp] theorem refuse_cfg (s : State) : (refuse s).cfg = s.cfg := rfl
@[simp] theorem refuse_sys (s : State) : (refuse s).sys = s.sys := rfl
@[simp] theorem refuse_flt (s : State) : (refuse s).flt = s.flt := rfl
@[simp] theorem refuse_seq (s : State) : (refuse s).seq = s.seq := rfl
@[simp] theorem refuse_hist (s : State) : (refuse s).hist = (s.hist ++ [.resp s.seq statusRefused 0]) := rfl
@[simp] theorem refuse_mem (s : State) : (refuse s).mem = s.mem := rfl
@[simp] theorem refuse_port (s : State) : (refuse s).port = s.port := rfl
@[simp] theorem refuse_par (s : State) : (refuse s).par = s.par := rfl
@[simp] theorem refuse_draws (s : State) : (refuse s).draws = s.draws := rfl

@[simp] theorem raiseFault_csr (f : FaultName) (info op : Word) (s : State) : (raiseFault f info op s).csr = s.csr := rfl
@[simp] theorem raiseFault_cfg (f : FaultName) (info op : Word) (s : State) : (raiseFault f info op s).cfg = s.cfg := rfl
@[simp] theorem raiseFault_sys (f : FaultName) (info op : Word) (s : State) : (raiseFault f info op s).sys = s.sys := rfl
@[simp] theorem raiseFault_flt (f : FaultName) (info op : Word) (s : State) : (raiseFault f info op s).flt = { code := f.code, info := info, op := op } := rfl
@[simp] theorem raiseFault_seq (f : FaultName) (info op : Word) (s : State) : (raiseFault f info op s).seq = s.seq := rfl
@[simp] theorem raiseFault_hist (f : FaultName) (info op : Word) (s : State) : (raiseFault f info op s).hist = (s.hist ++ [.resp s.seq f.code info]) := rfl
@[simp] theorem raiseFault_mem (f : FaultName) (info op : Word) (s : State) : (raiseFault f info op s).mem = s.mem := rfl
@[simp] theorem raiseFault_port (f : FaultName) (info op : Word) (s : State) : (raiseFault f info op s).port = s.port := rfl
@[simp] theorem raiseFault_par (f : FaultName) (info op : Word) (s : State) : (raiseFault f info op s).par = s.par := rfl
@[simp] theorem raiseFault_draws (f : FaultName) (info op : Word) (s : State) : (raiseFault f info op s).draws = s.draws := rfl

@[simp] theorem setmapBody_csr (ch enc : BitVec 8) (s : State) : (setmapBody ch enc s).csr = (orMapping s.csr ch enc) := rfl
@[simp] theorem setmapBody_cfg (ch enc : BitVec 8) (s : State) : (setmapBody ch enc s).cfg = s.cfg := rfl
@[simp] theorem setmapBody_sys (ch enc : BitVec 8) (s : State) : (setmapBody ch enc s).sys = s.sys := rfl
@[simp] theorem setmapBody_flt (ch enc : BitVec 8) (s : State) : (setmapBody ch enc s).flt = s.flt := rfl
@[simp] theorem setmapBody_seq (ch enc : BitVec 8) (s : State) : (setmapBody ch enc s).seq = s.seq := rfl
@[simp] theorem setmapBody_hist (ch enc : BitVec 8) (s : State) : (setmapBody ch enc s).hist = s.hist := rfl
@[simp] theorem setmapBody_mem (ch enc : BitVec 8) (s : State) : (setmapBody ch enc s).mem = s.mem := rfl
@[simp] theorem setmapBody_port (ch enc : BitVec 8) (s : State) : (setmapBody ch enc s).port = s.port := rfl
@[simp] theorem setmapBody_par (ch enc : BitVec 8) (s : State) : (setmapBody ch enc s).par = s.par := rfl
@[simp] theorem setmapBody_draws (ch enc : BitVec 8) (s : State) : (setmapBody ch enc s).draws = s.draws := rfl

@[simp] theorem setprioBody_csr (ch : BitVec 8) (t : Tier) (s : State) : (setprioBody ch t s).csr = { s.csr with prio := putBit s.csr.prio ch (t == .high) } := rfl
@[simp] theorem setprioBody_cfg (ch : BitVec 8) (t : Tier) (s : State) : (setprioBody ch t s).cfg = s.cfg := rfl
@[simp] theorem setprioBody_sys (ch : BitVec 8) (t : Tier) (s : State) : (setprioBody ch t s).sys = s.sys := rfl
@[simp] theorem setprioBody_flt (ch : BitVec 8) (t : Tier) (s : State) : (setprioBody ch t s).flt = s.flt := rfl
@[simp] theorem setprioBody_seq (ch : BitVec 8) (t : Tier) (s : State) : (setprioBody ch t s).seq = s.seq := rfl
@[simp] theorem setprioBody_hist (ch : BitVec 8) (t : Tier) (s : State) : (setprioBody ch t s).hist = s.hist := rfl
@[simp] theorem setprioBody_mem (ch : BitVec 8) (t : Tier) (s : State) : (setprioBody ch t s).mem = s.mem := rfl
@[simp] theorem setprioBody_port (ch : BitVec 8) (t : Tier) (s : State) : (setprioBody ch t s).port = s.port := rfl
@[simp] theorem setprioBody_par (ch : BitVec 8) (t : Tier) (s : State) : (setprioBody ch t s).par = s.par := rfl
@[simp] theorem setprioBody_draws (ch : BitVec 8) (t : Tier) (s : State) : (setprioBody ch t s).draws = s.draws := rfl

@[simp] theorem setgranBody_csr (ch : BitVec 8) (g : Granularity) (s : State) : (setgranBody ch g s).csr = { s.csr with useburst := putBit s.csr.useburst ch (g == .burst) } := rfl
@[simp] theorem setgranBody_cfg (ch : BitVec 8) (g : Granularity) (s : State) : (setgranBody ch g s).cfg = s.cfg := rfl
@[simp] theorem setgranBody_sys (ch : BitVec 8) (g : Granularity) (s : State) : (setgranBody ch g s).sys = s.sys := rfl
@[simp] theorem setgranBody_flt (ch : BitVec 8) (g : Granularity) (s : State) : (setgranBody ch g s).flt = s.flt := rfl
@[simp] theorem setgranBody_seq (ch : BitVec 8) (g : Granularity) (s : State) : (setgranBody ch g s).seq = s.seq := rfl
@[simp] theorem setgranBody_hist (ch : BitVec 8) (g : Granularity) (s : State) : (setgranBody ch g s).hist = s.hist := rfl
@[simp] theorem setgranBody_mem (ch : BitVec 8) (g : Granularity) (s : State) : (setgranBody ch g s).mem = s.mem := rfl
@[simp] theorem setgranBody_port (ch : BitVec 8) (g : Granularity) (s : State) : (setgranBody ch g s).port = s.port := rfl
@[simp] theorem setgranBody_par (ch : BitVec 8) (g : Granularity) (s : State) : (setgranBody ch g s).par = s.par := rfl
@[simp] theorem setgranBody_draws (ch : BitVec 8) (g : Granularity) (s : State) : (setgranBody ch g s).draws = s.draws := rfl

@[simp] theorem unmaskBody_csr (ch : BitVec 8) (s : State) : (unmaskBody ch s).csr = { s.csr with reqmask := clrPort s.csr.reqmask (chBit ch) } := rfl
@[simp] theorem unmaskBody_cfg (ch : BitVec 8) (s : State) : (unmaskBody ch s).cfg = s.cfg := rfl
@[simp] theorem unmaskBody_sys (ch : BitVec 8) (s : State) : (unmaskBody ch s).sys = s.sys := rfl
@[simp] theorem unmaskBody_flt (ch : BitVec 8) (s : State) : (unmaskBody ch s).flt = s.flt := rfl
@[simp] theorem unmaskBody_seq (ch : BitVec 8) (s : State) : (unmaskBody ch s).seq = s.seq := rfl
@[simp] theorem unmaskBody_hist (ch : BitVec 8) (s : State) : (unmaskBody ch s).hist = s.hist := rfl
@[simp] theorem unmaskBody_mem (ch : BitVec 8) (s : State) : (unmaskBody ch s).mem = s.mem := rfl
@[simp] theorem unmaskBody_port (ch : BitVec 8) (s : State) : (unmaskBody ch s).port = s.port := rfl
@[simp] theorem unmaskBody_par (ch : BitVec 8) (s : State) : (unmaskBody ch s).par = s.par := rfl
@[simp] theorem unmaskBody_draws (ch : BitVec 8) (s : State) : (unmaskBody ch s).draws = s.draws := rfl

@[simp] theorem armBody_csr (ch : BitVec 8) (s : State) : (armBody ch s).csr = { s.csr with ena := setPort s.csr.ena (chBit ch) } := rfl
@[simp] theorem armBody_cfg (ch : BitVec 8) (s : State) : (armBody ch s).cfg = s.cfg := rfl
@[simp] theorem armBody_sys (ch : BitVec 8) (s : State) : (armBody ch s).sys = s.sys := rfl
@[simp] theorem armBody_flt (ch : BitVec 8) (s : State) : (armBody ch s).flt = s.flt := rfl
@[simp] theorem armBody_seq (ch : BitVec 8) (s : State) : (armBody ch s).seq = s.seq := rfl
@[simp] theorem armBody_hist (ch : BitVec 8) (s : State) : (armBody ch s).hist = s.hist := rfl
@[simp] theorem armBody_mem (ch : BitVec 8) (s : State) : (armBody ch s).mem = s.mem := rfl
@[simp] theorem armBody_port (ch : BitVec 8) (s : State) : (armBody ch s).port = s.port := rfl
@[simp] theorem armBody_par (ch : BitVec 8) (s : State) : (armBody ch s).par = s.par := rfl
@[simp] theorem armBody_draws (ch : BitVec 8) (s : State) : (armBody ch s).draws = s.draws := rfl

@[simp] theorem resetInput_csr (s : State) : (resetInput s).csr = (Csr.reset) := rfl
@[simp] theorem resetInput_cfg (s : State) : (resetInput s).cfg = { list := [], valid := false } := rfl
@[simp] theorem resetInput_sys (s : State) : (resetInput s).sys = { clkEn := false, pwrOk := false } := rfl
@[simp] theorem resetInput_flt (s : State) : (resetInput s).flt = { code := 0, info := 0, op := 0 } := rfl
@[simp] theorem resetInput_seq (s : State) : (resetInput s).seq = (0) := rfl
@[simp] theorem resetInput_hist (s : State) : (resetInput s).hist = ([]) := rfl
@[simp] theorem resetInput_mem (s : State) : (resetInput s).mem = s.mem := rfl
@[simp] theorem resetInput_port (s : State) : (resetInput s).port = s.port := rfl
@[simp] theorem resetInput_par (s : State) : (resetInput s).par = s.par := rfl
@[simp] theorem resetInput_draws (s : State) : (resetInput s).draws = s.draws := rfl

@[simp] theorem completed_csr (i : Instr) (v : Word) (evs : List Event) (s : State) : (completed i v evs s).csr = s.csr := rfl
@[simp] theorem completed_cfg (i : Instr) (v : Word) (evs : List Event) (s : State) : (completed i v evs s).cfg = s.cfg := rfl
@[simp] theorem completed_sys (i : Instr) (v : Word) (evs : List Event) (s : State) : (completed i v evs s).sys = s.sys := rfl
@[simp] theorem completed_flt (i : Instr) (v : Word) (evs : List Event) (s : State) : (completed i v evs s).flt = s.flt := rfl
@[simp] theorem completed_seq (i : Instr) (v : Word) (evs : List Event) (s : State) : (completed i v evs s).seq = s.seq + 1 := rfl
@[simp] theorem completed_hist (i : Instr) (v : Word) (evs : List Event) (s : State) : (completed i v evs s).hist = historyAfter (packetOf i) evs 0x00#8 v s := rfl
@[simp] theorem completed_mem (i : Instr) (v : Word) (evs : List Event) (s : State) : (completed i v evs s).mem = s.mem := rfl
@[simp] theorem completed_port (i : Instr) (v : Word) (evs : List Event) (s : State) : (completed i v evs s).port = s.port := rfl
@[simp] theorem completed_par (i : Instr) (v : Word) (evs : List Event) (s : State) : (completed i v evs s).par = s.par := rfl
@[simp] theorem completed_draws (i : Instr) (v : Word) (evs : List Event) (s : State) : (completed i v evs s).draws = s.draws := rfl

@[simp] theorem trappedPacket_csr (p : Packet) (c : Byte) (info : Word) (evs : List Event) (s : State) : (trappedPacket p c info evs s).csr = s.csr := rfl
@[simp] theorem trappedPacket_cfg (p : Packet) (c : Byte) (info : Word) (evs : List Event) (s : State) : (trappedPacket p c info evs s).cfg = s.cfg := rfl
@[simp] theorem trappedPacket_sys (p : Packet) (c : Byte) (info : Word) (evs : List Event) (s : State) : (trappedPacket p c info evs s).sys = s.sys := rfl
@[simp] theorem trappedPacket_flt (p : Packet) (c : Byte) (info : Word) (evs : List Event) (s : State) : (trappedPacket p c info evs s).flt = { code := c, info := info, op := p.op } := rfl
@[simp] theorem trappedPacket_seq (p : Packet) (c : Byte) (info : Word) (evs : List Event) (s : State) : (trappedPacket p c info evs s).seq = s.seq := rfl
@[simp] theorem trappedPacket_hist (p : Packet) (c : Byte) (info : Word) (evs : List Event) (s : State) : (trappedPacket p c info evs s).hist = historyAfter p evs c info s := rfl
@[simp] theorem trappedPacket_mem (p : Packet) (c : Byte) (info : Word) (evs : List Event) (s : State) : (trappedPacket p c info evs s).mem = s.mem := rfl
@[simp] theorem trappedPacket_port (p : Packet) (c : Byte) (info : Word) (evs : List Event) (s : State) : (trappedPacket p c info evs s).port = s.port := rfl
@[simp] theorem trappedPacket_par (p : Packet) (c : Byte) (info : Word) (evs : List Event) (s : State) : (trappedPacket p c info evs s).par = s.par := rfl
@[simp] theorem trappedPacket_draws (p : Packet) (c : Byte) (info : Word) (evs : List Event) (s : State) : (trappedPacket p c info evs s).draws = s.draws := rfl

@[simp] theorem trapped_csr (i : Instr) (c : Byte) (info : Word) (evs : List Event) (s : State) : (trapped i c info evs s).csr = s.csr := rfl
@[simp] theorem trapped_cfg (i : Instr) (c : Byte) (info : Word) (evs : List Event) (s : State) : (trapped i c info evs s).cfg = s.cfg := rfl
@[simp] theorem trapped_sys (i : Instr) (c : Byte) (info : Word) (evs : List Event) (s : State) : (trapped i c info evs s).sys = s.sys := rfl
@[simp] theorem trapped_flt (i : Instr) (c : Byte) (info : Word) (evs : List Event) (s : State) : (trapped i c info evs s).flt = { code := c, info := info, op := (packetOf i).op } := rfl
@[simp] theorem trapped_seq (i : Instr) (c : Byte) (info : Word) (evs : List Event) (s : State) : (trapped i c info evs s).seq = s.seq := rfl
@[simp] theorem trapped_hist (i : Instr) (c : Byte) (info : Word) (evs : List Event) (s : State) : (trapped i c info evs s).hist = historyAfter (packetOf i) evs c info s := rfl
@[simp] theorem trapped_mem (i : Instr) (c : Byte) (info : Word) (evs : List Event) (s : State) : (trapped i c info evs s).mem = s.mem := rfl
@[simp] theorem trapped_port (i : Instr) (c : Byte) (info : Word) (evs : List Event) (s : State) : (trapped i c info evs s).port = s.port := rfl
@[simp] theorem trapped_par (i : Instr) (c : Byte) (info : Word) (evs : List Event) (s : State) : (trapped i c info evs s).par = s.par := rfl
@[simp] theorem trapped_draws (i : Instr) (c : Byte) (info : Word) (evs : List Event) (s : State) : (trapped i c info evs s).draws = s.draws := rfl

@[simp] theorem refusedPacket_csr (p : Packet) (s : State) : (refusedPacket p s).csr = s.csr := rfl
@[simp] theorem refusedPacket_cfg (p : Packet) (s : State) : (refusedPacket p s).cfg = s.cfg := rfl
@[simp] theorem refusedPacket_sys (p : Packet) (s : State) : (refusedPacket p s).sys = s.sys := rfl
@[simp] theorem refusedPacket_flt (p : Packet) (s : State) : (refusedPacket p s).flt = s.flt := rfl
@[simp] theorem refusedPacket_seq (p : Packet) (s : State) : (refusedPacket p s).seq = s.seq := rfl
@[simp] theorem refusedPacket_hist (p : Packet) (s : State) : (refusedPacket p s).hist = historyAfter p [] 0xff#8 0#32 s := rfl
@[simp] theorem refusedPacket_mem (p : Packet) (s : State) : (refusedPacket p s).mem = s.mem := rfl
@[simp] theorem refusedPacket_port (p : Packet) (s : State) : (refusedPacket p s).port = s.port := rfl
@[simp] theorem refusedPacket_par (p : Packet) (s : State) : (refusedPacket p s).par = s.par := rfl
@[simp] theorem refusedPacket_draws (p : Packet) (s : State) : (refusedPacket p s).draws = s.draws := rfl

/-! The clock bit, the settle delay, the power bit (R84). -/

@[simp] theorem clkonBody_csr (s : State) : (clkonBody s).csr = s.csr := by
  simp only [clkonBody]; split <;> rfl
@[simp] theorem clkonBody_cfg (s : State) : (clkonBody s).cfg = s.cfg := by
  simp only [clkonBody]; split <;> rfl
@[simp] theorem clkonBody_sys (s : State) : (clkonBody s).sys = { clkEn := true, pwrOk := true } := by
  simp only [clkonBody]; split
  · next h => simp [h]
  · rfl
@[simp] theorem clkonBody_flt (s : State) : (clkonBody s).flt = s.flt := by
  simp only [clkonBody]; split <;> rfl
@[simp] theorem clkonBody_seq (s : State) : (clkonBody s).seq = s.seq := by
  simp only [clkonBody]; split <;> rfl
@[simp] theorem clkonBody_hist (s : State) :
    (clkonBody s).hist = s.hist ++ (if s.sys.clkEn then [.settle] else [.clkSet, .settle]) := by
  simp only [clkonBody]; split <;> simp
@[simp] theorem clkonBody_mem (s : State) : (clkonBody s).mem = s.mem := by
  simp only [clkonBody]; split <;> rfl
@[simp] theorem clkonBody_port (s : State) : (clkonBody s).port = s.port := by
  simp only [clkonBody]; split <;> rfl
@[simp] theorem clkonBody_par (s : State) : (clkonBody s).par = s.par := by
  simp only [clkonBody]; split <;> rfl
@[simp] theorem clkonBody_draws (s : State) : (clkonBody s).draws = s.draws := by
  simp only [clkonBody]; split <;> rfl

/-! The mapping registers (R34): which registers a mapping write leaves alone. -/

@[simp] theorem orMapping_masten (c : Csr) (ch enc : BitVec 8) : (orMapping c ch enc).masten = c.masten := by
  simp only [orMapping, withChmap]; split <;> rfl

/-- A mapping write changes the four mapping registers at most. -/
theorem orMapping_eq (c : Csr) (ch enc : BitVec 8) :
    orMapping c ch enc =
      { c with
        chmap0 := (orMapping c ch enc).chmap0, chmap1 := (orMapping c ch enc).chmap1
        chmap2 := (orMapping c ch enc).chmap2, chmap3 := (orMapping c ch enc).chmap3 } := by
  simp only [orMapping, withChmap]; split <;> rfl

@[simp] theorem orMapping_ctlbase (c : Csr) (ch enc : BitVec 8) : (orMapping c ch enc).ctlbase = c.ctlbase := by
  simp only [orMapping, withChmap]; split <;> rfl

@[simp] theorem orMapping_ctlbaseWritten (c : Csr) (ch enc : BitVec 8) : (orMapping c ch enc).ctlbaseWritten = c.ctlbaseWritten := by
  simp only [orMapping, withChmap]; split <;> rfl

@[simp] theorem orMapping_useburst (c : Csr) (ch enc : BitVec 8) : (orMapping c ch enc).useburst = c.useburst := by
  simp only [orMapping, withChmap]; split <;> rfl

@[simp] theorem orMapping_reqmask (c : Csr) (ch enc : BitVec 8) : (orMapping c ch enc).reqmask = c.reqmask := by
  simp only [orMapping, withChmap]; split <;> rfl

@[simp] theorem orMapping_ena (c : Csr) (ch enc : BitVec 8) : (orMapping c ch enc).ena = c.ena := by
  simp only [orMapping, withChmap]; split <;> rfl

@[simp] theorem orMapping_altsel (c : Csr) (ch enc : BitVec 8) : (orMapping c ch enc).altsel = c.altsel := by
  simp only [orMapping, withChmap]; split <;> rfl

@[simp] theorem orMapping_prio (c : Csr) (ch enc : BitVec 8) : (orMapping c ch enc).prio = c.prio := by
  simp only [orMapping, withChmap]; split <;> rfl

@[simp] theorem orMapping_err (c : Csr) (ch enc : BitVec 8) : (orMapping c ch enc).err = c.err := by
  simp only [orMapping, withChmap]; split <;> rfl

@[simp] theorem orMapping_chasgn (c : Csr) (ch enc : BitVec 8) : (orMapping c ch enc).chasgn = c.chasgn := by
  simp only [orMapping, withChmap]; split <;> rfl

end Sys2Proof.Machine
end

