-- ==== Sys2Proof/Laws/Ops.lean ====
section
/-! SUPPORT. One specification lemma for each shared operation of Machine/Ops.lean: what it answers and when. -/

namespace Sys2Proof.Machine

/-! ### Pieces of a request -/

@[simp] theorem bind_done {α β : Type} (a : α) (s : State) (k : α → State → Result β) :
    (Result.done a s).bind k = k a s := rfl
@[simp] theorem bind_raised {α β : Type} (f : FaultName) (info : Word) (s : State) (k : α → State → Result β) :
    (Result.raised f info s : Result α).bind k = .raised f info s := rfl
@[simp] theorem bind_stopped {α β : Type} (f : Fault) (k : α → State → Result β) :
    (Result.stopped f : Result α).bind k = .stopped f := rfl

theorem bind_assoc {α β γ : Type} (r : Result α) (k : α → State → Result β) (l : β → State → Result γ) :
    (r.bind k).bind l = r.bind fun a s => (k a s).bind l := by
  cases r <;> rfl

/-- What a piece that went through consists of. -/
theorem bind_eq_done {α β : Type} {r : Result α} {k : α → State → Result β} {b : β} {t : State}
    (h : r.bind k = .done b t) : ∃ a s, r = .done a s ∧ k a s = .done b t := by
  cases r with
  | done a s => exact ⟨a, s, rfl, h⟩
  | raised f info s => simp at h
  | stopped f => simp at h

/-! ### The frame of a request -/

/-- R129: a faulted block refuses. -/
theorem request_refused {p : Packet} {body : Word → State → Result Word} {s : State} (h : s.flt.code ≠ 0#8) :
    request p body s = .next (refusedPacket p s) := by
  simp [request, State.faulted, h, refuse, emit, refusedPacket, historyAfter, statusRefused]

/-- A body that goes through. -/
theorem request_done {p : Packet} {body : Word → State → Result Word} {s t : State} {v : Word}
    (h : s.flt.code = 0#8) (hb : body p.op (emit (.req s.seq p.op p.args) s) = .done v t) :
    request p body s = .next (respond v t) := by
  simp [request, State.faulted, h, hb]

/-- A body that raises. -/
theorem request_raised {p : Packet} {body : Word → State → Result Word} {s t : State} {f : FaultName} {info : Word}
    (h : s.flt.code = 0#8) (hb : body p.op (emit (.req s.seq p.op p.args) s) = .raised f info t) :
    request p body s = .next (raiseFault f info p.op t) := by
  simp [request, State.faulted, h, hb]

/-- A body that stops the model. -/
theorem request_stopped {p : Packet} {body : Word → State → Result Word} {s : State} {f : Fault}
    (h : s.flt.code = 0#8) (hb : body p.op (emit (.req s.seq p.op p.args) s) = .stopped f) :
    request p body s = .fault f := by
  simp [request, State.faulted, h, hb]

/-- Everything a request that answers a next state can have done. -/
theorem request_cases {p : Packet} {body : Word → State → Result Word} {s t : State}
    (h : request p body s = .next t) :
    (s.flt.code ≠ 0#8 ∧ t = refusedPacket p s) ∨
    (s.flt.code = 0#8 ∧ ∃ v u, body p.op (emit (.req s.seq p.op p.args) s) = .done v u ∧ t = respond v u) ∨
    (s.flt.code = 0#8 ∧ ∃ f info u, body p.op (emit (.req s.seq p.op p.args) s) = .raised f info u ∧
      t = raiseFault f info p.op u) := by
  by_cases hf : s.flt.code = 0#8
  · right
    match hb : body p.op (emit (.req s.seq p.op p.args) s) with
    | .done v u =>
      rw [request_done hf hb] at h
      exact .inl ⟨hf, v, u, rfl, by simpa using h.symm⟩
    | .raised f info u =>
      rw [request_raised hf hb] at h
      exact .inr ⟨hf, f, info, u, rfl, by simpa using h.symm⟩
    | .stopped f =>
      rw [request_stopped hf hb] at h
      cases h
  · rw [request_refused hf] at h
    exact .inl ⟨hf, by simpa using h.symm⟩

/-! ### The shared checks -/

section Checks
variable {α : Type} {ch : BitVec 8} {op : Word} {s : State} {k : State → Result α} {z : ItemSize}

theorem inRange_pass (h : ch.toNat < 32) : inRange ch s k = k s := by
  simp [inRange, Config.nch, Nat.not_le.mpr h]
theorem inRange_raise (h : 32 ≤ ch.toNat) : inRange ch s k = .raised .channelRange (ch.setWidth 32) s := by
  simp [inRange, Config.nch, h]
theorem inMapRange_pass (h : ch.toNat < 16) : inMapRange ch s k = k s := by
  simp [inMapRange, Config.nmapch, Nat.not_le.mpr h]
theorem inMapRange_raise (h : 16 ≤ ch.toNat) : inMapRange ch s k = .raised .mapRange (ch.setWidth 32) s := by
  simp [inMapRange, Config.nmapch, h]
theorem sizeLegal_pass (h : z ≠ .reserved) : sizeLegal z s k = k s := by simp [sizeLegal, h]
theorem sizeLegal_raise : sizeLegal .reserved s k = .raised .badOperand 3#32 s := by
  simp [sizeLegal, ItemSize.code]
theorem clocked_pass (h : s.sys.clkEn = true) : clocked op s k = k s := by simp [clocked, h]
theorem clocked_raise (h : s.sys.clkEn = false) : clocked op s k = .raised .clockGated op s := by simp [clocked, h]
theorem tabled_pass (h : s.csr.ctlbaseWritten = true) : tabled op s k = k s := by simp [tabled, h]
theorem tabled_raise (h : s.csr.ctlbaseWritten = false) : tabled op s k = .raised .noTable op s := by
  simp [tabled, h]
end Checks

/-! ### Table accesses -/

/-- R47: an entry address, from an aligned base, is a multiple of 4 and its word lies in the table and below 2^32. -/
theorem entryAddr_bounds {base : Word} {ch : BitVec 8} (h : Half) (w : EntryWord) (hb : base.toNat % 1024 = 0)
    (hc : ch.toNat < 32) :
    entryAddr base ch h w % 4 = 0 ∧ base.toNat ≤ entryAddr base ch h w ∧
      entryAddr base ch h w + 4 ≤ base.toNat + 1024 ∧ entryAddr base ch h w + 4 ≤ 2 ^ 32 := by
  have := base.isLt
  cases h <;> cases w <;>
    simp [entryAddr, Half.code, EntryWord.code, Config.halfBytes, Config.entryBytes] <;> omega

/-- R46, R47: two entry words share no byte unless they are the same word. -/
theorem entryAddr_disjoint {base : Word} {ch ch' : BitVec 8} {h h' : Half} {w w' : EntryWord} (hc : ch.toNat < 32)
    (hc' : ch'.toNat < 32) (hne : (ch, h, w) ≠ (ch', h', w')) :
    entryAddr base ch h w + 4 ≤ entryAddr base ch' h' w' ∨ entryAddr base ch' h' w' + 4 ≤ entryAddr base ch h w := by
  have hch : ch = ch' ↔ ch.toNat = ch'.toNat := BitVec.toNat_inj.symm
  cases h <;> cases h' <;> cases w <;> cases w' <;>
    simp [entryAddr, Half.code, EntryWord.code, Config.halfBytes, Config.entryBytes, hch] at * <;> omega

theorem addr_below {a : Nat} (h : a < 2 ^ 32) : ¬ Config.addrLimit ≤ a := by simp only [Config.addrLimit]; omega

/-- An aligned, accepted read answers the word and leaves its event. -/
theorem memRead_done {a : Nat} {s : State} (h4 : a % 4 = 0) (hl : a < 2 ^ 32) (hok : memOk s a = true) :
    memRead a s = .done (readWord s.mem a) (emit (.memR a (readWord s.mem a)) s) := by
  simp [memRead, access, h4, addr_below hl, hok]

/-- A refused read raises MemFault. -/
theorem memRead_raised {a : Nat} {s : State} (h4 : a % 4 = 0) (hl : a < 2 ^ 32) (hok : memOk s a = false) :
    memRead a s = .raised .memFault (BitVec.ofNat 32 a) s := by
  simp [memRead, access, h4, addr_below hl, hok]

/-- An aligned, accepted write stores the word and leaves its event. -/
theorem memWrite_done {a : Nat} {v : Word} {s : State} (h4 : a % 4 = 0) (hl : a < 2 ^ 32) (hok : memOk s a = true) :
    memWrite a v s = .done () (emit (.memW a v) { s with mem := writeWord s.mem a v }) := by
  simp [memWrite, access, h4, addr_below hl, hok]

/-- A refused write raises MemFault. -/
theorem memWrite_raised {a : Nat} {v : Word} {s : State} (h4 : a % 4 = 0) (hl : a < 2 ^ 32)
    (hok : memOk s a = false) : memWrite a v s = .raised .memFault (BitVec.ofNat 32 a) s := by
  simp [memWrite, access, h4, addr_below hl, hok]

/-- `mem_ok` looks at the parameters alone. -/
theorem memOk_congr {s t : State} (h : t.par = s.par) (a : Nat) : memOk t a = memOk s a := by simp [memOk, h]

/-- An aligned, accepted read-modify-write: two events, one word changed. -/
theorem rmw_done {a : Nat} {fld : CwField} {f : Word} {s : State} (h4 : a % 4 = 0) (hl : a < 2 ^ 32)
    (hok : memOk s a = true) :
    rmw a fld f s =
      .done ()
        { s with
          mem := writeWord s.mem a (insertField fld (readWord s.mem a) f)
          hist := s.hist ++
            [.memR a (readWord s.mem a), .memW a (insertField fld (readWord s.mem a) f)] } := by
  rw [rmw, memRead_done h4 hl hok, bind_done, memWrite_done h4 hl (by simpa [memOk] using hok)]
  simp [emit]

/-- A refused read-modify-write raises MemFault at its read and changes nothing (R127). -/
theorem rmw_raised {a : Nat} {fld : CwField} {f : Word} {s : State} (h4 : a % 4 = 0) (hl : a < 2 ^ 32)
    (hok : memOk s a = false) : rmw a fld f s = .raised .memFault (BitVec.ofNat 32 a) s := by
  rw [rmw, memRead_raised h4 hl hok, bind_raised]

/-- Everything a write can have done when it went through. -/
theorem memWrite_cases {a : Nat} {v : Word} {s t : State} {u : Unit} (h : memWrite a v s = .done u t) :
    a % 4 = 0 ∧ a < 2 ^ 32 ∧ memOk s a = true ∧
      t = emit (.memW a v) { s with mem := writeWord s.mem a v } := by
  simp only [memWrite, access, Config.addrLimit] at h
  split at h
  · cases h
  · split at h
    · cases h
    · split at h
      · simp only [Result.done.injEq, true_and] at h
        exact ⟨by omega, by omega, by assumption, h.symm⟩
      · cases h

/-- Everything a read can have done when it went through. -/
theorem memRead_cases {a : Nat} {v : Word} {s t : State} (h : memRead a s = .done v t) :
    a % 4 = 0 ∧ a < 2 ^ 32 ∧ memOk s a = true ∧ v = readWord s.mem a ∧ t = emit (.memR a v) s := by
  simp only [memRead, access, Config.addrLimit] at h
  split at h
  · cases h
  · split at h
    · cases h
    · split at h
      · simp only [Result.done.injEq] at h
        refine ⟨by omega, by omega, by assumption, h.1.symm, ?_⟩
        rw [← h.2, h.1]
      · cases h

/-! ### Bits -/

/-- R83: the written bit is the channel's, and it is `b`. -/
theorem getBit_putBit_same {v : Word} {ch : BitVec 8} {b : Bool} (h : ch.toNat < 32) :
    getBit (putBit v ch b) ch = b := by
  cases b <;> simp [getBit, putBit, setPort, clrPort, chBit, h]

/-- R83: no other channel's bit changes. -/
theorem getBit_putBit_ne {v : Word} {ch j : BitVec 8} {b : Bool} (h : j ≠ ch) :
    getBit (putBit v ch b) j = getBit v j := by
  have h' : j.toNat ≠ ch.toNat := fun e => h (BitVec.toNat_inj.mp e)
  by_cases hj : j.toNat < 32
  · cases b
    · by_cases hlt : j.toNat < ch.toNat
      · simp [getBit, putBit, clrPort, chBit, hj, hlt]
      · have : ¬ j.toNat - ch.toNat = 0 := by omega
        simp [getBit, putBit, clrPort, chBit, hj, hlt, this]
    · by_cases hlt : j.toNat < ch.toNat
      · simp [getBit, putBit, setPort, chBit, hj, hlt]
      · have : ¬ j.toNat - ch.toNat = 0 := by omega
        simp [getBit, putBit, setPort, chBit, hj, hlt, this]
  · simp [getBit, BitVec.getLsbD_of_ge _ _ (Nat.not_lt.mp hj)]

/-- R7: outside the mask the word keeps its bits. -/
theorem insertField_outside (fld : CwField) (w f : Word) :
    insertField fld w f &&& ~~~fld.mask = w &&& ~~~fld.mask := by
  apply BitVec.eq_of_getLsbD_eq
  intro i hi
  simp only [insertField, BitVec.getLsbD_and, BitVec.getLsbD_or, BitVec.getLsbD_not, hi]
  cases w.getLsbD i <;> cases fld.mask.getLsbD i <;> cases (f <<< fld.shift).getLsbD i <;> rfl

/-- R7: inside the mask the word holds the shifted value. -/
theorem insertField_inside (fld : CwField) (w f : Word) :
    insertField fld w f &&& fld.mask = (f <<< fld.shift) &&& fld.mask := by
  apply BitVec.eq_of_getLsbD_eq
  intro i hi
  simp only [insertField, BitVec.getLsbD_and, BitVec.getLsbD_or, BitVec.getLsbD_not, hi]
  cases w.getLsbD i <;> cases fld.mask.getLsbD i <;> cases (f <<< fld.shift).getLsbD i <;> rfl

end Sys2Proof.Machine
end

