-- ==== Sys2Proof/Laws/Request.lean ====
section
/-! SUPPORT. Every meaning is the frame of a request around a body (`exec_eq_request`); what holds of every state a body
can end in (`Result.Forall`); and, said once, what no body does: touch the latch, the count, the port or the parameters,
emit a Req or a Resp, change a programmed base, stop the clock or set an error bit (`bodyOf_forward`). -/

namespace Sys2Proof.Machine

/-- The body of a request's meaning. -/
def bodyOf : Instr → Word → State → Result Word
  | .locate b n a t => fun _ s => locateBody b n a t s
  | .tblchk b => fun _ s => .done (if tableOk b then 1 else 0) s
  | .tblrd ch h w => fun op s =>
    inRange ch s fun s => clocked op s fun s => tabled op s fun s => memRead (entaddr s ch h w) s
  | .tblwr ch h w d => fun op s =>
    inRange ch s fun s => clocked op s fun s => tabled op s fun s =>
      (memWrite (entaddr s ch h w) d s).bind fun _ s => .done 0 s
  | .clkon => fun _ s => .done 0 (clkonBody s)
  | .setmap ch enc => fun op s =>
    inRange ch s fun s => inMapRange ch s fun s => clocked op s fun s => .done 0 (setmapBody ch enc s)
  | .setprio ch t => fun op s => inRange ch s fun s => clocked op s fun s => .done 0 (setprioBody ch t s)
  | .setmode ch m => fun op s =>
    inRange ch s fun s => clocked op s fun s => tabled op s fun s => (setmodeBody ch m s).bind fun _ s => .done 0 s
  | .setgran ch g => fun op s => inRange ch s fun s => clocked op s fun s => .done 0 (setgranBody ch g s)
  | .setarb ch a => fun op s =>
    inRange ch s fun s => clocked op s fun s => tabled op s fun s => (setarbBody ch a s).bind fun _ s => .done 0 s
  | .unmask ch => fun op s => inRange ch s fun s => clocked op s fun s => .done 0 (unmaskBody ch s)
  | .init rs => fun _ s => initBody rs s
  | .cfgsrc ch i z e => fun op s =>
    inRange ch s fun s => sizeLegal z s fun s => clocked op s fun s => tabled op s fun s =>
      endpointBody ch .src cwSource i z e s
  | .cfgdst ch i z e => fun op s =>
    inRange ch s fun s => sizeLegal z s fun s => clocked op s fun s => tabled op s fun s =>
      endpointBody ch .dst cwDest i z e s
  | .start ch n => fun op s =>
    inRange ch s fun s => countLegal op n s fun s => clocked op s fun s => startBody ch n s
  | .rdStat => readReg .stat
  | .wrStat d => writeReg .stat d
  | .rdCfg => readReg .cfg
  | .wrCfg d => writeReg .cfg d
  | .rdCtlbase => readReg .ctlbase
  | .wrCtlbase d => writeReg .ctlbase d
  | .rdAltbase => readReg .altbase
  | .wrAltbase d => writeReg .altbase d
  | .rdWaitstat => readReg .waitstat
  | .wrWaitstat d => writeReg .waitstat d
  | .rdSwreq => readReg .swreq
  | .wrSwreq d => writeReg .swreq d
  | .rdUseburstset => readReg .useburstset
  | .wrUseburstset d => writeReg .useburstset d
  | .rdUseburstclr => readReg .useburstclr
  | .wrUseburstclr d => writeReg .useburstclr d
  | .rdReqmaskset => readReg .reqmaskset
  | .wrReqmaskset d => writeReg .reqmaskset d
  | .rdReqmaskclr => readReg .reqmaskclr
  | .wrReqmaskclr d => writeReg .reqmaskclr d
  | .rdEnaset => readReg .enaset
  | .wrEnaset d => writeReg .enaset d
  | .rdEnaclr => readReg .enaclr
  | .wrEnaclr d => writeReg .enaclr d
  | .rdAltset => readReg .altset
  | .wrAltset d => writeReg .altset d
  | .rdAltclr => readReg .altclr
  | .wrAltclr d => writeReg .altclr d
  | .rdPrioset => readReg .prioset
  | .wrPrioset d => writeReg .prioset d
  | .rdPrioclr => readReg .prioclr
  | .wrPrioclr d => writeReg .prioclr d
  | .rdErrclr => readReg .errclr
  | .wrErrclr d => writeReg .errclr d
  | .rdChasgn => readReg .chasgn
  | .wrChasgn d => writeReg .chasgn d
  | .rdChmap0 => readReg .chmap0
  | .wrChmap0 d => writeReg .chmap0 d
  | .rdChmap1 => readReg .chmap1
  | .wrChmap1 d => writeReg .chmap1 d
  | .rdChmap2 => readReg .chmap2
  | .wrChmap2 d => writeReg .chmap2 d
  | .rdChmap3 => readReg .chmap3
  | .wrChmap3 d => writeReg .chmap3 d
  | .rd off => readOffset off
  | .wr off d => writeOffset off d

/-- Every meaning is a request around its body. -/
theorem exec_eq_request (i : Instr) (s : State) : exec i s = request (packetOf i) (bodyOf i) s := by
  cases i <;> rfl

/-! ### What holds of every state a piece can end in -/

/-- `Q` holds of the state the piece ends in, whether it goes through or raises. -/
def Result.Forall {α : Type} (Q : State → Prop) : Result α → Prop
  | .done _ t => Q t
  | .raised _ _ t => Q t
  | .stopped _ => True

@[simp] theorem forall_done {α : Type} {Q : State → Prop} {a : α} {t : State} :
    (Result.done a t).Forall Q = Q t := rfl
@[simp] theorem forall_raised {α : Type} {Q : State → Prop} {f : FaultName} {info : Word} {t : State} :
    (Result.raised f info t : Result α).Forall Q = Q t := rfl
@[simp] theorem forall_stopped {α : Type} {Q : State → Prop} {f : Fault} :
    (Result.stopped f : Result α).Forall Q = True := rfl

theorem Result.Forall.mono {α : Type} {P Q : State → Prop} {r : Result α} (h : r.Forall P) (hPQ : ∀ t, P t → Q t) :
    r.Forall Q := by
  cases r <;> simp_all

/-- What holds after each of two pieces, started where the first ended, holds after both. -/
theorem Result.Forall.bind {α β : Type} {P Q : State → Prop} {r : Result α} {k : α → State → Result β}
    (h : r.Forall P) (hraise : ∀ t, P t → Q t) (hk : ∀ a t, P t → (k a t).Forall Q) : (r.bind k).Forall Q := by
  cases r with
  | done a t => exact hk a t h
  | raised f info t => exact hraise t h
  | stopped f => trivial

section Checks
variable {α : Type} {ch : BitVec 8} {op : Word} {s : State} {k : State → Result α} {z : ItemSize} {n : BitVec 16}
  {Q : State → Prop}

theorem inRange_forall (h : Q s) (hk : ch.toNat < 32 → (k s).Forall Q) : (inRange ch s k).Forall Q := by
  by_cases hc : ch.toNat < 32
  · rw [inRange_pass hc]; exact hk hc
  · rw [inRange_raise (by omega)]; exact h
theorem inMapRange_forall (h : Q s) (hk : ch.toNat < 16 → (k s).Forall Q) : (inMapRange ch s k).Forall Q := by
  by_cases hc : ch.toNat < 16
  · rw [inMapRange_pass hc]; exact hk hc
  · rw [inMapRange_raise (by omega)]; exact h
theorem sizeLegal_forall (h : Q s) (hk : z ≠ .reserved → (k s).Forall Q) : (sizeLegal z s k).Forall Q := by
  simp only [sizeLegal]; split
  · exact h
  · exact hk (by assumption)
theorem clocked_forall (h : Q s) (hk : s.sys.clkEn = true → (k s).Forall Q) : (clocked op s k).Forall Q := by
  simp only [clocked]; split
  · exact hk (by assumption)
  · exact h
theorem tabled_forall (h : Q s) (hk : s.csr.ctlbaseWritten = true → (k s).Forall Q) : (tabled op s k).Forall Q := by
  simp only [tabled]; split
  · exact hk (by assumption)
  · exact h
theorem countLegal_forall (h : Q s) (hk : 1 ≤ n.toNat → n.toNat ≤ 1024 → (k s).Forall Q) :
    (countLegal op n s k).Forall Q := by
  simp only [countLegal]; split
  · exact h
  · next h0 =>
    split
    · exact h
    · have : n.toNat ≠ 0 := fun e => h0 (BitVec.toNat_inj.mp (by simpa using e))
      exact hk (by omega) (by omega)
theorem access_forall {a : Nat} (h : Q s) (hk : a % 4 = 0 → a < 2 ^ 32 → (k s).Forall Q) :
    (access a s k).Forall Q := by
  by_cases h4 : a % 4 = 0
  · by_cases hl : a < 2 ^ 32
    · by_cases hok : memOk s a = true
      · simp only [access, h4, addr_below hl, hok]; exact hk h4 hl
      · simp only [access, h4, addr_below hl, hok]; exact h
    · have : Config.addrLimit ≤ a := by simp only [Config.addrLimit]; omega
      simp only [access, h4, this]; trivial
  · simp [access, h4]
end Checks

theorem memRead_forall {a : Nat} {s : State} {Q : State → Prop} (h : Q s)
    (hd : Q (emit (.memR a (readWord s.mem a)) s)) : (memRead a s).Forall Q :=
  access_forall h fun _ _ => hd

theorem memWrite_forall {a : Nat} {v : Word} {s : State} {Q : State → Prop} (h : Q s)
    (hd : a % 4 = 0 → a < 2 ^ 32 → Q (emit (.memW a v) { s with mem := writeWord s.mem a v })) :
    (memWrite a v s).Forall Q :=
  access_forall h fun h4 hl => hd h4 hl

/-- A read-modify-write ends in the state itself (MemFault at the read, log 6: `mem_ok` answers the same for the write)
or after the write. -/
theorem rmw_forall {a : Nat} {fld : CwField} {f : Word} {s : State} {Q : State → Prop} (h : Q s)
    (hd : a % 4 = 0 → a < 2 ^ 32 →
      Q { s with
        mem := writeWord s.mem a (insertField fld (readWord s.mem a) f)
        hist := s.hist ++
          [.memR a (readWord s.mem a), .memW a (insertField fld (readWord s.mem a) f)] }) :
    (rmw a fld f s).Forall Q := by
  by_cases h4 : a % 4 = 0
  · by_cases hl : a < 2 ^ 32
    · by_cases hok : memOk s a = true
      · rw [rmw_done h4 hl hok]; exact hd h4 hl
      · rw [rmw_raised h4 hl (by simpa using hok)]; exact h
    · have : Config.addrLimit ≤ a := by simp only [Config.addrLimit]; omega
      simp only [rmw, memRead, access, h4, this]; trivial
  · simp [rmw, memRead, access, h4]

/-! ### What no body does -/

/-- From `s` to `t` inside a request: the latch, the count, the port, the parameters and what memory held at power-on stay,
inner events are appended, a programmed base stays, the clock stays on, no error bit is set. -/
structure Forward (s t : State) : Prop where
  flt : t.flt = s.flt
  seq : t.seq = s.seq
  port : t.port = s.port
  par : t.par = s.par
  power : t.mem.powerOn = s.mem.powerOn
  hist : ∃ evs, t.hist = s.hist ++ evs ∧ ∀ e ∈ evs, e.inner = true
  base : s.csr.ctlbaseWritten = true → t.csr.ctlbaseWritten = true ∧ t.csr.ctlbase = s.csr.ctlbase
  clk : s.sys.clkEn = true → t.sys.clkEn = true
  err : ∀ i, t.csr.err.getLsbD i = true → s.csr.err.getLsbD i = true

theorem Forward.refl (s : State) : Forward s s :=
  ⟨rfl, rfl, rfl, rfl, rfl, ⟨[], by simp, by simp⟩, fun h => ⟨h, rfl⟩, id, fun _ h => h⟩

theorem Forward.trans {s t u : State} (h : Forward s t) (h' : Forward t u) : Forward s u := by
  obtain ⟨e, he, hi⟩ := h.hist
  obtain ⟨e', he', hi'⟩ := h'.hist
  refine ⟨h'.flt.trans h.flt, h'.seq.trans h.seq, h'.port.trans h.port, h'.par.trans h.par, h'.power.trans h.power,
    ⟨e ++ e', by rw [he', he, List.append_assoc], ?_⟩, fun hb => ?_, fun hc => h'.clk (h.clk hc),
    fun i hi => h.err i (h'.err i hi)⟩
  · intro x hx
    rcases List.mem_append.mp hx with hx | hx
    · exact hi x hx
    · exact hi' x hx
  · have h1 := h.base hb
    have h2 := h'.base h1.1
    exact ⟨h2.1, h2.2.trans h1.2⟩

/-- An update of registers other than the base and the error bits. -/
theorem Forward.csr {s : State} {c : Csr} (hw : c.ctlbaseWritten = s.csr.ctlbaseWritten)
    (hb : c.ctlbase = s.csr.ctlbase) (he : c.err = s.csr.err) : Forward s { s with csr := c } :=
  ⟨rfl, rfl, rfl, rfl, rfl, ⟨[], by simp, by simp⟩, fun h => ⟨hw.trans h, hb⟩, id, fun _ h => by simpa [he] using h⟩

/-- An update of what the relation does not speak of. -/
theorem Forward.of_eq {s t : State} (evs : List Event) (hflt : t.flt = s.flt) (hseq : t.seq = s.seq)
    (hport : t.port = s.port) (hpar : t.par = s.par) (hhist : t.hist = s.hist ++ evs)
    (hinner : ∀ e ∈ evs, e.inner = true) (hcsr : t.csr = s.csr) (hsys : t.sys = s.sys)
    (hpow : t.mem.powerOn = s.mem.powerOn := by rfl) : Forward s t :=
  ⟨hflt, hseq, hport, hpar, hpow, ⟨evs, hhist, hinner⟩, fun h => by rw [hcsr]; exact ⟨h, rfl⟩,
    fun h => by rw [hsys]; exact h,
    fun _ h => by rwa [hcsr] at h⟩

theorem memRead_forward (a : Nat) (s : State) : (memRead a s).Forall (Forward s) :=
  memRead_forall (Forward.refl s) (Forward.of_eq [_] rfl rfl rfl rfl rfl (by simp [Event.inner]) rfl rfl)

theorem memWrite_forward (a : Nat) (v : Word) (s : State) : (memWrite a v s).Forall (Forward s) :=
  memWrite_forall (Forward.refl s) fun _ _ =>
    Forward.of_eq [_] rfl rfl rfl rfl rfl (by simp [Event.inner]) rfl rfl

theorem rmwControl_forward (ch : BitVec 8) (fld : CwField) (f : Word) (s : State) :
    (rmwControl ch fld f s).Forall (Forward s) :=
  rmw_forall (Forward.refl s) fun _ _ =>
    Forward.of_eq [_, _] rfl rfl rfl rfl rfl (by simp [Event.inner]) rfl rfl

theorem clkonBody_forward (s : State) : Forward s (clkonBody s) := by
  refine ⟨by simp, by simp, by simp, by simp, by simp, ⟨_, clkonBody_hist s, ?_⟩, ?_, ?_, ?_⟩
  · cases s.sys.clkEn <;> simp [Event.inner]
  · simp
  · simp
  · simp

theorem setmapBody_forward (ch enc : BitVec 8) (s : State) : Forward s (setmapBody ch enc s) :=
  Forward.csr (by simp) (by simp) (by simp)
theorem setprioBody_forward (ch : BitVec 8) (t : Tier) (s : State) : Forward s (setprioBody ch t s) :=
  Forward.csr rfl rfl rfl
theorem setgranBody_forward (ch : BitVec 8) (g : Granularity) (s : State) : Forward s (setgranBody ch g s) :=
  Forward.csr rfl rfl rfl
theorem unmaskBody_forward (ch : BitVec 8) (s : State) : Forward s (unmaskBody ch s) := Forward.csr rfl rfl rfl
theorem armBody_forward (ch : BitVec 8) (s : State) : Forward s (armBody ch s) := Forward.csr rfl rfl rfl

theorem setmodeBody_forward (ch : BitVec 8) (m : TransferMode) (s : State) :
    (setmodeBody ch m s).Forall (Forward s) :=
  (rmwControl_forward ch _ _ s).bind (fun _ h => h) fun _ _ h => h.trans (Forward.csr rfl rfl rfl)

theorem applyRecord_forward (r : ConfigRecord) (s : State) : (applyRecord r s).Forall (Forward s) := by
  have h0 : Forward s (setprioBody r.ch r.tier (setmapBody r.ch r.enc s)) :=
    (setmapBody_forward _ _ s).trans (setprioBody_forward _ _ _)
  refine ((setmodeBody_forward _ _ _).mono fun t ht => h0.trans ht).bind (fun _ h => h) fun _ t ht => ?_
  have h1 : Forward s (setgranBody r.ch r.gran t) := ht.trans (setgranBody_forward _ _ t)
  exact ((rmwControl_forward _ _ _ _).mono fun u hu => h1.trans hu).bind (fun _ h => h) fun _ u hu =>
    hu.trans (unmaskBody_forward _ u)

theorem applyRecords_forward (rs : List ConfigRecord) (s : State) : (applyRecords rs s).Forall (Forward s) := by
  induction rs generalizing s with
  | nil => exact Forward.refl s
  | cons r rs ih =>
    exact (applyRecord_forward r s).bind (fun _ h => h) fun _ t ht => (ih t).mono fun u hu => ht.trans hu

theorem programBase_forward (b : Word) (s : State) : (programBase b s).Forall (Forward s) := by
  by_cases h : (s.csr.ctlbaseWritten && b != s.csr.ctlbase) = true
  · rw [programBase, if_pos h]; exact Forward.refl s
  · rw [programBase, if_neg h]
    refine ⟨rfl, rfl, rfl, rfl, rfl, ⟨[], by simp, by simp⟩, fun hw => ⟨rfl, ?_⟩, id, fun _ h => h⟩
    simpa [hw] using h

theorem initPower_forward (s : State) : Forward s (initPower s) :=
  (clkonBody_forward s).trans (Forward.csr rfl rfl rfl)

theorem initBase_forward (s : State) : (initBase s).Forall (Forward s) := by
  rw [initBase]; split
  · exact Forward.refl s
  · exact programBase_forward _ s

theorem initBody_forward (rs : List ConfigRecord) (s : State) : (initBody rs s).Forall (Forward s) := by
  by_cases hn : Config.ncfgMax < rs.length
  · rw [initBody, if_pos hn]; exact Forward.refl s
  · rw [initBody, if_neg hn]
    cases recordViolation rs with
    | some v => exact Forward.refl s
    | none =>
      refine ((initBase_forward _).mono fun t ht => (initPower_forward s).trans ht).bind (fun _ h => h) fun _ t ht => ?_
      refine ((applyRecords_forward rs t).mono fun u hu => ht.trans hu).bind (fun _ h => h) fun _ u hu => ?_
      exact hu.trans (Forward.of_eq [] rfl rfl rfl rfl (by simp) (by simp) rfl rfl)

theorem startBody_forward (ch : BitVec 8) (n : BitVec 16) (s : State) : (startBody ch n s).Forall (Forward s) := by
  rw [startBody]
  cases findRecord s.cfg ch with
  | none => exact armBody_forward ch s
  | some r =>
    refine Result.Forall.bind (P := Forward s) ?_ (fun _ h => h) fun _ t ht => ht.trans (armBody_forward ch t)
    exact (setmodeBody_forward _ _ s).bind (fun _ h => h) fun _ t ht =>
      (rmwControl_forward _ _ _ t).mono fun u hu => ht.trans hu

theorem endpointBody_forward (ch : BitVec 8) (w : EntryWord) (fld : CwField) (i : Increment) (z : ItemSize) (e : Word)
    (s : State) : (endpointBody ch w fld i z e s).Forall (Forward s) :=
  (memWrite_forward _ _ s).bind (fun _ h => h) fun _ t ht =>
    ((rmwControl_forward _ _ _ t).mono fun _ hu => ht.trans hu).bind (fun _ h => h) fun _ _ h => h

theorem storeCsr_forward {op : Word} {f : Csr → Csr} {s : State} (hw : (f s.csr).ctlbaseWritten = s.csr.ctlbaseWritten)
    (hb : (f s.csr).ctlbase = s.csr.ctlbase)
    (he : ∀ i, (f s.csr).err.getLsbD i = true → s.csr.err.getLsbD i = true) :
    (storeCsr op f s).Forall (Forward s) :=
  clocked_forall (Forward.refl s) fun _ =>
    ⟨rfl, rfl, rfl, rfl, rfl, ⟨[], by simp, by simp⟩, fun h => ⟨hw.trans h, hb⟩, id, he⟩

theorem readReg_forward (r : Reg) (op : Word) (s : State) : (readReg r op s).Forall (Forward s) := by
  have hs := Forward.refl s
  have hd : (drawBody s).Forall (Forward s) := Forward.of_eq [] rfl rfl rfl rfl (by simp) (by simp) rfl rfl
  cases r <;> simp only [readReg]
  case stat => exact clocked_forall hs fun _ => hd
  case waitstat => exact clocked_forall hs fun _ => hd
  case swreq => exact hs
  all_goals exact clocked_forall hs fun _ => hs

theorem writeReg_forward (r : Reg) (d op : Word) (s : State) : (writeReg r d op s).Forall (Forward s) := by
  have hs := Forward.refl s
  cases r <;> simp only [writeReg]
  case stat => exact hs
  case altbase => exact hs
  case waitstat => exact hs
  case swreq =>
    refine clocked_forall hs fun _ =>
      Forward.of_eq (t := emitAll (swReqEvents d) s) (swReqEvents d) rfl rfl rfl rfl rfl ?_ rfl rfl
    intro e he
    obtain ⟨i, _, rfl⟩ := List.mem_map.mp he
    rfl
  case ctlbase =>
    refine clocked_forall hs fun _ => ?_
    by_cases hd : d.toNat % Config.tableAlign ≠ 0
    · rw [if_pos hd]; exact hs
    · rw [if_neg hd]
      exact (programBase_forward d s).bind (fun _ h => h) fun _ _ h => h
  case cfg =>
    simp only [writeCfg]
    split
    · exact hs
    · exact storeCsr_forward (f := fun c => { c with masten := d.getLsbD 0 }) rfl rfl fun _ h => h
  case errclr =>
    refine storeCsr_forward (f := fun c => { c with err := clrPort c.err d }) rfl rfl fun i h => ?_
    simp only [clrPort, BitVec.getLsbD_and, Bool.and_eq_true] at h
    exact h.1
  all_goals (apply storeCsr_forward <;> first | rfl | exact fun _ h => h)

/-- What no body does, for every request. -/
theorem bodyOf_forward (i : Instr) (op : Word) (s : State) : (bodyOf i op s).Forall (Forward s) := by
  have hs := Forward.refl s
  cases i <;> simp only [bodyOf]
  case locate b n a t => simp only [locateBody]; split <;> exact hs
  case tblchk => exact hs
  case tblrd => exact inRange_forall hs fun _ => clocked_forall hs fun _ => tabled_forall hs fun _ => memRead_forward _ s
  case tblwr =>
    exact inRange_forall hs fun _ => clocked_forall hs fun _ => tabled_forall hs fun _ =>
      (memWrite_forward _ _ s).bind (fun _ h => h) fun _ _ h => h
  case clkon => exact clkonBody_forward s
  case setmap =>
    exact inRange_forall hs fun _ => inMapRange_forall hs fun _ => clocked_forall hs fun _ => setmapBody_forward _ _ s
  case setprio => exact inRange_forall hs fun _ => clocked_forall hs fun _ => setprioBody_forward _ _ s
  case setmode =>
    exact inRange_forall hs fun _ => clocked_forall hs fun _ => tabled_forall hs fun _ =>
      (setmodeBody_forward _ _ s).bind (fun _ h => h) fun _ _ h => h
  case setgran => exact inRange_forall hs fun _ => clocked_forall hs fun _ => setgranBody_forward _ _ s
  case setarb =>
    exact inRange_forall hs fun _ => clocked_forall hs fun _ => tabled_forall hs fun _ =>
      (rmwControl_forward _ _ _ s).bind (fun _ h => h) fun _ _ h => h
  case unmask => exact inRange_forall hs fun _ => clocked_forall hs fun _ => unmaskBody_forward _ s
  case init => exact initBody_forward _ s
  case cfgsrc =>
    exact inRange_forall hs fun _ => sizeLegal_forall hs fun _ => clocked_forall hs fun _ => tabled_forall hs fun _ =>
      endpointBody_forward _ _ _ _ _ _ s
  case cfgdst =>
    exact inRange_forall hs fun _ => sizeLegal_forall hs fun _ => clocked_forall hs fun _ => tabled_forall hs fun _ =>
      endpointBody_forward _ _ _ _ _ _ s
  case start =>
    exact inRange_forall hs fun _ => countLegal_forall hs fun _ _ => clocked_forall hs fun _ => startBody_forward _ _ s
  case rd off =>
    simp only [readOffset]; split
    · exact hs
    · exact readReg_forward _ op s
  case wr off d =>
    simp only [writeOffset]; split
    · exact hs
    · exact writeReg_forward _ d op s
  all_goals first
    | exact readReg_forward _ op s
    | exact writeReg_forward _ _ op s

end Sys2Proof.Machine
end

