-- ==== Sys2Proof/Laws/Exec.lean ====
section
/-! SUPPORT. How the answer of `exec` follows from what a request's body does, and the facts about channel bits, entry
addresses, control-word fields and OP words that the bodies' proofs need. -/

namespace Sys2Proof.Machine

/-! ### From the body to the answer -/

/-- The state a request's body starts in: its Req event emitted. -/
abbrev started (i : Instr) (s : State) : State := emit (.req s.seq (packetOf i).op (packetOf i).args) s

/-- A body that raises before it has any effect: the request's trap. -/
theorem exec_trapped {i : Instr} {s : State} {code : Byte} {info : Word} (f : FaultName) (hs : Accepting s)
    (hf : f.code = code) (hb : bodyOf i (packetOf i).op (started i s) = .raised f info (started i s)) :
    exec i s = .next (trapped i code info [] s) := by
  rw [exec_eq_request, request_raised hs hb, ← hf]
  simp [trapped, trappedPacket, raiseFault, emit, historyAfter]

/-- A body that raises. -/
theorem exec_raised {i : Instr} {s t : State} {f : FaultName} {info : Word} (hs : Accepting s)
    (hb : bodyOf i (packetOf i).op (started i s) = .raised f info t) :
    exec i s = .next (raiseFault f info (packetOf i).op t) := by
  rw [exec_eq_request, request_raised hs hb]

/-- A body that goes through. -/
theorem exec_done {i : Instr} {s t : State} {v : Word} (hs : Accepting s)
    (hb : bodyOf i (packetOf i).op (started i s) = .done v t) : exec i s = .next (respond v t) := by
  rw [exec_eq_request, request_done hs hb]

/-- A faulted block (R129). -/
theorem exec_refused {i : Instr} {s : State} (hs : s.flt.code ≠ 0#8) :
    exec i s = .next (refusedPacket (packetOf i) s) := by
  rw [exec_eq_request, request_refused hs]

/-- Everything `exec` can have done when it answers a next state. -/
theorem exec_cases {i : Instr} {s t : State} (h : exec i s = .next t) :
    (s.flt.code ≠ 0#8 ∧ t = refusedPacket (packetOf i) s) ∨
    (s.flt.code = 0#8 ∧ ∃ v u, bodyOf i (packetOf i).op (started i s) = .done v u ∧ t = respond v u) ∨
    (s.flt.code = 0#8 ∧ ∃ f info u, bodyOf i (packetOf i).op (started i s) = .raised f info u ∧
      t = raiseFault f info (packetOf i).op u) :=
  request_cases (by rwa [exec_eq_request] at h)

/-- A relation that is kept by the response, the fault and the refusal, and that every state the body can end in has to
the state, holds from the state to the one `exec` answers. -/
theorem exec_next {i : Instr} {s t : State} {P : State → Prop} (h : exec i s = .next t)
    (hbody : (bodyOf i (packetOf i).op (started i s)).Forall P) (hdone : ∀ v u, P u → P (respond v u))
    (hraise : ∀ f info op u, P u → P (raiseFault f info op u)) (hrefuse : P (refusedPacket (packetOf i) s)) : P t := by
  rcases exec_cases h with ⟨_, rfl⟩ | ⟨_, v, u, hb, rfl⟩ | ⟨_, f, info, u, hb, rfl⟩
  · exact hrefuse
  · rw [hb] at hbody; exact hdone _ _ hbody
  · rw [hb] at hbody; exact hraise _ _ _ _ hbody

/-! ### Entry addresses -/

/-- R42, R47: in a state with an aligned base every entry word of a channel 0 to 31 is at a multiple of 4 below 2^32. -/
theorem entaddr_bounds {s : State} {ch : BitVec 8} (hb : s.csr.ctlbase.toNat % 1024 = 0) (hc : ch.toNat < 32) (h : Half)
    (w : EntryWord) : entaddr s ch h w % 4 = 0 ∧ entaddr s ch h w < 2 ^ 32 ∧ entaddr s ch h w + 3 < Config.addrLimit := by
  have := entryAddr_bounds h w hb hc
  refine ⟨this.1, ?_, ?_⟩ <;> simp only [entaddr, Config.addrLimit] <;> omega

/-- R47: entry addresses look at the table base alone. -/
theorem entaddr_congr {s t : State} (h : t.csr.ctlbase = s.csr.ctlbase) (ch : BitVec 8) (k : Half) (w : EntryWord) :
    entaddr t ch k w = entaddr s ch k w := by rw [entaddr, h, entaddr]

@[simp] theorem entaddr_emit (e : Event) (s : State) (ch : BitVec 8) (h : Half) (w : EntryWord) :
    entaddr (emit e s) ch h w = entaddr s ch h w := rfl
@[simp] theorem tgt_emit (e : Event) (s : State) (ch : BitVec 8) : tgt (emit e s) ch = tgt s ch := rfl
@[simp] theorem memOk_emit (e : Event) (s : State) (a : Nat) : memOk (emit e s) a = memOk s a := rfl

/-- R48: `tgt` looks at the parameter and the channel's alternate-select bit. -/
theorem tgt_congr {s t : State} {ch : BitVec 8} (hp : t.par = s.par)
    (ha : getBit t.csr.altsel ch = getBit s.csr.altsel ch) : tgt t ch = tgt s ch := by
  rw [tgt, hp, ha, tgt]

/-- R48: with `FIELD_TARGET = primary` the target is the primary half. -/
theorem tgt_primary {s : State} (hp : s.par.fieldTarget = .primary) (ch : BitVec 8) : tgt s ch = .pri := by
  rw [tgt, hp]

/-! ### Channel bits -/

/-- R83: the value of a vector after one channel's bit is written. -/
theorem putBit_eq (v : Word) (ch : BitVec 8) (b : Bool) :
    putBit v ch b = if b then v ||| (1#32 <<< ch.toNat) else v &&& ~~~(1#32 <<< ch.toNat) := by
  cases b <;> simp [putBit, setPort, clrPort, chBit]

/-- R83: the written bit. -/
theorem getLsbD_putBit_same {v : Word} {ch : BitVec 8} {b : Bool} (h : ch.toNat < 32) :
    (putBit v ch b).getLsbD ch.toNat = b := getBit_putBit_same h

/-- R83: every other bit. -/
theorem getLsbD_putBit_ne {v : Word} {ch : BitVec 8} {b : Bool} {j : Nat} (h : j ≠ ch.toNat) :
    (putBit v ch b).getLsbD j = v.getLsbD j := by
  by_cases h32 : j < 32
  · have e : (BitVec.ofNat 8 j).toNat = j := by simp only [BitVec.toNat_ofNat]; omega
    have hne : BitVec.ofNat 8 j ≠ ch := fun he => h (by rw [← he, e])
    have := getBit_putBit_ne (v := v) (b := b) hne
    simpa only [getBit, e] using this
  · simp [BitVec.getLsbD_of_ge _ _ (Nat.not_lt.mp h32)]

/-- Arming sets the channel's bit and no other (R94). -/
theorem armBody_eq (ch : BitVec 8) (s : State) :
    armBody ch s = { s with csr := { s.csr with ena := putBit s.csr.ena ch true } } := rfl

/-- Unmasking clears the channel's bit and no other (R90). -/
theorem unmaskBody_eq (ch : BitVec 8) (s : State) :
    unmaskBody ch s = { s with csr := { s.csr with reqmask := putBit s.csr.reqmask ch false } } := rfl

/-! ### Fields of the control word -/

/-- A bit of a word with a field inserted. -/
theorem getLsbD_insertField (fld : CwField) (w f : Word) (i : Nat) :
    (insertField fld w f).getLsbD i =
      if fld.mask.getLsbD i then decide (i < 32) && !decide (i < fld.shift) && f.getLsbD (i - fld.shift)
      else w.getLsbD i := by
  by_cases hi : i < 32
  · simp only [insertField, BitVec.getLsbD_or, BitVec.getLsbD_and, BitVec.getLsbD_not, BitVec.getLsbD_shiftLeft, hi]
    cases fld.mask.getLsbD i <;> simp
  · have hw : ∀ v : Word, v.getLsbD i = false := fun v => BitVec.getLsbD_of_ge v i (Nat.not_lt.mp hi)
    simp [hw]

/-- R58: a mask whose bits are those from `lo` on, `n` of them. -/
def CwField.covers (fld : CwField) (lo n : Nat) : Bool :=
  (List.range 32).all fun i => fld.mask.getLsbD i == (decide (lo ≤ i) && decide (i < lo + n))

theorem covers_getLsbD {fld : CwField} {lo n : Nat} (h : fld.covers lo n = true) {i : Nat} (hi : i < 32) :
    fld.mask.getLsbD i = (decide (lo ≤ i) && decide (i < lo + n)) := by
  simp only [CwField.covers, List.all_eq_true, List.mem_range, beq_iff_eq] at h
  exact h i hi

/-- The inserted field reads back. -/
theorem extract_insertField_same {fld : CwField} {lo n : Nat} (h : fld.covers lo n = true) (hs : fld.shift = lo)
    (hn : lo + n ≤ 32) (w f : Word) : (insertField fld w f).extractLsb' lo n = f.extractLsb' 0 n := by
  apply BitVec.eq_of_getLsbD_eq
  intro i hi
  have h1 : lo + i < 32 := by omega
  have h2 : lo + i < lo + n := by omega
  rw [BitVec.getLsbD_extractLsb', getLsbD_insertField, covers_getLsbD h h1]
  simp [h1, h2, hs, hi]

/-- Bits outside the field stay. -/
theorem extract_insertField_other {fld : CwField} {lo n : Nat} (h : fld.covers lo n = true) {k m : Nat}
    (hk : k + m ≤ lo ∨ lo + n ≤ k) (w f : Word) :
    (insertField fld w f).extractLsb' k m = w.extractLsb' k m := by
  apply BitVec.eq_of_getLsbD_eq
  intro i hi
  by_cases h1 : k + i < 32
  · have h2 : (decide (lo ≤ k + i) && decide (k + i < lo + n)) = false := by
      simp only [Bool.and_eq_false_iff, decide_eq_false_iff_not]; omega
    rw [BitVec.getLsbD_extractLsb', getLsbD_insertField, covers_getLsbD h h1]
    simp [h2]
  · have hw : ∀ v : Word, v.getLsbD (k + i) = false := fun v => BitVec.getLsbD_of_ge v _ (Nat.not_lt.mp h1)
    simp [hw]

theorem cwMode_covers : cwMode.covers 0 3 = true := by decide
theorem cwSize_covers : cwSize.covers 4 10 = true := by decide
theorem cwArb_covers : cwArb.covers 14 4 = true := by decide
theorem cwSource_covers : cwSource.covers 24 4 = true := by decide
theorem cwDest_covers : cwDest.covers 28 4 = true := by decide

/-- Inserting the same value twice is inserting it once. -/
theorem insertField_twice (fld : CwField) (w f : Word) : insertField fld (insertField fld w f) f = insertField fld w f := by
  apply BitVec.eq_of_getLsbD_eq
  intro i hi
  simp only [getLsbD_insertField]
  split <;> rfl

/-- Insertions in fields that share no bit commute. -/
theorem insertField_comm {fld fld' : CwField} (h : fld.mask &&& fld'.mask = 0#32) (w f f' : Word) :
    insertField fld (insertField fld' w f') f = insertField fld' (insertField fld w f) f' := by
  apply BitVec.eq_of_getLsbD_eq
  intro i hi
  have hb := congrArg (fun v => v.getLsbD i) h
  simp only [BitVec.getLsbD_and, BitVec.getLsbD_zero] at hb
  simp only [getLsbD_insertField]
  cases h1 : fld.mask.getLsbD i <;> cases h2 : fld'.mask.getLsbD i <;> simp_all

/-! ### OP words -/

/-- R69: an OP word as its three parts put together. -/
theorem opWordOf_eq_or (o : Opcode) (ch : BitVec 8) (lo : BitVec 16) :
    opWordOf o ch lo = o.code.setWidth 32 <<< 24 ||| ch.setWidth 32 <<< 16 ||| lo.setWidth 32 := by
  apply BitVec.eq_of_getLsbD_eq
  intro i hi
  rw [getLsbD_opWordOf]
  by_cases h16 : i < 16
  · have h24 : i < 24 := by omega
    simp [h16, h24, hi]
  · have hlo : lo.getLsbD i = false := BitVec.getLsbD_of_ge lo i (by omega)
    by_cases h24 : i < 24
    · have h8 : i - 16 < 8 := by omega
      simp [h16, h24, h8, hi, hlo]
    · have h8 : ¬ i - 16 < 8 := by omega
      have hch : ch.getLsbD (i - 16) = false := BitVec.getLsbD_of_ge ch _ (by omega)
      simp [h16, h24, h8, hi, hlo, hch, Nat.sub_sub]

/-- R70: the OP word from the opcode's word of the table and the low half-word. -/
theorem opWordOf_eq {o : Opcode} {ch : BitVec 8} {lo : BitVec 16} {x : Word} (h : lo.setWidth 32 = x) :
    opWordOf o ch lo = o.matchWord ||| ch.setWidth 32 <<< 16 ||| x := by
  rw [opWordOf_eq_or, h]
  cases o <;> rfl

/-- A zero-extended low half-word is the zero-extended field. -/
theorem setWidth_zero_append {n : Nat} (k : Nat) (x : BitVec n) : (0#k ++ x).setWidth 32 = x.setWidth 32 := by
  apply BitVec.eq_of_getLsbD_eq
  intro i hi
  simp only [BitVec.getLsbD_setWidth, BitVec.getLsbD_append, BitVec.getLsbD_zero]
  by_cases h : i < n
  · simp [h]
  · simp [h, BitVec.getLsbD_of_ge x i (Nat.not_lt.mp h)]

/-- R75: the low half-word of TBLRD and TBLWR. -/
theorem setWidth_halfWord (h : Half) (w : EntryWord) :
    ((0#7 ++ h.code ++ 0#6 ++ w.code : BitVec 16)).setWidth 32 = h.code.setWidth 32 <<< 8 ||| w.code.setWidth 32 := by
  cases h <;> cases w <;> decide

/-- R70: the low half-word of CFGSRC and CFGDST. -/
theorem setWidth_incSize (i : Increment) (z : ItemSize) :
    ((0#12 ++ i.code ++ z.code : BitVec 16)).setWidth 32 = i.code.setWidth 32 <<< 2 ||| z.code.setWidth 32 := by
  cases i <;> cases z <;> decide

/-- R58, R92, R93: the four bits of CFGSRC and CFGDST, part by part. -/
theorem extract_incSize (i : Increment) (z : ItemSize) :
    (incSize i z).extractLsb' 0 2 = z.code ∧ (incSize i z).extractLsb' 2 2 = i.code := by
  cases i <;> cases z <;> decide

/-- A sub-field of an inserted field. -/
theorem extract_insertField_part {fld : CwField} {lo n : Nat} (h : fld.covers lo n = true) (hs : fld.shift = lo)
    (hn : lo + n ≤ 32) {k m : Nat} (hk : k + m ≤ n) (w f : Word) :
    (insertField fld w f).extractLsb' (lo + k) m = f.extractLsb' k m := by
  apply BitVec.eq_of_getLsbD_eq
  intro i hi
  have h1 : lo + k + i < 32 := by omega
  have h2 : lo + k + i < lo + n := by omega
  have h3 : lo ≤ lo + k + i := by omega
  have h4 : lo + k + i - lo = k + i := by omega
  rw [BitVec.getLsbD_extractLsb', getLsbD_insertField, covers_getLsbD h h1]
  simp [h1, h2, h3, h4, hs, hi]

end Sys2Proof.Machine
end

