-- ==== Sys2Proof/Laws/Bodies.lean ====
section
/-! SUPPORT. What each body that accesses the table does, said once: with the table base aligned (spec 10_state.md R22)
and the channel below 32, it goes through where memory accepts its accesses, and raises MemFault at the first one that
memory refuses (60_exceptions.md R124, R127). -/

namespace Sys2Proof.Machine

section Bodies
variable {ch : BitVec 8} {s : State} {a : Nat}

/-- A field of the control word is written: one read and one write of the word. -/
theorem rmwControl_done {fld : CwField} {f : Word} (hb : s.csr.ctlbase.toNat % 1024 = 0) (hc : ch.toNat < 32)
    (ha : a = entaddr s ch (tgt s ch) .ctl) (hok : memOk s a = true) :
    rmwControl ch fld f s = .done ()
      { s with
        mem := writeWord s.mem a (insertField fld (readWord s.mem a) f)
        hist := s.hist ++ [.memR a (readWord s.mem a), .memW a (insertField fld (readWord s.mem a) f)] } := by
  subst ha
  have hbounds := entaddr_bounds hb hc (tgt s ch) .ctl
  exact rmw_done hbounds.1 hbounds.2.1 hok

/-- Memory refuses the control word. -/
theorem rmwControl_raised {fld : CwField} {f : Word} (hb : s.csr.ctlbase.toNat % 1024 = 0) (hc : ch.toNat < 32)
    (ha : a = entaddr s ch (tgt s ch) .ctl) (hok : memOk s a = false) :
    rmwControl ch fld f s = .raised .memFault (BitVec.ofNat 32 a) s := by
  subst ha
  have hbounds := entaddr_bounds hb hc (tgt s ch) .ctl
  exact rmw_raised hbounds.1 hbounds.2.1 hok

/-- SETMODE's body (R87): the mode bits, then the alternate-select bit. -/
theorem setmodeBody_done {m : TransferMode} (hb : s.csr.ctlbase.toNat % 1024 = 0) (hc : ch.toNat < 32)
    (ha : a = entaddr s ch (tgt s ch) .ctl) (hok : memOk s a = true) :
    setmodeBody ch m s = .done ()
      { s with
        mem := writeWord s.mem a (insertField cwMode (readWord s.mem a) (m.code.setWidth 32))
        hist := s.hist ++
          [.memR a (readWord s.mem a), .memW a (insertField cwMode (readWord s.mem a) (m.code.setWidth 32))]
        csr := { s.csr with altsel := putBit s.csr.altsel ch (!primaryGroup m) } } := by
  rw [setmodeBody, rmwControl_done hb hc ha hok, bind_done]

/-- SETMODE's body where memory refuses the control word: nothing is done. -/
theorem setmodeBody_raised {m : TransferMode} (hb : s.csr.ctlbase.toNat % 1024 = 0) (hc : ch.toNat < 32)
    (ha : a = entaddr s ch (tgt s ch) .ctl) (hok : memOk s a = false) :
    setmodeBody ch m s = .raised .memFault (BitVec.ofNat 32 a) s := by
  rw [setmodeBody, rmwControl_raised hb hc ha hok, bind_raised]

/-- CFGSRC's and CFGDST's body (R92, R93): the end pointer at `p`, then four bits of the control word at `a`. -/
theorem endpointBody_done {w : EntryWord} {fld : CwField} {i : Increment} {z : ItemSize} {e : Word} {p : Nat}
    {m : Memory} (hb : s.csr.ctlbase.toNat % 1024 = 0) (hc : ch.toNat < 32) (hp : p = entaddr s ch (tgt s ch) w)
    (ha : a = entaddr s ch (tgt s ch) .ctl) (hm : m = writeWord s.mem p e) (hokp : memOk s p = true)
    (hoka : memOk s a = true) :
    endpointBody ch w fld i z e s = .done 0
      { s with
        mem := writeWord m a (insertField fld (readWord m a) (incSize i z))
        hist := s.hist ++
          [.memW p e, .memR a (readWord m a), .memW a (insertField fld (readWord m a) (incSize i z))] } := by
  subst hm hp
  have hbounds := entaddr_bounds hb hc (tgt s ch) w
  rw [endpointBody, memWrite_done hbounds.1 hbounds.2.1 hokp, bind_done,
    rmwControl_done (s := emit (.memW (entaddr s ch (tgt s ch) w) e) { s with mem := writeWord s.mem (entaddr s ch (tgt s ch) w) e })
      hb hc ha hoka, bind_done]
  simp [emit]

/-- Memory refuses the end pointer: nothing is done. -/
theorem endpointBody_raised_first {w : EntryWord} {fld : CwField} {i : Increment} {z : ItemSize} {e : Word} {p : Nat}
    (hb : s.csr.ctlbase.toNat % 1024 = 0) (hc : ch.toNat < 32) (hp : p = entaddr s ch (tgt s ch) w)
    (hokp : memOk s p = false) :
    endpointBody ch w fld i z e s = .raised .memFault (BitVec.ofNat 32 p) s := by
  subst hp
  have hbounds := entaddr_bounds hb hc (tgt s ch) w
  rw [endpointBody, memWrite_raised hbounds.1 hbounds.2.1 hokp, bind_raised]

/-- Memory refuses the control word: the end pointer stays written (R127). -/
theorem endpointBody_raised_second {w : EntryWord} {fld : CwField} {i : Increment} {z : ItemSize} {e : Word} {p : Nat}
    (hb : s.csr.ctlbase.toNat % 1024 = 0) (hc : ch.toNat < 32) (hp : p = entaddr s ch (tgt s ch) w)
    (ha : a = entaddr s ch (tgt s ch) .ctl) (hokp : memOk s p = true) (hoka : memOk s a = false) :
    endpointBody ch w fld i z e s = .raised .memFault (BitVec.ofNat 32 a)
      { s with mem := writeWord s.mem p e, hist := s.hist ++ [.memW p e] } := by
  subst hp
  have hbounds := entaddr_bounds hb hc (tgt s ch) w
  rw [endpointBody, memWrite_done hbounds.1 hbounds.2.1 hokp, bind_done,
    rmwControl_raised (s := emit (.memW (entaddr s ch (tgt s ch) w) e) { s with mem := writeWord s.mem (entaddr s ch (tgt s ch) w) e })
      hb hc ha hoka, bind_raised]
  simp [emit]

/-- START's body on a channel that no stored record has (R94, R122): arm it, nothing else. -/
theorem startBody_unlisted {n : BitVec 16} (hf : findRecord s.cfg ch = none) :
    startBody ch n s = .done 0 (armBody ch s) := by
  rw [startBody, hf]

/-- START's body on a listed channel (R94): the mode as SETMODE does it, the size field at the half R48 then names, the
enable bit. -/
theorem startBody_listed {n : BitVec 16} {r : ConfigRecord} {a' : Nat} {m : Memory} {alt : Word}
    (hf : findRecord s.cfg ch = some r) (hb : s.csr.ctlbase.toNat % 1024 = 0) (hc : ch.toNat < 32)
    (ha : a = entaddr s ch (tgt s ch) .ctl) (halt : alt = putBit s.csr.altsel ch (!primaryGroup r.mode))
    (ha' : a' = entaddr s ch (tgt { s with csr := { s.csr with altsel := alt } } ch) .ctl)
    (hm : m = writeWord s.mem a (insertField cwMode (readWord s.mem a) (r.mode.code.setWidth 32)))
    (hok : memOk s a = true) (hok' : memOk s a' = true) :
    startBody ch n s = .done 0
      { s with
        mem := writeWord m a' (insertField cwSize (readWord m a') ((n - 1#16).setWidth 32))
        hist := s.hist ++
          [.memR a (readWord s.mem a), .memW a (insertField cwMode (readWord s.mem a) (r.mode.code.setWidth 32)),
            .memR a' (readWord m a'), .memW a' (insertField cwSize (readWord m a') ((n - 1#16).setWidth 32))]
        csr := { s.csr with altsel := alt, ena := s.csr.ena ||| (1#32 <<< ch.toNat) } } := by
  have second : ∀ (m : Memory) (evs : List Event) (f : Word),
      rmwControl ch cwSize f { s with mem := m, hist := evs, csr := { s.csr with altsel := alt } } = .done ()
        { s with
          mem := writeWord m a' (insertField cwSize (readWord m a') f)
          hist := evs ++ [.memR a' (readWord m a'), .memW a' (insertField cwSize (readWord m a') f)]
          csr := { s.csr with altsel := alt } } := fun m evs f =>
    rmwControl_done (s := { s with mem := m, hist := evs, csr := { s.csr with altsel := alt } }) hb hc ha' hok'
  rw [startBody, hf]
  simp only
  rw [startFound, setmodeBody_done hb hc ha hok, bind_done, ← halt, ← hm, second, bind_done, armBody_eq, putBit_eq]
  simp

/-- START's body on a listed channel whose mode write memory refuses (R127): nothing is armed. -/
theorem startBody_raised {n : BitVec 16} {r : ConfigRecord} (hf : findRecord s.cfg ch = some r)
    (hb : s.csr.ctlbase.toNat % 1024 = 0) (hc : ch.toNat < 32) (ha : a = entaddr s ch (tgt s ch) .ctl)
    (hok : memOk s a = false) : startBody ch n s = .raised .memFault (BitVec.ofNat 32 a) s := by
  rw [startBody, hf]
  simp only
  rw [startFound, setmodeBody_raised hb hc ha hok, bind_raised, bind_raised]

end Bodies

/-- R94: a count of 1 to 1024 passes. -/
theorem countLegal_pass {α : Type} {op : Word} {n : BitVec 16} {s : State} {k : State → Result α} (h1 : 1 ≤ n.toNat)
    (h2 : n.toNat ≤ 1024) : countLegal op n s k = k s := by
  have h0 : n ≠ 0#16 := by rintro rfl; simp at h1
  simp [countLegal, h0, Nat.not_lt.mpr h2]

/-! ### The list INIT checks -/

/-- R91: a list whose every channel can be mapped passes the channel checks. -/
theorem recordViolation_none {rs : List ConfigRecord} (h : ∀ r ∈ rs, r.ch.toNat < 16) : recordViolation rs = none := by
  induction rs with
  | nil => rfl
  | cons r rs ih =>
    simp only [List.mem_cons, forall_eq_or_imp] at h
    have h32 : ¬ Config.nch ≤ r.ch.toNat := by simp only [Config.nch]; omega
    have h16 : ¬ Config.nmapch ≤ r.ch.toNat := by simp only [Config.nmapch]; omega
    simp [recordViolation, h32, h16, ih h.2]

/-- R91: a list that passes the channel checks has only channels that can be mapped. -/
theorem recordViolation_eq_none {rs : List ConfigRecord} (h : recordViolation rs = none) :
    ∀ r ∈ rs, r.ch.toNat < 16 := by
  induction rs with
  | nil => simp
  | cons r rs ih =>
    by_cases h32 : Config.nch ≤ r.ch.toNat
    · simp [recordViolation, h32] at h
    · by_cases h16 : Config.nmapch ≤ r.ch.toNat
      · simp [recordViolation, h32, h16] at h
      · simp only [recordViolation, if_neg h32, if_neg h16] at h
        simp only [Config.nmapch] at h16
        simp only [List.mem_cons, forall_eq_or_imp]
        exact ⟨by omega, ih h⟩

/-- R91: the first bad record decides. -/
theorem recordViolation_append {before after : List ConfigRecord} {r : ConfigRecord}
    (h : ∀ q ∈ before, q.ch.toNat < 16) :
    recordViolation (before ++ r :: after) = recordViolation (r :: after) := by
  induction before with
  | nil => rfl
  | cons q qs ih =>
    simp only [List.mem_cons, forall_eq_or_imp] at h
    have h32 : ¬ Config.nch ≤ q.ch.toNat := by simp only [Config.nch]; omega
    have h16 : ¬ Config.nmapch ≤ q.ch.toNat := by simp only [Config.nmapch]; omega
    rw [List.cons_append]
    simp [recordViolation, h32, h16] at ih ⊢
    exact ih h.2

/-- R78: the next multiple of `a` at or above `b`, from the distance to it. -/
theorem add_alignDistance {b a : Nat} (ha : 0 < a) : b + alignDistance b a = (b + a - 1) / a * a := by
  rw [alignDistance]
  have hlt := Nat.mod_lt b ha
  have hdiv := Nat.div_add_mod b a
  by_cases h0 : b % a = 0
  · rw [h0, Nat.sub_zero, Nat.mod_self, Nat.add_zero]
    have hb : b = b / a * a := by rw [Nat.mul_comm]; omega
    have : (b + a - 1) / a = b / a := by
      rw [Nat.div_eq_of_lt_le]
      · rw [← hb]; omega
      · rw [Nat.add_mul, ← hb]; omega
    rw [this, ← hb]
  · have hb : b = b / a * a + b % a := by rw [Nat.mul_comm]; omega
    rw [Nat.mod_eq_of_lt (by omega)]
    have : (b + a - 1) / a = b / a + 1 := by
      rw [Nat.div_eq_of_lt_le]
      · rw [Nat.add_mul]; omega
      · rw [Nat.add_mul, Nat.add_mul]; omega
    rw [this, Nat.add_mul]; omega

end Sys2Proof.Machine
end

