-- ==== Sys2Proof/Laws/PerInstr.lean ====
section
/-! SUPPORT. The per-instruction family `FillsItsRow`: the packet the encoder makes of a well-formed request matches the
request's row of the opcode map (spec 30_encoding.md R70) and has the row's number of argument words (R71). -/

namespace Sys2Proof.Laws

/-- The packet of a well-formed request matches a row: its opcode is listed, its "must be 0" bits are 0, and its
argument words are as many as the OP word says. -/
def FillsItsRow.Statement (i : Instr) : Prop :=
  i.wellFormed = true →
    ∃ o, Opcode.ofCode? (opcodeField (packetOf i).op) = some o ∧ (packetOf i).op &&& o.mask = o.matchWord ∧
      (packetOf i).args.length = o.argc (packetOf i).op

/-- The OP word matches its row when the channel byte and the low half-word respect the row's mask. -/
theorem opWordOf_matches {o : Opcode} {ch : BitVec 8} {lo : BitVec 16} {b : BitVec 8} {c : BitVec 16}
    (hmask : o.mask = (0xff#8 ++ b ++ c : BitVec 32)) (hm : o.matchWord = (o.code ++ 0#8 ++ 0#16 : BitVec 32))
    (hch : ch &&& b = 0#8) (hlo : lo &&& c = 0#16) : opWordOf o ch lo &&& o.mask = o.matchWord := by
  rw [hmask, opWordOf_and, hch, hlo, hm]
  cases o <;> rfl

/-- A low half-word whose high part is 0 respects a mask that covers only that part. -/
theorem zero_append_and {n : Nat} (k : Nat) (x : BitVec n) :
    (0#k ++ x : BitVec (k + n)) &&& (BitVec.allOnes k ++ 0#n) = 0#(k + n) := by
  rw [BitVec.and_append]
  simp

theorem low4 (x : BitVec 12) : (0#4 ++ x : BitVec 16) &&& 0xf000#16 = 0#16 := zero_append_and 4 x
theorem low8 (x : BitVec 8) : (0#8 ++ x : BitVec 16) &&& 0xff00#16 = 0#16 := zero_append_and 8 x
theorem low12 (x : BitVec 4) : (0#12 ++ x : BitVec 16) &&& 0xfff0#16 = 0#16 := zero_append_and 12 x

/-- The 6-bit count of INIT respects INIT's mask. -/
theorem count_and (n : Nat) : BitVec.ofNat 16 (n % 64) &&& 0xffc0#16 = 0#16 := by
  have h : ∀ k : Fin 64, BitVec.ofNat 16 k.val &&& 0xffc0#16 = 0#16 := by decide
  exact h ⟨n % 64, Nat.mod_lt _ (by decide)⟩

/-- The count of INIT reads back from its OP word. -/
theorem count_field (n : Nat) (h : n < 64) :
    ((opWordOf .init 0#8 (BitVec.ofNat 16 (n % 64))).extractLsb' 0 6).toNat = n := by
  rw [extract_opWordOf _ _ _ (by decide), Nat.mod_eq_of_lt h]
  have hk : ∀ k : Fin 64, ((BitVec.ofNat 16 k.val).extractLsb' 0 6).toNat = k.val := by decide
  exact hk ⟨n, h⟩

/-- A packet made by `opWordOf` fills the row of its opcode. -/
theorem fills {i : Instr} {o : Opcode} {ch : BitVec 8} {lo : BitVec 16} (hop : (packetOf i).op = opWordOf o ch lo)
    (hm : opWordOf o ch lo &&& o.mask = o.matchWord) (ha : (packetOf i).args.length = o.argc (opWordOf o ch lo)) :
    ∃ o, Opcode.ofCode? (opcodeField (packetOf i).op) = some o ∧ (packetOf i).op &&& o.mask = o.matchWord ∧
      (packetOf i).args.length = o.argc (packetOf i).op :=
  ⟨o, by rw [hop, opcodeField_opWordOf, Opcode.ofCode_code], by rw [hop, hm], by rw [hop, ha]⟩

theorem fills_read {i : Instr} {off : BitVec 12} (h : packetOf i = readPacket off) : FillsItsRow.Statement i :=
  fun _ => fills (o := .rd) (ch := 0#8) (lo := 0#4 ++ off) (by rw [h]; rfl)
    (opWordOf_matches (b := 0xff#8) (c := 0xf000#16) rfl rfl rfl (low4 off)) (by rw [h]; rfl)

theorem fills_write {i : Instr} {off : BitVec 12} {d : Word} (h : packetOf i = writePacket off d) :
    FillsItsRow.Statement i :=
  fun _ => fills (o := .wr) (ch := 0#8) (lo := 0#4 ++ off) (by rw [h]; rfl)
    (opWordOf_matches (b := 0xff#8) (c := 0xf000#16) rfl rfl rfl (low4 off)) (by rw [h]; rfl)

theorem FillsItsRow.locate (b n a t : Word) : FillsItsRow.Statement (.locate b n a t) :=
  fun _ => fills rfl (opWordOf_matches (b := 0xff#8) (c := 0xffff#16) rfl rfl rfl rfl) rfl

theorem FillsItsRow.tblchk (b : Word) : FillsItsRow.Statement (.tblchk b) :=
  fun _ => fills rfl (opWordOf_matches (b := 0xff#8) (c := 0xffff#16) rfl rfl rfl rfl) rfl

theorem FillsItsRow.tblrd (ch : BitVec 8) (h : Half) (w : EntryWord) : FillsItsRow.Statement (.tblrd ch h w) :=
  fun _ => fills rfl (opWordOf_matches (b := 0#8) (c := 0xfefc#16) rfl rfl BitVec.and_zero (by cases h <;> cases w <;> rfl)) rfl

theorem FillsItsRow.tblwr (ch : BitVec 8) (h : Half) (w : EntryWord) (d : Word) : FillsItsRow.Statement (.tblwr ch h w d) :=
  fun _ => fills rfl (opWordOf_matches (b := 0#8) (c := 0xfefc#16) rfl rfl BitVec.and_zero (by cases h <;> cases w <;> rfl)) rfl

theorem FillsItsRow.clkon : FillsItsRow.Statement .clkon :=
  fun _ => fills rfl (opWordOf_matches (b := 0xff#8) (c := 0xffff#16) rfl rfl rfl rfl) rfl

theorem FillsItsRow.setmap (ch enc : BitVec 8) : FillsItsRow.Statement (.setmap ch enc) :=
  fun _ => fills rfl (opWordOf_matches (b := 0#8) (c := 0xff00#16) rfl rfl BitVec.and_zero (low8 enc)) rfl

theorem FillsItsRow.setprio (ch : BitVec 8) (t : Tier) : FillsItsRow.Statement (.setprio ch t) :=
  fun _ => fills rfl (opWordOf_matches (b := 0#8) (c := 0xfffe#16) rfl rfl BitVec.and_zero (by cases t <;> rfl)) rfl

theorem FillsItsRow.setmode (ch : BitVec 8) (m : TransferMode) : FillsItsRow.Statement (.setmode ch m) :=
  fun _ => fills rfl (opWordOf_matches (b := 0#8) (c := 0xfff8#16) rfl rfl BitVec.and_zero (by cases m <;> rfl)) rfl

theorem FillsItsRow.setgran (ch : BitVec 8) (g : Granularity) : FillsItsRow.Statement (.setgran ch g) :=
  fun _ => fills rfl (opWordOf_matches (b := 0#8) (c := 0xfffe#16) rfl rfl BitVec.and_zero (by cases g <;> rfl)) rfl

theorem FillsItsRow.setarb (ch : BitVec 8) (a : BitVec 4) : FillsItsRow.Statement (.setarb ch a) :=
  fun _ => fills rfl (opWordOf_matches (b := 0#8) (c := 0xfff0#16) rfl rfl BitVec.and_zero (low12 a)) rfl

theorem FillsItsRow.unmask (ch : BitVec 8) : FillsItsRow.Statement (.unmask ch) :=
  fun _ => fills rfl (opWordOf_matches (b := 0#8) (c := 0xffff#16) rfl rfl BitVec.and_zero rfl) rfl

theorem FillsItsRow.init (rs : List ConfigRecord) : FillsItsRow.Statement (.init rs) :=
  fun h => fills rfl
    (opWordOf_matches (b := 0xff#8) (c := 0xffc0#16) rfl rfl rfl (count_and rs.length))
    (by
      simp only [Instr.wellFormed, recordCountFits, decide_eq_true_eq] at h
      simp only [packetOf, List.length_map, Opcode.argc, count_field rs.length h])

theorem FillsItsRow.cfgsrc (ch : BitVec 8) (i : Increment) (z : ItemSize) (e : Word) : FillsItsRow.Statement (.cfgsrc ch i z e) :=
  fun _ => fills rfl (opWordOf_matches (b := 0#8) (c := 0xfff0#16) rfl rfl BitVec.and_zero (by cases i <;> cases z <;> rfl)) rfl

theorem FillsItsRow.cfgdst (ch : BitVec 8) (i : Increment) (z : ItemSize) (e : Word) : FillsItsRow.Statement (.cfgdst ch i z e) :=
  fun _ => fills rfl (opWordOf_matches (b := 0#8) (c := 0xfff0#16) rfl rfl BitVec.and_zero (by cases i <;> cases z <;> rfl)) rfl

theorem FillsItsRow.start (ch : BitVec 8) (n : BitVec 16) : FillsItsRow.Statement (.start ch n) :=
  fun _ => fills rfl (opWordOf_matches (b := 0#8) (c := 0#16) rfl rfl BitVec.and_zero BitVec.and_zero) rfl

theorem FillsItsRow.rdStat : FillsItsRow.Statement .rdStat :=
  fills_read rfl

theorem FillsItsRow.wrStat (d : Word) : FillsItsRow.Statement (.wrStat d) :=
  fills_write rfl

theorem FillsItsRow.rdCfg : FillsItsRow.Statement .rdCfg :=
  fills_read rfl

theorem FillsItsRow.wrCfg (d : Word) : FillsItsRow.Statement (.wrCfg d) :=
  fills_write rfl

theorem FillsItsRow.rdCtlbase : FillsItsRow.Statement .rdCtlbase :=
  fills_read rfl

theorem FillsItsRow.wrCtlbase (d : Word) : FillsItsRow.Statement (.wrCtlbase d) :=
  fills_write rfl

theorem FillsItsRow.rdAltbase : FillsItsRow.Statement .rdAltbase :=
  fills_read rfl

theorem FillsItsRow.wrAltbase (d : Word) : FillsItsRow.Statement (.wrAltbase d) :=
  fills_write rfl

theorem FillsItsRow.rdWaitstat : FillsItsRow.Statement .rdWaitstat :=
  fills_read rfl

theorem FillsItsRow.wrWaitstat (d : Word) : FillsItsRow.Statement (.wrWaitstat d) :=
  fills_write rfl

theorem FillsItsRow.rdSwreq : FillsItsRow.Statement .rdSwreq :=
  fills_read rfl

theorem FillsItsRow.wrSwreq (d : Word) : FillsItsRow.Statement (.wrSwreq d) :=
  fills_write rfl

theorem FillsItsRow.rdUseburstset : FillsItsRow.Statement .rdUseburstset :=
  fills_read rfl

theorem FillsItsRow.wrUseburstset (d : Word) : FillsItsRow.Statement (.wrUseburstset d) :=
  fills_write rfl

theorem FillsItsRow.rdUseburstclr : FillsItsRow.Statement .rdUseburstclr :=
  fills_read rfl

theorem FillsItsRow.wrUseburstclr (d : Word) : FillsItsRow.Statement (.wrUseburstclr d) :=
  fills_write rfl

theorem FillsItsRow.rdReqmaskset : FillsItsRow.Statement .rdReqmaskset :=
  fills_read rfl

theorem FillsItsRow.wrReqmaskset (d : Word) : FillsItsRow.Statement (.wrReqmaskset d) :=
  fills_write rfl

theorem FillsItsRow.rdReqmaskclr : FillsItsRow.Statement .rdReqmaskclr :=
  fills_read rfl

theorem FillsItsRow.wrReqmaskclr (d : Word) : FillsItsRow.Statement (.wrReqmaskclr d) :=
  fills_write rfl

theorem FillsItsRow.rdEnaset : FillsItsRow.Statement .rdEnaset :=
  fills_read rfl

theorem FillsItsRow.wrEnaset (d : Word) : FillsItsRow.Statement (.wrEnaset d) :=
  fills_write rfl

theorem FillsItsRow.rdEnaclr : FillsItsRow.Statement .rdEnaclr :=
  fills_read rfl

theorem FillsItsRow.wrEnaclr (d : Word) : FillsItsRow.Statement (.wrEnaclr d) :=
  fills_write rfl

theorem FillsItsRow.rdAltset : FillsItsRow.Statement .rdAltset :=
  fills_read rfl

theorem FillsItsRow.wrAltset (d : Word) : FillsItsRow.Statement (.wrAltset d) :=
  fills_write rfl

theorem FillsItsRow.rdAltclr : FillsItsRow.Statement .rdAltclr :=
  fills_read rfl

theorem FillsItsRow.wrAltclr (d : Word) : FillsItsRow.Statement (.wrAltclr d) :=
  fills_write rfl

theorem FillsItsRow.rdPrioset : FillsItsRow.Statement .rdPrioset :=
  fills_read rfl

theorem FillsItsRow.wrPrioset (d : Word) : FillsItsRow.Statement (.wrPrioset d) :=
  fills_write rfl

theorem FillsItsRow.rdPrioclr : FillsItsRow.Statement .rdPrioclr :=
  fills_read rfl

theorem FillsItsRow.wrPrioclr (d : Word) : FillsItsRow.Statement (.wrPrioclr d) :=
  fills_write rfl

theorem FillsItsRow.rdErrclr : FillsItsRow.Statement .rdErrclr :=
  fills_read rfl

theorem FillsItsRow.wrErrclr (d : Word) : FillsItsRow.Statement (.wrErrclr d) :=
  fills_write rfl

theorem FillsItsRow.rdChasgn : FillsItsRow.Statement .rdChasgn :=
  fills_read rfl

theorem FillsItsRow.wrChasgn (d : Word) : FillsItsRow.Statement (.wrChasgn d) :=
  fills_write rfl

theorem FillsItsRow.rdChmap0 : FillsItsRow.Statement .rdChmap0 :=
  fills_read rfl

theorem FillsItsRow.wrChmap0 (d : Word) : FillsItsRow.Statement (.wrChmap0 d) :=
  fills_write rfl

theorem FillsItsRow.rdChmap1 : FillsItsRow.Statement .rdChmap1 :=
  fills_read rfl

theorem FillsItsRow.wrChmap1 (d : Word) : FillsItsRow.Statement (.wrChmap1 d) :=
  fills_write rfl

theorem FillsItsRow.rdChmap2 : FillsItsRow.Statement .rdChmap2 :=
  fills_read rfl

theorem FillsItsRow.wrChmap2 (d : Word) : FillsItsRow.Statement (.wrChmap2 d) :=
  fills_write rfl

theorem FillsItsRow.rdChmap3 : FillsItsRow.Statement .rdChmap3 :=
  fills_read rfl

theorem FillsItsRow.wrChmap3 (d : Word) : FillsItsRow.Statement (.wrChmap3 d) :=
  fills_write rfl

theorem FillsItsRow.rd (off : BitVec 12) : FillsItsRow.Statement (.rd off) :=
  fills_read rfl

theorem FillsItsRow.wr (off : BitVec 12) (d : Word) : FillsItsRow.Statement (.wr off d) :=
  fills_write rfl

end Sys2Proof.Laws
end

