-- ==== Sys2Proof/Tests/Slice0.lean ====
section
/-! SUPPORT. The author's tests, all named theorems. The expected values of the decoding and one-step tests come from
spec 95_test_vectors.md (the vector is named) or are computed by hand from the rule named; the witnesses show, for each
statement with hypotheses, concrete states and operands that meet them. -/

namespace Sys2Proof.Tests

open Sys2Proof Sys2Proof.Machine

/-! ### Helpers -/

/-- The next state of an outcome. -/
def nextState (o : Host.Outcome State Fault Refusal) : Option State :=
  match o with
  | .next t => some t
  | .fault _ => none
  | .refused _ => none

/-- One request executed. -/
def after (i : Instr) (s : State) : Option State := nextState (exec i s)

/-- The status and value of the last response of a state. -/
def lastResponse (s : State) : Option (Byte × Word) :=
  match s.hist.getLast? with
  | some (.resp _ status v) => some (status, v)
  | _ => none

/-- What the request answers. -/
def answer (i : Instr) (s : State) : Option (Byte × Word) := (after i s).bind lastResponse

/-- What the decoder reads from the words of one packet. -/
def decoded (ws : List Word) : Option Instr :=
  match framePacket ws with
  | some (p, []) => (decode p).toOption
  | _ => none

/-- Reset with "all memory zero", the start state of the vectors of 95_test_vectors.md. -/
def zeroed : State := { State.reset with mem := { powerOn := .filled 0, cells := [] } }

/-- "Clocked" of 95_test_vectors.md. -/
def clockedState : State := { zeroed with sys := { clkEn := true, pwrOk := true } }

/-- A state with a table base programmed. -/
def based (base : Word) : State :=
  { clockedState with csr := { Csr.reset with ctlbase := base, ctlbaseWritten := true } }

/-- "Ready" of 95_test_vectors.md. -/
def ready : State := based 0x20000400#32

/-- The state with a word stored. -/
def withWord (a : Nat) (v : Word) (s : State) : State := { s with mem := writeWord s.mem a v }

/-- The state with other registers. -/
def withCsr (f : Csr → Csr) (s : State) : State := { s with csr := f s.csr }

/-- The state with words on the port. -/
def sent (ws : List Word) (s : State) : State := { s with port := ws }

/-- The state whose memory refuses one word. -/
def refusing (a : Nat) (s : State) : State := { s with par := { s.par with memRefused := [⟨a, 4⟩] } }

/-- Zeroed memory that refuses one word, under the alternative reading of R48. -/
def selecting (a : Nat) : State :=
  { zeroed with par := { zeroed.par with fieldTarget := .selected, memRefused := [⟨a, 4⟩] } }

/-- The state with a fault latched. -/
def faultedState : State := { State.reset with flt := { code := 10#8, info := 0x01000028#32, op := 0x01000028#32 } }

/-- The records of P1 of 95_test_vectors.md. -/
def record8 : ConfigRecord := ⟨8#8, 1#8, .high, .basic, .single, 4#4⟩
/-- The second record of P1. -/
def record9 : ConfigRecord := ⟨9#8, 2#8, .default, .auto, .burst, 3#4⟩

/-- "Inited", as far as START looks at it: the list and the base of P1. -/
def inited : State := { withWord 0x20000488 0x00010001#32 ready with cfg := { list := [record8, record9], valid := true } }

/-! ### Memory at power-on -/

/-- R138, R141: after reset nothing is known of any byte. -/
theorem test_reset_memory_is_free (a : Nat) : readByte State.reset.mem a = Config.mem0 a := rfl
/-- R40, R124: storing what the byte held at power-on lists nothing. -/
theorem test_write_of_the_power_on_byte : (writeByte { powerOn := .filled 7, cells := [] } 5 7#8).cells = [] := by decide

/-! ### WellFormed refuses ill-formed terms -/

theorem test_init_of_64_records_ill_formed : (Instr.init (List.replicate 64 record8)).wellFormed = false := by decide
theorem test_init_of_63_records_well_formed : (Instr.init (List.replicate 63 record8)).wellFormed = true := by decide
theorem test_rd_of_a_mapped_offset_ill_formed : (Instr.rd 0x028#12).wellFormed = false := by decide
theorem test_wr_of_a_mapped_offset_ill_formed : (Instr.wr 0x51c#12 0#32).wellFormed = false := by decide
theorem test_rd_of_a_hole_well_formed : (Instr.rd 0x040#12).wellFormed = true := by decide
theorem test_wr_of_a_misaligned_offset_well_formed : (Instr.wr 0x029#12 1#32).wellFormed = true := by decide

/-! ### Every constructor's decoding, from words written out by R69, R70, R44 -/

/-- R70, the four argument words in order (V1). -/
theorem test_decode_locate :
    decoded [0x10000000#32, 0x20000123#32, 0x7ff#32, 0x400#32, 0x401#32] = some (.locate 0x20000123#32 0x7ff#32 0x400#32 0x401#32) := by decide
/-- V22. -/
theorem test_decode_tblchk :
    decoded [0x11000000#32, 0x20000400#32] = some (.tblchk 0x20000400#32) := by decide
/-- V26. -/
theorem test_decode_tblrd :
    decoded [0x081f0002#32] = some (.tblrd 31#8 .pri .ctl) := by decide
/-- V27. -/
theorem test_decode_tblwr :
    decoded [0x091f0103#32, 0xdeadbeef#32] = some (.tblwr 31#8 .alt .rsv 0xdeadbeef#32) := by decide
/-- V60a. -/
theorem test_decode_clkon :
    decoded [0x26000000#32] = some (.clkon) := by decide
/-- V32. -/
theorem test_decode_setmap :
    decoded [0x200f0080#32] = some (.setmap 15#8 0x80#8) := by decide
/-- V42. -/
theorem test_decode_setprio :
    decoded [0x211f0001#32] = some (.setprio 31#8 .high) := by decide
/-- V44, mode 6. -/
theorem test_decode_setmode :
    decoded [0x22080006#32] = some (.setmode 8#8 .persg) := by decide
/-- V50. -/
theorem test_decode_setgran :
    decoded [0x23080001#32] = some (.setgran 8#8 .burst) := by decide
/-- V54. -/
theorem test_decode_setarb :
    decoded [0x2408000f#32] = some (.setarb 8#8 15#4) := by decide
/-- V58. -/
theorem test_decode_unmask :
    decoded [0x25090000#32] = some (.unmask 9#8) := by decide
/-- P1, V91. -/
theorem test_decode_init :
    decoded [0x30000002#32, 0x00830108#32, 0x00740209#32] = some (.init [record8, record9]) := by decide
/-- V63. -/
theorem test_decode_cfgsrc :
    decoded [0x31080009#32, 0x3000#32] = some (.cfgsrc 8#8 .incword .half 0x3000#32) := by decide
/-- V64. -/
theorem test_decode_cfgdst :
    decoded [0x3208000d#32, 0x40004000#32] = some (.cfgdst 8#8 .noinc .half 0x40004000#32) := by decide
/-- V71. -/
theorem test_decode_start :
    decoded [0x33080400#32] = some (.start 8#8 1024#16) := by decide
theorem test_decode_rdStat : decoded [0x01000000#32] = some .rdStat := by decide
theorem test_decode_wrStat : decoded [0x02000000#32, 0x04030201#32] = some (.wrStat 0x04030201#32) := by decide
theorem test_decode_rdCfg : decoded [0x01000004#32] = some .rdCfg := by decide
theorem test_decode_wrCfg : decoded [0x02000004#32, 0x04030201#32] = some (.wrCfg 0x04030201#32) := by decide
theorem test_decode_rdCtlbase : decoded [0x01000008#32] = some .rdCtlbase := by decide
theorem test_decode_wrCtlbase : decoded [0x02000008#32, 0x04030201#32] = some (.wrCtlbase 0x04030201#32) := by decide
theorem test_decode_rdAltbase : decoded [0x0100000c#32] = some .rdAltbase := by decide
theorem test_decode_wrAltbase : decoded [0x0200000c#32, 0x04030201#32] = some (.wrAltbase 0x04030201#32) := by decide
theorem test_decode_rdWaitstat : decoded [0x01000010#32] = some .rdWaitstat := by decide
theorem test_decode_wrWaitstat : decoded [0x02000010#32, 0x04030201#32] = some (.wrWaitstat 0x04030201#32) := by decide
theorem test_decode_rdSwreq : decoded [0x01000014#32] = some .rdSwreq := by decide
theorem test_decode_wrSwreq : decoded [0x02000014#32, 0x04030201#32] = some (.wrSwreq 0x04030201#32) := by decide
theorem test_decode_rdUseburstset : decoded [0x01000018#32] = some .rdUseburstset := by decide
theorem test_decode_wrUseburstset : decoded [0x02000018#32, 0x04030201#32] = some (.wrUseburstset 0x04030201#32) := by decide
theorem test_decode_rdUseburstclr : decoded [0x0100001c#32] = some .rdUseburstclr := by decide
theorem test_decode_wrUseburstclr : decoded [0x0200001c#32, 0x04030201#32] = some (.wrUseburstclr 0x04030201#32) := by decide
theorem test_decode_rdReqmaskset : decoded [0x01000020#32] = some .rdReqmaskset := by decide
theorem test_decode_wrReqmaskset : decoded [0x02000020#32, 0x04030201#32] = some (.wrReqmaskset 0x04030201#32) := by decide
theorem test_decode_rdReqmaskclr : decoded [0x01000024#32] = some .rdReqmaskclr := by decide
theorem test_decode_wrReqmaskclr : decoded [0x02000024#32, 0x04030201#32] = some (.wrReqmaskclr 0x04030201#32) := by decide
theorem test_decode_rdEnaset : decoded [0x01000028#32] = some .rdEnaset := by decide
theorem test_decode_wrEnaset : decoded [0x02000028#32, 0x04030201#32] = some (.wrEnaset 0x04030201#32) := by decide
theorem test_decode_rdEnaclr : decoded [0x0100002c#32] = some .rdEnaclr := by decide
theorem test_decode_wrEnaclr : decoded [0x0200002c#32, 0x04030201#32] = some (.wrEnaclr 0x04030201#32) := by decide
theorem test_decode_rdAltset : decoded [0x01000030#32] = some .rdAltset := by decide
theorem test_decode_wrAltset : decoded [0x02000030#32, 0x04030201#32] = some (.wrAltset 0x04030201#32) := by decide
theorem test_decode_rdAltclr : decoded [0x01000034#32] = some .rdAltclr := by decide
theorem test_decode_wrAltclr : decoded [0x02000034#32, 0x04030201#32] = some (.wrAltclr 0x04030201#32) := by decide
theorem test_decode_rdPrioset : decoded [0x01000038#32] = some .rdPrioset := by decide
theorem test_decode_wrPrioset : decoded [0x02000038#32, 0x04030201#32] = some (.wrPrioset 0x04030201#32) := by decide
theorem test_decode_rdPrioclr : decoded [0x0100003c#32] = some .rdPrioclr := by decide
theorem test_decode_wrPrioclr : decoded [0x0200003c#32, 0x04030201#32] = some (.wrPrioclr 0x04030201#32) := by decide
theorem test_decode_rdErrclr : decoded [0x0100004c#32] = some .rdErrclr := by decide
theorem test_decode_wrErrclr : decoded [0x0200004c#32, 0x04030201#32] = some (.wrErrclr 0x04030201#32) := by decide
theorem test_decode_rdChasgn : decoded [0x01000500#32] = some .rdChasgn := by decide
theorem test_decode_wrChasgn : decoded [0x02000500#32, 0x04030201#32] = some (.wrChasgn 0x04030201#32) := by decide
theorem test_decode_rdChmap0 : decoded [0x01000510#32] = some .rdChmap0 := by decide
theorem test_decode_wrChmap0 : decoded [0x02000510#32, 0x04030201#32] = some (.wrChmap0 0x04030201#32) := by decide
theorem test_decode_rdChmap1 : decoded [0x01000514#32] = some .rdChmap1 := by decide
theorem test_decode_wrChmap1 : decoded [0x02000514#32, 0x04030201#32] = some (.wrChmap1 0x04030201#32) := by decide
theorem test_decode_rdChmap2 : decoded [0x01000518#32] = some .rdChmap2 := by decide
theorem test_decode_wrChmap2 : decoded [0x02000518#32, 0x04030201#32] = some (.wrChmap2 0x04030201#32) := by decide
theorem test_decode_rdChmap3 : decoded [0x0100051c#32] = some .rdChmap3 := by decide
theorem test_decode_wrChmap3 : decoded [0x0200051c#32, 0x04030201#32] = some (.wrChmap3 0x04030201#32) := by decide
/-- V131. -/
theorem test_decode_rd : decoded [0x01000040#32] = some (.rd 0x040#12) := by decide
/-- V132. -/
theorem test_decode_wr : decoded [0x02000029#32, 1#32] = some (.wr 0x029#12 1#32) := by decide

/-! ### What the decoder rejects -/

/-- V29b, V36, V43b, V45, V55, V59, V60c, V69, V133: a bit that must be 0. -/
theorem test_must_be_zero_bits_rejected :
    decoded [0x08080004#32] = none ∧ decoded [0x20080100#32] = none ∧ decoded [0x21080002#32] = none ∧
    decoded [0x22080008#32] = none ∧ decoded [0x24080010#32] = none ∧ decoded [0x25080001#32] = none ∧
    decoded [0x26000001#32] = none ∧ decoded [0x31080012#32, 0#32] = none ∧ decoded [0x01100028#32] = none := by
  decide
/-- V134, V135: reserved opcodes. -/
theorem test_reserved_opcodes_rejected : decoded [0#32] = none ∧ decoded [0x34000000#32] = none := by decide
/-- R68: bits [31:25] of a record word. -/
theorem test_record_bits_rejected : decoded [0x30000001#32, 0x02830108#32] = none := by decide

/-! ### One step on a small state -/

/-- V1. -/
theorem test_locate_block_table : answer (.locate 0x20000123#32 2047#32 1024#32 1024#32) State.reset = some (0#8, 0x20000400#32) := by decide
/-- V12. -/
theorem test_locate_overrun : answer (.locate 7#32 12#32 10#32 10#32) State.reset = some (15#8, 10#32) := by decide
/-- V23. -/
theorem test_tblchk_half_aligned : answer (.tblchk 0x20000200#32) State.reset = some (0#8, 0#32) := by decide
/-- V21. -/
theorem test_tblchk_top : answer (.tblchk 0xfffffc00#32) State.reset = some (0#8, 1#32) := by decide
/-- V26. -/
theorem test_tblrd_last_channel : answer (.tblrd 31#8 .pri .ctl) (withWord 0x200005f8 0x12345678#32 ready) = some (0#8, 0x12345678#32) := by decide
/-- V29e. -/
theorem test_tblrd_channel_before_clock : answer (.tblrd 32#8 .pri .ctl) State.reset = some (4#8, 32#32) := by decide
/-- V27. -/
theorem test_tblwr_last_word : (after (.tblwr 31#8 .alt .rsv 0xdeadbeef#32) ready).map (fun t => readWord t.mem 0x200007fc) = some (0xdeadbeef#32) := by decide
/-- V28: the highest table address, no wrap. -/
theorem test_tblwr_top_of_memory : (after (.tblwr 31#8 .alt .rsv 1#32) (based 0xfffffc00#32)).map (fun t => t.mem.cells) = some [(0xfffffffc, 1#8)] := by decide
/-- V60a. -/
theorem test_clkon_from_reset : (after (.clkon) State.reset).map (fun t => (t.sys, t.hist.tail)) = some (⟨true, true⟩, [.clkSet, .settle, .resp 0 0#8 0#32]) := by decide
/-- V60b. -/
theorem test_clkon_again : (after (.clkon) clockedState).map (fun t => t.hist.tail) = some ([.settle, .resp 0 0#8 0#32]) := by decide
/-- V33. -/
theorem test_setmap_ors : (after (.setmap 9#8 2#8) (withCsr (fun c => { c with chmap2 := 0x100#32 }) clockedState)).map (fun t => t.csr.chmap2) = some (0x300#32) := by decide
/-- V37. -/
theorem test_setmap_unmapped_channel : answer (.setmap 16#8 1#8) State.reset = some (5#8, 16#32) := by decide
/-- V40. -/
theorem test_setprio_high : (after (.setprio 8#8 .high) (withCsr (fun c => { c with prio := 0x200#32 }) clockedState)).map (fun t => t.csr.prio) = some (0x300#32) := by decide
/-- V41. -/
theorem test_setprio_default : (after (.setprio 8#8 .default) (withCsr (fun c => { c with prio := 0x300#32 }) clockedState)).map (fun t => t.csr.prio) = some (0x200#32) := by decide
/-- V44, mode 2. -/
theorem test_setmode_auto : (after (.setmode 8#8 .auto) (withCsr (fun c => { c with altsel := 0xffffffff#32 }) (withWord 0x20000488 0xaa0103f0#32 ready))).map (fun t => (readWord t.mem 0x20000488, t.csr.altsel)) = some (0xaa0103f2#32, 0xfffffeff#32) := by decide
/-- V44, mode 3. -/
theorem test_setmode_pingpong : (after (.setmode 8#8 .pingpong) (withWord 0x20000488 0xaa0103f0#32 ready)).map (fun t => (readWord t.mem 0x20000488, t.csr.altsel)) = some (0xaa0103f3#32, 0x100#32) := by decide
/-- V50. -/
theorem test_setgran_burst : (after (.setgran 8#8 .burst) clockedState).map (fun t => t.csr.useburst) = some (0x100#32) := by decide
/-- V51. -/
theorem test_setgran_single : (after (.setgran 8#8 .single) (withCsr (fun c => { c with useburst := 0x100#32 }) clockedState)).map (fun t => t.csr.useburst) = some (0#32) := by decide
/-- V53. -/
theorem test_setarb_zero : (after (.setarb 8#8 0#4) (withWord 0x20000488 0xffffffff#32 ready)).map (fun t => readWord t.mem 0x20000488) = some (0xfffc3fff#32) := by decide
/-- V52. -/
theorem test_setarb_four : (after (.setarb 8#8 4#4) (withWord 0x20000488 1#32 ready)).map (fun t => readWord t.mem 0x20000488) = some (0x00010001#32) := by decide
/-- V58. -/
theorem test_unmask : (after (.unmask 9#8) (withCsr (fun c => { c with reqmask := 0xfffffeff#32 }) clockedState)).map (fun t => t.csr.reqmask) = some (0xfffffcff#32) := by decide
/-- P1. -/
theorem test_init_registers : (after (.init [record8, record9]) State.reset).map (fun t => (t.csr.ctlbase, t.csr.chmap2, t.csr.prio, t.csr.useburst, t.cfg.valid)) = some (0x20000400#32, 0x201#32, 0x100#32, 0x200#32, true) := by decide
/-- P1. -/
theorem test_init_control_words : (after (.init [record8, record9]) zeroed).map (fun t => (readWord t.mem 0x20000488, readWord t.mem 0x20000498)) = some (0x00010001#32, 0xc002#32) := by decide
/-- V61. -/
theorem test_cfgsrc_clears_its_four_bits : (after (.cfgsrc 8#8 .incbyte .byte 0x1000#32) (withWord 0x20000488 0xffffffff#32 ready)).map (fun t => (readWord t.mem 0x20000480, readWord t.mem 0x20000488)) = some (0x1000#32, 0xf0ffffff#32) := by decide
/-- V67. -/
theorem test_cfgsrc_size_before_clock : answer (.cfgsrc 8#8 .incbyte .reserved 0#32) State.reset = some (6#8, 3#32) := by decide
/-- V62. -/
theorem test_cfgdst_word_inchalf : (after (.cfgdst 8#8 .inchalf .word 0x2000#32) ready).map (fun t => (readWord t.mem 0x20000484, readWord t.mem 0x20000488)) = some (0x2000#32, 0x60000000#32) := by decide
/-- V64. -/
theorem test_cfgdst_noinc : (after (.cfgdst 8#8 .noinc .half 0x40004000#32) ready).map (fun t => (readWord t.mem 0x20000484, readWord t.mem 0x20000488)) = some (0x40004000#32, 0xd0000000#32) := by decide
/-- V71. -/
theorem test_start_largest_count : (after (.start 8#8 1024#16) inited).map (fun t => (readWord t.mem 0x20000488, t.csr.ena)) = some (0x00013ff1#32, 0x100#32) := by decide
/-- V73. -/
theorem test_start_of_an_unlisted_channel : (after (.start 5#8 8#16) (withWord 0x20000458 0xdeadbeef#32 inited)).map (fun t => (readWord t.mem 0x20000458, t.csr.ena)) = some (0xdeadbeef#32, 0x20#32) := by decide
/-- R98, V100: STAT answers OK with a value the model leaves free, and only the history, the count and the draws move. -/
theorem test_rdStat : (after .rdStat clockedState).map (fun t => (t.csr, t.mem, t.seq, t.draws)) = some (Csr.reset, clockedState.mem, 1, 1) := by decide
/-- R102: WAITSTAT likewise. -/
theorem test_rdWaitstat : (after .rdWaitstat clockedState).map (fun t => (t.csr, t.mem, t.seq, t.draws)) = some (Csr.reset, clockedState.mem, 1, 1) := by decide
/-- V101. -/
theorem test_wrStat : answer (.wrStat 0#32) clockedState = some (3#8, 0#32) := by decide
/-- V102. -/
theorem test_rdCfg : answer (.rdCfg) (withCsr (fun c => { c with masten := true }) clockedState) = some (0#8, 1#32) := by decide
/-- V102. -/
theorem test_wrCfg : (after (.wrCfg 1#32) clockedState).map (fun t => t.csr.masten) = some (true) := by decide
/-- V103. -/
theorem test_wrCfg_before_clock : answer (.wrCfg 3#32) State.reset = some (6#8, 3#32) := by decide
/-- R100. -/
theorem test_rdCtlbase : answer (.rdCtlbase) ready = some (0#8, 0x20000400#32) := by decide
/-- V105. -/
theorem test_wrCtlbase : (after (.wrCtlbase 0x20000400#32) clockedState).map (fun t => (t.csr.ctlbase, t.csr.ctlbaseWritten)) = some (0x20000400#32, true) := by decide
/-- V109. -/
theorem test_wrCtlbase_align_before_rewrite : answer (.wrCtlbase 0x20000801#32) ready = some (12#8, 0x20000801#32) := by decide
/-- V112. -/
theorem test_rdAltbase : answer (.rdAltbase) (based 0xfffffc00#32) = some (0#8, 0xfffffe00#32) := by decide
/-- V113. -/
theorem test_wrAltbase : answer (.wrAltbase 0#32) clockedState = some (3#8, 0x0c#32) := by decide
/-- V114. -/
theorem test_wrWaitstat : answer (.wrWaitstat 0#32) clockedState = some (3#8, 0x10#32) := by decide
/-- V115. -/
theorem test_rdSwreq : answer (.rdSwreq) State.reset = some (3#8, 0x14#32) := by decide
/-- V116. -/
theorem test_wrSwreq : (after (.wrSwreq 0x101#32) clockedState).map (fun t => (t.csr, t.hist.tail)) = some (Csr.reset, [.swReq 0, .swReq 8, .resp 0 0#8 0#32]) := by decide
/-- V117. -/
theorem test_wrUseburstset : (after (.wrUseburstset 3#32) (withCsr (fun c => { c with useburst := 0x200#32 }) clockedState)).map (fun t => t.csr.useburst) = some (0x203#32) := by decide
/-- R96: the register's value. -/
theorem test_rdUseburstset : answer (.rdUseburstset) (withCsr (fun c => { c with useburst := 0x200#32 }) clockedState) = some (0#8, 0x200#32) := by decide
/-- V118. -/
theorem test_wrUseburstclr : (after (.wrUseburstclr 0x201#32) (withCsr (fun c => { c with useburst := 0x203#32 }) clockedState)).map (fun t => t.csr.useburst) = some (0x2#32) := by decide
/-- R96: the register's value. -/
theorem test_rdUseburstclr : answer (.rdUseburstclr) (withCsr (fun c => { c with useburst := 0x203#32 }) clockedState) = some (0#8, 0x203#32) := by decide
/-- R106, R26. -/
theorem test_wrReqmaskset : (after (.wrReqmaskset 0x1#32) (withCsr (fun c => { c with reqmask := 0x10#32 }) clockedState)).map (fun t => t.csr.reqmask) = some (0x11#32) := by decide
/-- R96: the register's value. -/
theorem test_rdReqmaskset : answer (.rdReqmaskset) (withCsr (fun c => { c with reqmask := 0x10#32 }) clockedState) = some (0#8, 0x10#32) := by decide
/-- V120. -/
theorem test_wrReqmaskclr : (after (.wrReqmaskclr 0x100#32) (withCsr (fun c => { c with reqmask := 0xffffffff#32 }) clockedState)).map (fun t => t.csr.reqmask) = some (0xfffffeff#32) := by decide
/-- R96: the register's value. -/
theorem test_rdReqmaskclr : answer (.rdReqmaskclr) (withCsr (fun c => { c with reqmask := 0xffffffff#32 }) clockedState) = some (0#8, 0xffffffff#32) := by decide
/-- R108, R26. -/
theorem test_wrEnaset : (after (.wrEnaset 0x20#32) (withCsr (fun c => { c with ena := 0x100#32 }) clockedState)).map (fun t => t.csr.ena) = some (0x120#32) := by decide
/-- R96: the register's value. -/
theorem test_rdEnaset : answer (.rdEnaset) (withCsr (fun c => { c with ena := 0x100#32 }) clockedState) = some (0#8, 0x100#32) := by decide
/-- V122. -/
theorem test_wrEnaclr : (after (.wrEnaclr 0x20#32) (withCsr (fun c => { c with ena := 0x120#32 }) clockedState)).map (fun t => t.csr.ena) = some (0x100#32) := by decide
/-- R96: the register's value. -/
theorem test_rdEnaclr : answer (.rdEnaclr) (withCsr (fun c => { c with ena := 0x120#32 }) clockedState) = some (0#8, 0x120#32) := by decide
/-- R110, R26. -/
theorem test_wrAltset : (after (.wrAltset 0x400#32) (withCsr (fun c => { c with altsel := 0x1#32 }) clockedState)).map (fun t => t.csr.altsel) = some (0x401#32) := by decide
/-- R96: the register's value. -/
theorem test_rdAltset : answer (.rdAltset) (withCsr (fun c => { c with altsel := 0x1#32 }) clockedState) = some (0#8, 0x1#32) := by decide
/-- R111, R26. -/
theorem test_wrAltclr : (after (.wrAltclr 0x400#32) (withCsr (fun c => { c with altsel := 0x401#32 }) clockedState)).map (fun t => t.csr.altsel) = some (0x1#32) := by decide
/-- R96: the register's value. -/
theorem test_rdAltclr : answer (.rdAltclr) (withCsr (fun c => { c with altsel := 0x401#32 }) clockedState) = some (0#8, 0x401#32) := by decide
/-- R112, R26. -/
theorem test_wrPrioset : (after (.wrPrioset 0x100#32) (withCsr (fun c => { c with prio := 0x1#32 }) clockedState)).map (fun t => t.csr.prio) = some (0x101#32) := by decide
/-- R96: the register's value. -/
theorem test_rdPrioset : answer (.rdPrioset) (withCsr (fun c => { c with prio := 0x1#32 }) clockedState) = some (0#8, 0x1#32) := by decide
/-- R113, R26. -/
theorem test_wrPrioclr : (after (.wrPrioclr 0x100#32) (withCsr (fun c => { c with prio := 0x101#32 }) clockedState)).map (fun t => t.csr.prio) = some (0x1#32) := by decide
/-- R96: the register's value. -/
theorem test_rdPrioclr : answer (.rdPrioclr) (withCsr (fun c => { c with prio := 0x101#32 }) clockedState) = some (0#8, 0x101#32) := by decide
/-- R114. -/
theorem test_wrErrclr : (after (.wrErrclr 0x100#32) (withCsr (fun c => { c with err := 0x101#32 }) clockedState)).map (fun t => t.csr.err) = some (0x1#32) := by decide
/-- R96: the register's value. -/
theorem test_rdErrclr : answer (.rdErrclr) (withCsr (fun c => { c with err := 0x101#32 }) clockedState) = some (0#8, 0x101#32) := by decide
/-- V128. -/
theorem test_wrChasgn : (after (.wrChasgn 0xffff#32) (withCsr (fun c => { c with chasgn := 0x5#32 }) clockedState)).map (fun t => t.csr.chasgn) = some (0xffff#32) := by decide
/-- R96: the register's value. -/
theorem test_rdChasgn : answer (.rdChasgn) (withCsr (fun c => { c with chasgn := 0x5#32 }) clockedState) = some (0#8, 0x5#32) := by decide
/-- R116. -/
theorem test_wrChmap0 : (after (.wrChmap0 0xffff#32) (withCsr (fun c => { c with chmap0 := 0x5#32 }) clockedState)).map (fun t => t.csr.chmap0) = some (0xffff#32) := by decide
/-- R96: the register's value. -/
theorem test_rdChmap0 : answer (.rdChmap0) (withCsr (fun c => { c with chmap0 := 0x5#32 }) clockedState) = some (0#8, 0x5#32) := by decide
/-- V129: a plain write replaces. -/
theorem test_wrChmap1 : (after (.wrChmap1 0x04030201#32) (withCsr (fun c => { c with chmap1 := 0xff#32 }) clockedState)).map (fun t => t.csr.chmap1) = some (0x04030201#32) := by decide
/-- R96: the register's value. -/
theorem test_rdChmap1 : answer (.rdChmap1) (withCsr (fun c => { c with chmap1 := 0xff#32 }) clockedState) = some (0#8, 0xff#32) := by decide
/-- P5: the explicit clear. -/
theorem test_wrChmap2 : (after (.wrChmap2 0#32) (withCsr (fun c => { c with chmap2 := 0x300#32 }) clockedState)).map (fun t => t.csr.chmap2) = some (0#32) := by decide
/-- R96: the register's value. -/
theorem test_rdChmap2 : answer (.rdChmap2) (withCsr (fun c => { c with chmap2 := 0x300#32 }) clockedState) = some (0#8, 0x300#32) := by decide
/-- R119. -/
theorem test_wrChmap3 : (after (.wrChmap3 0xffff#32) (withCsr (fun c => { c with chmap3 := 0x5#32 }) clockedState)).map (fun t => t.csr.chmap3) = some (0xffff#32) := by decide
/-- R96: the register's value. -/
theorem test_rdChmap3 : answer (.rdChmap3) (withCsr (fun c => { c with chmap3 := 0x5#32 }) clockedState) = some (0#8, 0x5#32) := by decide
/-- V131. -/
theorem test_rd_hole : answer (.rd 0x040#12) clockedState = some (2#8, 0x040#32) := by decide
/-- V132: BadOffset before ClockGated. -/
theorem test_wr_misaligned : answer (.wr 0x029#12 1#32) State.reset = some (2#8, 0x029#32) := by decide

/-! ### The port -/

/-- P3: a faulted block answers REFUSED. -/
theorem test_refused : answer .clkon faultedState = some (0xff#8, 0#32) := by decide
/-- V135: a reserved opcode as the first packet. -/
theorem test_step_of_a_reserved_opcode :
    (nextState (step (sent [0x34000000#32] State.reset))).bind lastResponse = some (1#8, 0x34000000#32) := by decide
/-- P1's first request through the port: the packet is taken whole. -/
theorem test_step_takes_a_whole_packet :
    (nextState (step (sent [0x30000002#32, 0x00830108#32, 0x00740209#32, 0x3108000a#32] State.reset))).map
      (fun t => (t.port, t.seq)) = some ([0x3108000a#32], 1) := by decide
/-- V91's third record: the fields packed by hand are the encoder's word. -/
theorem test_record_word : encodeRecord ⟨10#8, 5#8, .default, .pingpong, .single, 2#4⟩ = 0x0046050a#32 := by decide
/-- V90: the control word packed from its fields. -/
theorem test_packcw : packcw 1#3 0#1 63#10 4#4 0#3 0#3 2#2 2#2 2#2 2#2 = 0xaa0103f1#32 := by decide

/-! ### Witnesses: states and operands that meet the hypotheses of each statement -/

theorem witness_EncodedRequestDecodesToItself :
    (Instr.init (List.replicate 63 record8)).wellFormed = true ∧ (Instr.rd 0x040#12).wellFormed = true ∧
    (Instr.wr 0xfff#12 0#32).wellFormed = true ∧ (Instr.start 255#8 0xffff#16).wellFormed = true := by decide

theorem witness_AcceptedPacketIsItsEncoding :
    decode ⟨0x091f0103#32, [0xdeadbeef#32]⟩ = .ok (.tblwr 31#8 .alt .rsv 0xdeadbeef#32) := by rfl

/-- One OP word for each clause; the fields below the opcode do not matter but for INIT, whose largest `n` is 63. -/
theorem witness_ArgumentCountOfEachOpcode :
    (0x33ffffff#32).extractLsb' 24 8 ∈ [0x01#8, 0x08#8, 0x20#8, 0x21#8, 0x22#8, 0x23#8, 0x24#8, 0x25#8, 0x26#8, 0x33#8] ∧
    (0x32ffffff#32).extractLsb' 24 8 ∈ [0x02#8, 0x09#8, 0x11#8, 0x31#8, 0x32#8] ∧
    (0x10ffffff#32).extractLsb' 24 8 = 0x10#8 ∧ (0x3000003f#32).extractLsb' 24 8 = 0x30#8 ∧
    argCount 0x3000003f#32 = 63 ∧
    (0x34000000#32).extractLsb' 24 8 ∉ [0x01#8, 0x02#8, 0x08#8, 0x09#8, 0x10#8, 0x11#8, 0x20#8, 0x21#8, 0x22#8, 0x23#8,
      0x24#8, 0x25#8, 0x26#8, 0x30#8, 0x31#8, 0x32#8, 0x33#8] := by decide

/-- A reserved opcode next to the largest one; CLKON with bit 0 set; a second record with bit 25 set. -/
theorem witness_RejectedPacketRaisesIllegalCommand :
    Accepting State.reset ∧
    ((sent [0x34000000#32, 7#32] State.reset).port = 0x34000000#32 :: [7#32] ∧
      (0x34000000#32).extractLsb' 24 8 ∉ [0x01#8, 0x02#8, 0x08#8, 0x09#8, 0x10#8, 0x11#8, 0x20#8, 0x21#8, 0x22#8, 0x23#8,
        0x24#8, 0x25#8, 0x26#8, 0x30#8, 0x31#8, 0x32#8, 0x33#8]) ∧
    (framePacket (sent [0x26000001#32] State.reset).port = some (⟨0x26000001#32, []⟩, []) ∧
      (0x26000001#32).extractLsb' 24 8 = Opcode.clkon.code ∧
      0x26000001#32 &&& Opcode.clkon.mask ≠ Opcode.clkon.matchWord) ∧
    (framePacket (sent [0x30000002#32, 0x00830108#32, 0x02740209#32] State.reset).port =
        some (⟨0x30000002#32, [0x00830108#32, 0x02740209#32]⟩, []) ∧
      0x30000002#32 &&& 0xffffffc0#32 = 0x30000000#32 ∧
      (⟨0x30000002#32, [0x00830108#32, 0x02740209#32]⟩ : Packet).args = [0x00830108#32] ++ 0x02740209#32 :: [] ∧
      (∀ v ∈ [0x00830108#32], v.extractLsb' 25 7 = 0#7) ∧ (0x02740209#32).extractLsb' 25 7 ≠ 0#7) :=
  ⟨by decide, ⟨rfl, by decide⟩, ⟨rfl, by decide, by decide⟩, rfl, by decide, rfl, by simp, by decide⟩

theorem witness_StepRunsTheDecodedRequest :
    framePacket (sent [0x20090002#32, 5#32] clockedState).port = some (⟨0x20090002#32, []⟩, [5#32]) ∧
    decode ⟨0x20090002#32, []⟩ = .ok (.setmap 9#8 2#8) ∧ (Instr.setmap 9#8 2#8).wellFormed = true ∧
    (sent [0x20090002#32, 5#32] clockedState).port = encode (.setmap 9#8 2#8) ++ [5#32] := by
  exact ⟨rfl, rfl, rfl, rfl⟩

/-- No word; one word fewer than LOCATE needs. -/
theorem witness_BlockWaitsForAWholePacket :
    State.reset.port = [] ∧
    (sent [0x10000000#32, 1#32, 2#32, 3#32] State.reset).port = 0x10000000#32 :: [1#32, 2#32, 3#32] ∧
    [1#32, 2#32, 3#32].length < argCount 0x10000000#32 := by decide

theorem witness_FaultedBlockRefusesEveryPacket :
    (sent [0x34000000#32] faultedState).flt.code ≠ 0#8 ∧
    framePacket (sent [0x34000000#32] faultedState).port = some (⟨0x34000000#32, []⟩, []) ∧ faultedState.flt.code ≠ 0#8 := by
  decide

theorem witness_FaultedBlockStaysFaulted : (sent [0x26000000#32] faultedState).flt.code ≠ 0#8 := by decide

/-- A request that completes and one that raises. -/
theorem witness_EveryRequestIsAnsweredOnce :
    Accepting clockedState ∧ (∃ t, exec (.setprio 31#8 .high) clockedState = .next t) ∧
    (∃ t, exec (.setprio 32#8 .high) clockedState = .next t) := ⟨by decide, ⟨_, rfl⟩, ⟨_, rfl⟩⟩

theorem witness_ClockOffRequestsOnlyFault :
    Accepting State.reset ∧ State.reset.sys.clkEn = false ∧ (∀ b n a t, Instr.rdEnaset ≠ .locate b n a t) ∧
    (∀ b, Instr.rdEnaset ≠ .tblchk b) ∧ Instr.rdEnaset ≠ .clkon ∧ (∀ rs, Instr.rdEnaset ≠ .init rs) ∧
    ((0#32 : Word) = 0#32 ∨ (0#32 : Word) = 1#32) ∧ ((1#32 : Word) = 0#32 ∨ (1#32 : Word) = 1#32) := by
  refine ⟨by decide, by decide, ?_, ?_, ?_, ?_, by decide, by decide⟩ <;> simp

/-- Boundaries: `b + n` is 2^32 + 1 and 2^32; no multiple of 7 in [5, 7), one in [5, 8) (V9, V10, V16, V15). -/
theorem witness_LocateFindsTheFirstAlignedAddress :
    Accepting State.reset ∧ (0#32 = 0#32) ∧
    ((1024#32 : Word) ≠ 0#32 ∧ 2 ^ 32 < (0xfffffc00#32).toNat + (1025#32).toNat) ∧
    ((7#32 : Word) ≠ 0#32 ∧ (5#32).toNat + (2#32).toNat ≤ 2 ^ 32 ∧
      ∀ x, (5#32).toNat ≤ x → x < (5#32).toNat + (2#32).toNat → x % (7#32).toNat ≠ 0) ∧
    ((1024#32 : Word) ≠ 0#32 ∧ (0xfffffc00#32).toNat + (1024#32).toNat ≤ 2 ^ 32 ∧ (0xfffffc00#32).toNat ≤ 0xfffffc00 ∧
      0xfffffc00 < (0xfffffc00#32).toNat + (1024#32).toNat ∧ 0xfffffc00 % (1024#32).toNat = 0 ∧
      ∀ y, (0xfffffc00#32).toNat ≤ y → y < 0xfffffc00 → y % (1024#32).toNat ≠ 0) := by
  refine ⟨by decide, rfl, by decide, ⟨by decide, by decide, ?_⟩, by decide, by decide, by decide, by decide, by decide, ?_⟩
  · intro x h1 h2
    simp only [BitVec.toNat_ofNat, Nat.reducePow, Nat.reduceMod] at h1 h2 ⊢
    omega
  · intro y h1 h2
    simp only [BitVec.toNat_ofNat, Nat.reducePow, Nat.reduceMod] at h1 h2
    omega

/-- The smallest buffer that the bound allows, at the top of the address space. -/
theorem witness_LocateNeverFailsOnABigEnoughBuffer :
    Accepting State.reset ∧ 1 ≤ (1024#32).toNat ∧ 1 ≤ (1024#32).toNat ∧
    (1024#32).toNat + (1024#32).toNat - 1 ≤ (2047#32).toNat ∧ (0xfffff801#32).toNat + (2047#32).toNat ≤ 2 ^ 32 := by decide

theorem witness_TblchkAnswersTheAlignmentCheck : Accepting State.reset := by decide

/-- Channel 31 is the last legal one, 32 the first that raises; a channel of each clause. -/
theorem witness_TblrdReadsOneEntryWord :
    Accepting State.reset ∧ 32 ≤ (32#8).toNat ∧ ((31#8).toNat < 32 ∧ State.reset.sys.clkEn = false) ∧
    (Accepting clockedState ∧ clockedState.sys.clkEn = true ∧ clockedState.csr.ctlbaseWritten = false) ∧
    (TableReady (refusing 0x200005f8 ready) ∧
      memOk (refusing 0x200005f8 ready) (entaddr (refusing 0x200005f8 ready) 31#8 .pri .ctl) = false) ∧
    (TableReady ready ∧ memOk ready (entaddr ready 31#8 .pri .ctl) = true) := by decide

theorem witness_TblwrStoresOneEntryWord :
    Accepting State.reset ∧ 32 ≤ (32#8).toNat ∧ ((31#8).toNat < 32 ∧ State.reset.sys.clkEn = false) ∧
    (Accepting clockedState ∧ clockedState.sys.clkEn = true ∧ clockedState.csr.ctlbaseWritten = false) ∧
    (TableReady (refusing 0x200007fc ready) ∧
      memOk (refusing 0x200007fc ready) (entaddr (refusing 0x200007fc ready) 31#8 .alt .rsv) = false) ∧
    (TableReady ready ∧ memOk ready (entaddr ready 31#8 .alt .rsv) = true) := by decide

/-- The last word of the table and the first. -/
theorem witness_TblrdAnswersWhatTblwrStored :
    (31#8).toNat < 32 ∧ (0#8).toNat < 32 ∧ TableReady ready ∧ memOk ready (entaddr ready 31#8 .alt .rsv) = true ∧
    memOk ready (entaddr ready 0#8 .pri .src) = true ∧ ∃ t, exec (.tblwr 31#8 .alt .rsv 1#32) ready = .next t :=
  ⟨by decide, by decide, by decide, by decide, by decide, _, rfl⟩

theorem witness_ClkonTurnsTheClockOn :
    Accepting State.reset ∧ Accepting clockedState ∧ clockedState.sys.clkEn = true ∧
    ∃ t, step (sent [0x26000000#32] clockedState) = .next t := ⟨by decide, by decide, by decide, _, rfl⟩

/-- Channels 15, 16, 31 and 32 are the ends of the three ranges. -/
theorem witness_SetmapOrsTheEncoding :
    Accepting State.reset ∧ 32 ≤ (32#8).toNat ∧ (16 ≤ (16#8).toNat ∧ (16#8).toNat < 32) ∧
    (16 ≤ (31#8).toNat ∧ (31#8).toNat < 32) ∧ ((15#8).toNat < 16 ∧ State.reset.sys.clkEn = false) ∧
    (Accepting clockedState ∧ clockedState.sys.clkEn = true) := by decide

theorem witness_SetprioWritesTheTierBit :
    Accepting State.reset ∧ 32 ≤ (32#8).toNat ∧ ((31#8).toNat < 32 ∧ State.reset.sys.clkEn = false) ∧
    (Accepting clockedState ∧ clockedState.sys.clkEn = true) := by decide

theorem witness_SetgranWritesTheBurstBit :
    Accepting State.reset ∧ 32 ≤ (32#8).toNat ∧ ((31#8).toNat < 32 ∧ State.reset.sys.clkEn = false) ∧
    (Accepting clockedState ∧ clockedState.sys.clkEn = true) := by decide

theorem witness_UnmaskClearsTheMaskBit :
    Accepting State.reset ∧ 32 ≤ (32#8).toNat ∧ ((31#8).toNat < 32 ∧ State.reset.sys.clkEn = false) ∧
    (Accepting clockedState ∧ clockedState.sys.clkEn = true) := by decide

theorem witness_SetmodeWritesModeAndAltSelect :
    Accepting State.reset ∧ 32 ≤ (32#8).toNat ∧ ((31#8).toNat < 32 ∧ State.reset.sys.clkEn = false) ∧
    (Accepting clockedState ∧ clockedState.sys.clkEn = true ∧ clockedState.csr.ctlbaseWritten = false) ∧
    (0x200005f8 = entaddr ready 31#8 (tgt ready 31#8) .ctl ∧ TableReady (refusing 0x200005f8 ready) ∧
      memOk (refusing 0x200005f8 ready) 0x200005f8 = false) ∧
    (TableReady ready ∧ memOk ready 0x200005f8 = true) := by decide

theorem witness_SetarbWritesTheArbitrationField :
    Accepting State.reset ∧ 32 ≤ (32#8).toNat ∧ ((31#8).toNat < 32 ∧ State.reset.sys.clkEn = false) ∧
    (Accepting clockedState ∧ clockedState.sys.clkEn = true ∧ clockedState.csr.ctlbaseWritten = false) ∧
    (0x200005f8 = entaddr ready 31#8 (tgt ready 31#8) .ctl ∧ TableReady (refusing 0x200005f8 ready) ∧
      memOk (refusing 0x200005f8 ready) 0x200005f8 = false) ∧
    (TableReady ready ∧ memOk ready 0x200005f8 = true) := by decide

theorem witness_SettersLeaveOtherChannelsAlone :
    (9#8).toNat < 32 ∧ 9#8 ≠ 8#8 ∧ (∃ arb, Instr.setarb 8#8 4#4 = .setarb 8#8 arb) ∧
    (∃ t, exec (.setarb 8#8 4#4) ready = .next t) ∧ (∃ t, exec (.setprio 8#8 .high) clockedState = .next t) ∧
    ∃ t, exec (.start 8#8 1#16) State.reset = .next t :=
  ⟨by decide, by decide, ⟨_, rfl⟩, ⟨_, rfl⟩, ⟨_, rfl⟩, _, rfl⟩

/-- 33 records; a second record with channel 32, then 16, then 31. -/
theorem witness_InitRejectsABadListBeforeAnyEffect :
    Accepting State.reset ∧ 32 < (List.replicate 33 record8).length ∧
    (∀ c ∈ [16#8, 31#8, 32#8, 255#8], [record8, { record9 with ch := c }].length ≤ 32 ∧
      [record8, { record9 with ch := c }] = [record8] ++ { record9 with ch := c } :: [] ∧
      (∀ q ∈ [record8], q.ch.toNat < 16)) ∧
    32 ≤ (32#8).toNat ∧ (16 ≤ (16#8).toNat ∧ (16#8).toNat < 32) ∧ (16 ≤ (31#8).toNat ∧ (31#8).toNat < 32) := by decide

theorem witness_InitWithAnotherBaseKeepsSteps1And2 :
    Accepting (based 0x20000800#32) ∧ [record8].length ≤ 32 ∧ (∀ r ∈ [record8], r.ch.toNat < 16) ∧
    (based 0x20000800#32).par.BufferOk ∧ (based 0x20000800#32).csr.ctlbaseWritten = true ∧
    (based 0x20000800#32).csr.ctlbase ≠ bufferTable (based 0x20000800#32).par := by decide

/-- From reset, and from a state whose base is already the right one. -/
theorem witness_InitEqualsTheHandMadeSequence :
    (Accepting State.reset ∧ [record8, record9].length ≤ 32 ∧ (∀ r ∈ [record8, record9], r.ch.toNat < 16) ∧
      State.reset.par.BufferOk ∧ Memory.wf State.reset.mem = true ∧
      (State.reset.csr.ctlbaseWritten = true → State.reset.csr.ctlbase = bufferTable State.reset.par) ∧
      ∀ r ∈ [record8, record9], ControlWordsOk State.reset (bufferTable State.reset.par) r.ch) ∧
    (Accepting ready ∧ Memory.wf ready.mem = true ∧
      (ready.csr.ctlbaseWritten = true → ready.csr.ctlbase = bufferTable ready.par)) := by decide

/-- The same state and list, and the one record of its channel as the last one. -/
theorem witness_InitAppliesEachRecord :
    Accepting State.reset ∧ [record8, record9].length ≤ 32 ∧ (∀ r ∈ [record8, record9], r.ch.toNat < 16) ∧
    State.reset.par.BufferOk ∧ Memory.wf State.reset.mem = true ∧
    (State.reset.csr.ctlbaseWritten = true → State.reset.csr.ctlbase = bufferTable State.reset.par) ∧
    (∀ r ∈ [record8, record9], ControlWordsOk State.reset (bufferTable State.reset.par) r.ch) ∧
    [record8, record9] = [record8] ++ record9 :: [] ∧ State.reset.par.fieldTarget = .primary ∧
    (∀ r ∈ [record8, record9], r.ch ≠ 10#8) := by decide

theorem witness_CfgsrcProgramsTheSourceSide :
    Accepting State.reset ∧ 32 ≤ (32#8).toNat ∧ (31#8).toNat < 32 ∧ ItemSize.word ≠ .reserved ∧
    State.reset.sys.clkEn = false ∧
    (Accepting clockedState ∧ clockedState.sys.clkEn = true ∧ clockedState.csr.ctlbaseWritten = false) ∧
    (0x200005f0 = entaddr ready 31#8 (tgt ready 31#8) .src ∧ 0x200005f8 = entaddr ready 31#8 (tgt ready 31#8) .ctl) ∧
    (TableReady (refusing 0x200005f0 ready) ∧ memOk (refusing 0x200005f0 ready) 0x200005f0 = false) ∧
    (TableReady (refusing 0x200005f8 ready) ∧ memOk (refusing 0x200005f8 ready) 0x200005f0 = true ∧
      memOk (refusing 0x200005f8 ready) 0x200005f8 = false) ∧
    (TableReady ready ∧ memOk ready 0x200005f0 = true ∧ memOk ready 0x200005f8 = true) := by decide

theorem witness_CfgdstProgramsTheDestinationSide :
    Accepting State.reset ∧ 32 ≤ (32#8).toNat ∧ (31#8).toNat < 32 ∧ ItemSize.byte ≠ .reserved ∧
    State.reset.sys.clkEn = false ∧
    (Accepting clockedState ∧ clockedState.sys.clkEn = true ∧ clockedState.csr.ctlbaseWritten = false) ∧
    (0x200005f4 = entaddr ready 31#8 (tgt ready 31#8) .dst ∧ 0x200005f8 = entaddr ready 31#8 (tgt ready 31#8) .ctl) ∧
    (TableReady (refusing 0x200005f4 ready) ∧ memOk (refusing 0x200005f4 ready) 0x200005f4 = false) ∧
    (TableReady (refusing 0x200005f8 ready) ∧ memOk (refusing 0x200005f8 ready) 0x200005f4 = true ∧
      memOk (refusing 0x200005f8 ready) 0x200005f8 = false) ∧
    (TableReady ready ∧ memOk ready 0x200005f4 = true ∧ memOk ready 0x200005f8 = true) := by decide

theorem witness_SourceAndDestinationCommute :
    (31#8).toNat < 32 ∧ ItemSize.byte ≠ .reserved ∧ ItemSize.word ≠ .reserved ∧ TableReady ready ∧
    ∀ w, memOk ready (entaddr ready 31#8 (tgt ready 31#8) w) = true := by
  refine ⟨by decide, by decide, by decide, by decide, ?_⟩
  intro w
  cases w <;> decide

/-- Counts 0, 1, 1024 and 1025 are the ends of the ranges. -/
theorem witness_StartRejectsBadOperands :
    Accepting State.reset ∧ 32 ≤ (32#8).toNat ∧ (31#8).toNat < 32 ∧ 0#16 = 0#16 ∧ 1024 < (1025#16).toNat ∧
    (1 ≤ (1#16).toNat ∧ (1#16).toNat ≤ 1024) ∧ (1 ≤ (1024#16).toNat ∧ (1024#16).toNat ≤ 1024) ∧
    State.reset.sys.clkEn = false := by decide

/-- No stored list, and a stored list without the channel. -/
theorem witness_StartOfAnUnlistedChannelOnlyArms :
    (Clocked clockedState ∧ (31#8).toNat < 32 ∧ 1 ≤ (1024#16).toNat ∧ (1024#16).toNat ≤ 1024 ∧
      clockedState.cfg.valid = false) ∧ (Clocked inited ∧ ∀ r ∈ inited.cfg.list, r.ch ≠ 5#8) := by decide

theorem witness_StartOfAListedChannelReappliesItsMode :
    TableReady inited ∧ (9#8).toNat < 32 ∧ 1 ≤ (1#16).toNat ∧ (1#16).toNat ≤ 1024 ∧ inited.cfg.valid = true ∧
    inited.cfg.list = [record8] ++ record9 :: [] ∧ (∀ q ∈ [record8], q.ch ≠ 9#8) ∧ record9.ch = 9#8 ∧
    (0#32 : Word) = inited.csr.altsel &&& ~~~(1#32 <<< (9#8).toNat) ∧
    0x20000498 = entaddr inited 9#8 (tgt inited 9#8) .ctl ∧
    0x20000498 = entaddr inited 9#8 (tgt { inited with csr := { inited.csr with altsel := 0#32 } } 9#8) .ctl ∧
    memOk inited 0x20000498 = true := by decide

theorem witness_StartThatMemoryRefusesArmsNothing :
    TableReady (refusing 0x20000488 inited) ∧ (8#8).toNat < 32 ∧ 1 ≤ (1024#16).toNat ∧ (1024#16).toNat ≤ 1024 ∧
    (refusing 0x20000488 inited).cfg.valid = true ∧ (∃ r ∈ (refusing 0x20000488 inited).cfg.list, r.ch = 8#8) ∧
    memOk (refusing 0x20000488 inited)
      (entaddr (refusing 0x20000488 inited) 8#8 (tgt (refusing 0x20000488 inited) 8#8) .ctl) = false := by decide

/-- S5's own case: START 8, 64 from "inited". -/
theorem witness_StartIsIdempotent :
    TableReady inited ∧ inited.par.fieldTarget = .primary ∧
    ∃ t, exec (.start 8#8 64#16) inited = .next t ∧ t.flt.code = 0#8 := ⟨by decide, by decide, _, rfl, rfl⟩

/-- Memory refuses channel 8's control word: a MemFault in step 4. -/
theorem witness_FaultedInitStoresNoList :
    Accepting (refusing 0x20000488 State.reset) ∧ (refusing 0x20000488 State.reset).par.BufferOk ∧
    (∃ t, exec (.init [record8]) (refusing 0x20000488 State.reset) = .next t ∧ t.flt.code = 16#8) ∧
    ∃ t, exec (.init (List.replicate 33 record8)) (refusing 0x20000488 State.reset) = .next t ∧ t.flt.code = 9#8 :=
  ⟨by decide, by decide, ⟨_, rfl, rfl⟩, _, rfl, rfl⟩

theorem witness_FaultedStartArmsNothing :
    Accepting (refusing 0x20000488 inited) ∧
    (∃ t, exec (.start 8#8 64#16) (refusing 0x20000488 inited) = .next t ∧ t.flt.code = 16#8) ∧
    ∃ t, exec (.start 8#8 0#16) (refusing 0x20000488 inited) = .next t ∧ t.flt.code = 7#8 :=
  ⟨by decide, ⟨_, rfl, rfl⟩, _, rfl, rfl⟩

theorem witness_SetAndClearPorts : Clocked clockedState := by decide
theorem witness_ErrclrClearsErrorBits :
    Clocked clockedState ∧ clockedState.csr.err = 0#32 ∧ ∃ t, step (sent [0x0100004c#32] clockedState) = .next t :=
  ⟨by decide, by decide, _, rfl⟩
theorem witness_PlainStorageRegisters : Clocked clockedState := by decide

/-- Data 0, 1 and 2, with the clock on and off. -/
theorem witness_CfgHoldsTheMasterEnable :
    Accepting State.reset ∧ Clocked clockedState ∧ ((2#32 : Word) ≠ 0#32 ∧ (2#32 : Word) ≠ 1#32) ∧
    ((1#32 : Word) = 0#32 ∨ (1#32 : Word) = 1#32) := by decide

/-- 1023, 1024 and 0xfffffc00 on an unwritten base; the written base and another one. -/
theorem witness_CtlbaseIsWrittenOnceAligned :
    Clocked clockedState ∧ (1023#32).toNat % 1024 ≠ 0 ∧
    (Clocked ready ∧ (1024#32).toNat % 1024 = 0 ∧ ready.csr.ctlbaseWritten = true ∧ 1024#32 ≠ ready.csr.ctlbase) ∧
    ((0xfffffc00#32).toNat % 1024 = 0 ∧ clockedState.csr.ctlbaseWritten = false) ∧
    ((0x20000400#32).toNat % 1024 = 0 ∧ 0x20000400#32 = ready.csr.ctlbase) := by decide

theorem witness_AltbaseIsTheBasePlus512 :
    Accepting State.reset ∧ Accepting (based 0xfffffc00#32) ∧ (based 0xfffffc00#32).sys.clkEn = true ∧
    (based 0xfffffc00#32).csr.ctlbase.toNat % 1024 = 0 := by decide

theorem witness_StatusReadsAreDraws : Accepting State.reset ∧ Clocked clockedState := by decide
theorem witness_SwreqEmitsRequestsInOrder : Accepting State.reset ∧ Clocked clockedState := by decide

/-- The two ends of every hole of R45, and a misaligned offset. -/
theorem witness_UnmappedOffsetsRaiseBadOffset :
    Accepting State.reset ∧ (0x001#12).toNat % 4 ≠ 0 ∧ (0x040 ≤ (0x040#12).toNat ∧ (0x040#12).toNat ≤ 0x048) ∧
    (0x040 ≤ (0x048#12).toNat ∧ (0x048#12).toNat ≤ 0x048) ∧ (0x050 ≤ (0x050#12).toNat ∧ (0x050#12).toNat ≤ 0x4fc) ∧
    (0x050 ≤ (0x4fc#12).toNat ∧ (0x4fc#12).toNat ≤ 0x4fc) ∧ (0x504 ≤ (0x504#12).toNat ∧ (0x504#12).toNat ≤ 0x50c) ∧
    (0x504 ≤ (0x50c#12).toNat ∧ (0x50c#12).toNat ≤ 0x50c) ∧ 0x520 ≤ (0x520#12).toNat ∧ 0x520 ≤ (0xfff#12).toNat := by
  decide

/-- A state in which the step stores to the table. -/
theorem witness_StepKeepsTheInvariant :
    (sent [0x091f0103#32, 0xdeadbeef#32] ready).Inv ∧
    ∃ t, step (sent [0x091f0103#32, 0xdeadbeef#32] ready) = .next t := ⟨by decide, _, rfl⟩

theorem witness_EveryStepAnswersANextState :
    (sent [0x33080040#32] inited).Inv ∧ (sent [0x30000002#32, 0x00830108#32, 0x00740209#32] State.reset).Inv := by decide

theorem witness_StepsStoreOnlyInTheTable :
    ((sent [0x091f0103#32, 0xdeadbeef#32] ready).Inv ∧
      ∃ t, step (sent [0x091f0103#32, 0xdeadbeef#32] ready) = .next t ∧ (t.csr.ctlbase.toNat + 1024 ≤ 0x20000800)) ∧
    (clockedState.Inv ∧ ∃ t, step (sent [0x20090002#32] clockedState) = .next t ∧ t.csr.ctlbaseWritten = false) :=
  ⟨⟨by decide, _, rfl, by decide⟩, by decide, _, rfl, rfl⟩

theorem witness_OnlyTblwrWritesReservedFields :
    ready.Inv ∧ (∃ t, exec (.setmode 31#8 .pingpong) ready = .next t) ∧ (31#8).toNat < 32 ∧
    (∀ c k w d, Instr.setmode 31#8 .pingpong ≠ .tblwr c k w d) ∧
    (∀ c j z e, Instr.setmode 31#8 .pingpong ≠ .cfgsrc c j z e) ∧
    (∀ c j z e, Instr.setmode 31#8 .pingpong ≠ .cfgdst c j z e) := by
  refine ⟨by decide, ⟨_, rfl⟩, by decide, ?_, ?_, ?_⟩ <;> simp

theorem witness_StepsOnlyMoveForward :
    ∃ t, step (sent [0x33080040#32] (withCsr (fun c => { c with err := 1#32 }) inited)) = .next t := ⟨_, rfl⟩

/-- Both forms: the reset input on a running block, and the state after reset. -/
theorem witness_ResetRestoresTheTableOfR138 :
    (resetInput (sent [0x26000000#32] inited) = resetInput (sent [0x26000000#32] inited) ∧
      resetInput (sent [0x26000000#32] inited) ≠ State.reset) ∧ State.reset = State.reset := by decide

theorem witness_EachRegisterHasItsWriters :
    (Instr.start 8#8 64#16).wellFormed = true ∧
    ∃ t, exec (.start 8#8 64#16) inited = .next t ∧ t.csr.ena ≠ inited.csr.ena := ⟨by decide, _, rfl, by decide⟩

/-- Channel 8 enabled and the master enable on: it may write its control word and data memory below the table. -/
theorem witness_EngineStaysWithinItsLiberties :
    (withCsr (fun c => { c with masten := true, ena := 0x100#32 }) ready).Inv ∧
    (engineAct (.writeControl 8#8 .alt 5#32)
      (withCsr (fun c => { c with masten := true, ena := 0x100#32 }) ready)).isSome = true ∧
    (engineAct (.writeData 8#8 0x200003ff 5#8)
      (withCsr (fun c => { c with masten := true, ena := 0x100#32 }) ready)).isSome = true ∧
    (engineAct (.writeData 8#8 0x20000400 5#8)
      (withCsr (fun c => { c with masten := true, ena := 0x100#32 }) ready)) = none := by decide

/-- Memory refuses the second record's control word, at the mode write; with `FIELD_TARGET = selected`, the control word
of the half that its own mode selects, at the arbitration write. -/
theorem witness_InitRefusedByMemoryKeepsWhatWasDone :
    (Accepting (refusing 0x20000498 zeroed) ∧ [record8, record9] = [record8] ++ record9 :: [] ∧
      [record8, record9].length ≤ 32 ∧ (∀ q ∈ [record8, record9], q.ch.toNat < 16) ∧
      (refusing 0x20000498 zeroed).par.BufferOk ∧ Memory.wf (refusing 0x20000498 zeroed).mem = true ∧
      (refusing 0x20000498 zeroed).csr.ctlbaseWritten = false ∧
      (∀ q ∈ [record8], ControlWordsOk (refusing 0x20000498 zeroed) (bufferTable (refusing 0x20000498 zeroed).par) q.ch) ∧
      memOk (refusing 0x20000498 zeroed) 0x20000498 = false) ∧
    (∃ u, execAll (bootRequests 0x20000400#32 [record8] ++ [.setmap 9#8 2#8, .setprio 9#8 .default])
        (refusing 0x20000498 zeroed) = .next u ∧ entaddr u 9#8 (tgt u 9#8) .ctl = 0x20000498) ∧
    (∃ u v, execAll (bootRequests 0x20000400#32 [] ++ [.setmap 10#8 5#8, .setprio 10#8 .default]) (selecting 0x200006a8) =
        .next u ∧ memOk (selecting 0x200006a8) (entaddr u 10#8 (tgt u 10#8) .ctl) = true ∧
      execAll [.setmode 10#8 .pingpong, .setgran 10#8 .single] u = .next v ∧
      entaddr v 10#8 (tgt v 10#8) .ctl = 0x200006a8 ∧ memOk (selecting 0x200006a8) 0x200006a8 = false) :=
  ⟨by decide, ⟨_, rfl, by decide⟩, _, _, rfl, by decide, rfl, by decide, by decide⟩

end Sys2Proof.Tests
end

/-! SUPPORT. The register requests of a clocked block, said once for a register that only stores or only answers, and
from that the set and clear ports of the five vectors (spec 10_state.md R26). -/

namespace Sys2Proof.Machine

/-! ### Register requests on a clocked block -/

/-- The body of `RD.<REG>` is the read of the register. -/
theorem bodyOf_ofRead (r : Reg) : bodyOf (.ofRead r) = readReg r := by
  cases r <;> rfl

/-- The body of `WR.<REG>` is the write of the register. -/
theorem bodyOf_ofWrite (d : Word) (r : Reg) : bodyOf (.ofWrite d r) = writeReg r d := by
  cases r <;> rfl

/-- A response to a request whose body had no effect: the request completed. -/
theorem respond_started (i : Instr) (v : Word) (s : State) : respond v (started i s) = completed i v [] s := by
  simp [respond, completed, emit, historyAfter, statusOk]

/-- A response leaves the registers as they are, and does not look at them. -/
theorem respond_withCsr (v : Word) (c : Csr) (s : State) :
    respond v { s with csr := c } = { respond v s with csr := c } := rfl

/-- R97: on a clocked block the write of a register that only stores completes with value 0, and changes the registers
by the stored function alone. -/
theorem exec_ofWrite_of_storeCsr {r : Reg} {d : Word} {f : Csr → Csr} {s : State} (hs : Clocked s)
    (hr : ∀ op t, writeReg r d op t = storeCsr op f t) :
    exec (.ofWrite d r) s = .next { completed (.ofWrite d r) 0#32 [] s with csr := f s.csr } := by
  obtain ⟨hacc, hclk⟩ := hs
  rw [← respond_started, ← respond_withCsr]
  apply exec_done hacc
  rw [bodyOf_ofWrite, hr]
  exact clocked_pass (s := started (.ofWrite d r) s) hclk

/-- R96: on a clocked block the read of a register that only answers completes with the answer, and changes nothing. -/
theorem exec_ofRead_of_clocked {r : Reg} {get : Csr → Word} {s : State} (hs : Clocked s)
    (hr : ∀ op t, readReg r op t = clocked op t fun u => .done (get u.csr) u) :
    exec (.ofRead r) s = .next (completed (.ofRead r) (get s.csr) [] s) := by
  obtain ⟨hacc, hclk⟩ := hs
  rw [← respond_started]
  apply exec_done hacc
  rw [bodyOf_ofRead, hr]
  exact clocked_pass (s := started (.ofRead r) s) hclk

/-! ### The two ports of a vector -/

/-- R26: `set` and `clr` are the set and the clear port of the vector that `get` reads and `put` replaces. -/
structure VectorPorts (set clr : Reg) (get : Csr → Word) (put : Csr → Word → Csr) : Prop where
  writeSet : ∀ d op s, writeReg set d op s = storeCsr op (fun c => put c (setPort (get c) d)) s
  writeClr : ∀ d op s, writeReg clr d op s = storeCsr op (fun c => put c (clrPort (get c) d)) s
  readSet : ∀ op s, readReg set op s = clocked op s fun t => .done (get t.csr) t
  readClr : ∀ op s, readReg clr op s = clocked op s fun t => .done (get t.csr) t

/-- R27, R104, R105. -/
theorem vectorPorts_useburst :
    VectorPorts .useburstset .useburstclr Csr.useburst (fun c v => { c with useburst := v }) :=
  ⟨fun _ _ _ => rfl, fun _ _ _ => rfl, fun _ _ => rfl, fun _ _ => rfl⟩

/-- R28, R106, R107. -/
theorem vectorPorts_reqmask :
    VectorPorts .reqmaskset .reqmaskclr Csr.reqmask (fun c v => { c with reqmask := v }) :=
  ⟨fun _ _ _ => rfl, fun _ _ _ => rfl, fun _ _ => rfl, fun _ _ => rfl⟩

/-- R29, R108, R109. -/
theorem vectorPorts_ena : VectorPorts .enaset .enaclr Csr.ena (fun c v => { c with ena := v }) :=
  ⟨fun _ _ _ => rfl, fun _ _ _ => rfl, fun _ _ => rfl, fun _ _ => rfl⟩

/-- R30, R110, R111. -/
theorem vectorPorts_altsel : VectorPorts .altset .altclr Csr.altsel (fun c v => { c with altsel := v }) :=
  ⟨fun _ _ _ => rfl, fun _ _ _ => rfl, fun _ _ => rfl, fun _ _ => rfl⟩

/-- R31, R112, R113. -/
theorem vectorPorts_prio : VectorPorts .prioset .prioclr Csr.prio (fun c v => { c with prio := v }) :=
  ⟨fun _ _ _ => rfl, fun _ _ _ => rfl, fun _ _ => rfl, fun _ _ => rfl⟩

/-- R26: what the four requests of a vector's ports do on a clocked block. -/
theorem VectorPorts.exec_ports {set clr : Reg} {get : Csr → Word} {put : Csr → Word → Csr}
    (h : VectorPorts set clr get put) (d : Word) {s : State} (hs : Clocked s) :
    exec (.ofWrite d set) s =
        .next { completed (.ofWrite d set) 0#32 [] s with csr := put s.csr (get s.csr ||| d) } ∧
      exec (.ofWrite d clr) s =
        .next { completed (.ofWrite d clr) 0#32 [] s with csr := put s.csr (get s.csr &&& ~~~d) } ∧
      exec (.ofRead set) s = .next (completed (.ofRead set) (get s.csr) [] s) ∧
      exec (.ofRead clr) s = .next (completed (.ofRead clr) (get s.csr) [] s) :=
  ⟨exec_ofWrite_of_storeCsr hs (h.writeSet d), exec_ofWrite_of_storeCsr hs (h.writeClr d),
    exec_ofRead_of_clocked hs h.readSet, exec_ofRead_of_clocked hs h.readClr⟩

/-- Settles O41: the packets are those of the ports' offsets (R44), and `VectorPorts.exec_ports` holds of each
vector. -/
theorem setAndClearPorts : Obligations.SetAndClearPorts := by
  unfold Obligations.SetAndClearPorts
  refine ⟨rfl, fun _ => rfl, rfl, fun _ => rfl, rfl, fun _ => rfl, rfl, fun _ => rfl, rfl, fun _ => rfl,
    rfl, fun _ => rfl, rfl, fun _ => rfl, rfl, fun _ => rfl, rfl, fun _ => rfl, rfl, fun _ => rfl, ?_⟩
  intro d s hs
  exact ⟨vectorPorts_useburst.exec_ports d hs, vectorPorts_reqmask.exec_ports d hs, vectorPorts_ena.exec_ports d hs,
    vectorPorts_altsel.exec_ports d hs, vectorPorts_prio.exec_ports d hs⟩

end Sys2Proof.Machine

/-! SUPPORT. LOCATE and TBLCHK (spec 40_table_manager.md): the first multiple of the alignment in a buffer and what the
closed form `locate` answers in each case of R77; the alignment check of R80. -/

namespace Sys2Proof.Machine

/-! ### The first multiple at or above an address -/

/-- R78: the distance leads to a multiple of the alignment. -/
theorem add_alignDistance_mod {b a : Nat} (ha : 0 < a) : (b + alignDistance b a) % a = 0 := by
  rw [add_alignDistance ha]
  exact Nat.mul_mod_left _ a

/-- R78: no multiple of the alignment at or above `b` comes before the one the distance leads to. -/
theorem add_alignDistance_le {b a x : Nat} (ha : 0 < a) (hx : b ≤ x) (hm : x % a = 0) :
    b + alignDistance b a ≤ x := by
  obtain ⟨k, rfl⟩ := Nat.dvd_of_mod_eq_zero hm
  have hk : (b + a - 1) / a ≤ k := by
    rw [← Nat.lt_succ_iff, Nat.div_lt_iff_lt_mul ha, Nat.succ_mul, Nat.mul_comm k a]
    omega
  rw [add_alignDistance ha, Nat.mul_comm a k]
  exact Nat.mul_le_mul_right a hk

/-- R77, R78: the multiple at or above `b` that has none before it is the one the distance leads to. -/
theorem add_alignDistance_eq {b a x : Nat} (ha : 0 < a) (hx : b ≤ x) (hm : x % a = 0)
    (hfirst : ∀ y, b ≤ y → y < x → y % a ≠ 0) : b + alignDistance b a = x := by
  have hle := add_alignDistance_le ha hx hm
  have hnlt : ¬ b + alignDistance b a < x := fun h =>
    hfirst _ (Nat.le_add_right _ _) h (add_alignDistance_mod ha)
  omega

/-! ### What `locate` answers, in the cases of R77 -/

/-- R77: no address is a multiple of alignment 0. -/
theorem locate_zero (b s t : Nat) : locate b s 0 t = .error { fault := .badOperand, info := 0#32 } := rfl

/-- R77: a buffer past the end of the address space. -/
theorem locate_overflow {b s a : Nat} (t : Nat) (ha : 0 < a) (h : Config.addrLimit < b + s) :
    locate b s a t = .error { fault := .badOperand, info := BitVec.ofNat 32 s } := by
  rw [locate, if_neg ha.ne', if_pos h]

/-- R77: a buffer with no multiple of the alignment, since the one the distance leads to would be in it. -/
theorem locate_noMultiple {b s a : Nat} (t : Nat) (ha : 0 < a) (hs : b + s ≤ Config.addrLimit)
    (h : ∀ x, b ≤ x → x < b + s → x % a ≠ 0) :
    locate b s a t = .error { fault := .alignFail, info := BitVec.ofNat 32 b } := by
  have hd : s ≤ alignDistance b a := by
    by_contra hlt
    exact h (b + alignDistance b a) (by omega) (by omega) (add_alignDistance_mod ha)
  rw [locate, if_neg ha.ne', if_neg (Nat.not_lt.mpr hs), if_pos hd]

/-- R77: from the first multiple of the alignment in the buffer, the table either passes the buffer's end or fits. -/
theorem locate_first {b s a x : Nat} (t : Nat) (ha : 0 < a) (hs : b + s ≤ Config.addrLimit) (hb : b ≤ x)
    (hx : x < b + s) (hm : x % a = 0) (hfirst : ∀ y, b ≤ y → y < x → y % a ≠ 0) :
    locate b s a t =
      if b + s < x + t then .error { fault := .tableOverrun, info := BitVec.ofNat 32 x } else .ok x := by
  have hd := add_alignDistance_eq ha hb hm hfirst
  have hend : s < alignDistance b a + t ↔ b + s < x + t := by omega
  rw [locate, if_neg ha.ne', if_neg (Nat.not_lt.mpr hs), if_neg (by omega), hd]
  simp only [hend]

/-! ### The requests -/

/-- R77, R128: what `locate` finds wrong is the fault LOCATE raises, with no other effect. -/
theorem exec_locate_error {b n a t info : Word} {s : State} {f : FaultName} {code : Byte} (hs : Accepting s)
    (hf : f.code = code) (h : locate b.toNat n.toNat a.toNat t.toNat = .error { fault := f, info := info }) :
    exec (.locate b n a t) s = .next (trapped (.locate b n a t) code info [] s) :=
  exec_trapped f hs hf (by simp only [bodyOf, locateBody, h])

/-- R77: the address that `locate` finds is LOCATE's response, with no other effect. -/
theorem exec_locate_ok {b n a t : Word} {s : State} {x : Nat} (hs : Accepting s)
    (h : locate b.toNat n.toNat a.toNat t.toNat = .ok x) :
    exec (.locate b n a t) s = .next (completed (.locate b n a t) (BitVec.ofNat 32 x) [] s) := by
  rw [← respond_started]
  exact exec_done hs (by simp only [bodyOf, locateBody, h])

/-- Settles O12: one clause per case of R77, each the answer of `locate` in that case. -/
theorem locateFindsTheFirstAlignedAddress : Obligations.LocateFindsTheFirstAlignedAddress := by
  unfold Obligations.LocateFindsTheFirstAlignedAddress
  intro b n a t s hs
  have hpos : a ≠ 0#32 → 0 < a.toNat := fun ha => Nat.pos_of_ne_zero fun h => ha (BitVec.eq_of_toNat_eq h)
  refine ⟨rfl, ?zero, ?overflow, ?noMultiple, ?first⟩
  case zero =>
    rintro rfl
    exact exec_locate_error hs rfl (locate_zero _ _ _)
  case overflow =>
    intro ha hlim
    exact exec_locate_error hs rfl (by rw [locate_overflow _ (hpos ha) hlim, BitVec.ofNat_toNat, BitVec.setWidth_eq])
  case noMultiple =>
    intro ha hlim hnone
    exact exec_locate_error hs rfl
      (by rw [locate_noMultiple _ (hpos ha) hlim hnone, BitVec.ofNat_toNat, BitVec.setWidth_eq])
  case first =>
    intro x ha hlim hb hx hm hfirst
    have hloc := locate_first t.toNat (hpos ha) hlim hb hx hm hfirst
    split at hloc
    case isTrue hover => rw [if_pos hover]; exact exec_locate_error hs rfl hloc
    case isFalse hfit => rw [if_neg hfit]; exact exec_locate_ok hs hloc

/-- R49: the table at an aligned 32-bit base always ends within the address space, so only the alignment decides. -/
theorem tableOk_iff (b : Word) : tableOk b = true ↔ b.toNat % 1024 = 0 := by
  have hlt := b.isLt
  simp only [tableOk, Bool.and_eq_true, decide_eq_true_eq]
  simp only [Config.tableAlign, Config.tableBytes, Config.addrLimit]
  omega

/-- Settles O15: the body of TBLCHK has no effect and answers `table_ok`, which is the alignment test
(`tableOk_iff`). -/
theorem tblchkAnswersTheAlignmentCheck : Obligations.TblchkAnswersTheAlignmentCheck := by
  unfold Obligations.TblchkAnswersTheAlignmentCheck
  intro b s
  refine ⟨rfl, tableOk_iff b, fun hs => ?_⟩
  rw [← respond_started]
  exact exec_done hs (by simp only [bodyOf, tableOk_iff]; rfl)

end Sys2Proof.Machine

/-! SUPPORT. What the requests for one channel share: the checks in front of them (spec 41_channel_setters.md R83, R123,
60_exceptions.md R126), and the answer of `exec` from the fields that a body writes. -/

namespace Sys2Proof.Machine

/-! ### The checks of a request for one channel -/

/-- R83: the request `i` checks its channel `ch`, and then goes on as `k`. -/
def ChannelRequest (i : Instr) (ch : BitVec 8) (k : Word → State → Result Word) : Prop :=
  ∀ op s, bodyOf i op s = inRange ch s (k op)

section ChannelRequest
variable {i : Instr} {ch : BitVec 8} {k : Word → State → Result Word} {s : State}

/-- R83: past its check the request is what comes after it. -/
theorem ChannelRequest.bodyOf_eq (h : ChannelRequest i ch k) (hc : ch.toNat < 32) (op : Word) (s : State) :
    bodyOf i op s = k op s := (h op s).trans (inRange_pass hc)

/-- R83: a channel of 32 and more raises ChannelRange, whatever comes after the check. -/
theorem ChannelRequest.exec_channelRange (h : ChannelRequest i ch k) (hs : Accepting s) (hc : 32 ≤ ch.toNat) :
    exec i s = .next (trapped i 4#8 (ch.setWidth 32) [] s) :=
  exec_trapped .channelRange hs rfl ((h _ _).trans (inRange_raise hc))

/-- R123: where the clock is checked next, ClockGated with the clock off. -/
theorem ChannelRequest.exec_clockGated (h : ChannelRequest i ch fun op s => clocked op s (k op)) (hs : Accepting s)
    (hc : ch.toNat < 32) (hclk : s.sys.clkEn = false) :
    exec i s = .next (trapped i 10#8 (packetOf i).op [] s) :=
  exec_trapped .clockGated hs rfl ((h.bodyOf_eq hc _ _).trans (clocked_raise hclk))

/-- R121: where the table base is checked after the clock, NoTable before a base has been written. -/
theorem ChannelRequest.exec_noTable (h : ChannelRequest i ch fun op s => clocked op s fun s => tabled op s (k op))
    (hs : Accepting s) (hc : ch.toNat < 32) (hclk : s.sys.clkEn = true) (hw : s.csr.ctlbaseWritten = false) :
    exec i s = .next (trapped i 11#8 (packetOf i).op [] s) :=
  exec_trapped .noTable hs rfl
    ((h.bodyOf_eq hc _ _).trans ((clocked_pass (s := started i s) hclk).trans (tabled_raise hw)))

/-- R83, R126: on a block with a table every check of a request for the table passes. -/
theorem ChannelRequest.bodyOf_tableReady
    (h : ChannelRequest i ch fun op s => clocked op s fun s => tabled op s (k op)) (hs : TableReady s)
    (hc : ch.toNat < 32) (op : Word) : bodyOf i op (started i s) = k op (started i s) :=
  have ⟨⟨_, hclk⟩, hw, _, _⟩ := hs
  (h.bodyOf_eq hc _ _).trans ((clocked_pass (s := started i s) hclk).trans (tabled_pass hw))

/-- R83: on a clocked block a request that only stores in the registers completes with value 0. -/
theorem ChannelRequest.exec_storeCsr {f : Csr → Csr} (h : ChannelRequest i ch fun op => storeCsr op f)
    (hs : Clocked s) (hc : ch.toNat < 32) :
    exec i s = .next { completed i 0#32 [] s with csr := f s.csr } := by
  obtain ⟨hacc, hclk⟩ := hs
  rw [← respond_started, ← respond_withCsr]
  exact exec_done hacc ((h.bodyOf_eq hc _ _).trans (clocked_pass (s := started i s) hclk))

end ChannelRequest

/-! ### The answer from the fields a body writes -/

/-- A body that goes through with events, and new registers, system bits and memory. -/
theorem exec_completed {i : Instr} {s : State} {v : Word} {evs : List Event} {c : Csr} {y : SysCtl} {m : Memory}
    (hs : Accepting s)
    (hb : bodyOf i (packetOf i).op (started i s) =
      .done v { started i s with csr := c, sys := y, mem := m, hist := (started i s).hist ++ evs }) :
    exec i s = .next { completed i v evs s with csr := c, sys := y, mem := m } := by
  rw [exec_done hs hb]
  simp [respond, emit, completed, historyAfter, statusOk]

/-- A stored word reads back, and the bytes outside it read as before. -/
theorem wordStored_writeWord {m : Memory} {a : Nat} (v : Word) (hm : Memory.wf m = true)
    (ha : a + 3 < Config.addrLimit) : WordStored m (writeWord m a v) a v :=
  ⟨readWord_writeWord_same hm ha, fun _ => readByte_writeWord_outside⟩

/-- R47: the address of an entry word of a block with a table is one where a stored word reads back. -/
theorem wordStored_entry {s : State} {ch : BitVec 8} {h : Half} {w : EntryWord} {a : Nat} (hs : TableReady s)
    (hc : ch.toNat < 32) (ha : a = entaddr s ch h w) (v : Word) : WordStored s.mem (writeWord s.mem a v) a v :=
  have ⟨_, _, hbase, hmem⟩ := hs
  wordStored_writeWord v hmem (ha ▸ (entaddr_bounds hbase hc h w).2.2)

/-! ### The packets of the setters -/

/-- R69, R70: a packet without arguments, from the opcode's word of the table and the low half-word. -/
theorem packet_opWordOf {o : Opcode} {ch : BitVec 8} {lo : BitVec 16} {x : Word} (h : lo.setWidth 32 = x) :
    (⟨opWordOf o ch lo, []⟩ : Packet) = ⟨o.matchWord ||| ch.setWidth 32 <<< 16 ||| x, []⟩ := by
  rw [opWordOf_eq h]

end Sys2Proof.Machine

/-! SUPPORT. CLKON (spec 41_channel_setters.md R84): what a step can be, that no step stops the clock, and CLKON's
completion. -/

namespace Sys2Proof.Machine

/-- Everything a step that answers a next state can have been (R9, R74): a wait for a whole packet, the request of the
packet, or the rejection of the packet. -/
theorem step_cases {s t : State} (h : step s = .next t) :
    (framePacket s.port = none ∧ t = s) ∨
    (∃ p rest i, framePacket s.port = some (p, rest) ∧ decode p = .ok i ∧
      exec i { s with port := rest } = .next t) ∨
    (∃ p rest e, framePacket s.port = some (p, rest) ∧ decode p = .error e ∧
      illegalPacket p e { s with port := rest } = .next t) := by
  rw [step] at h
  split at h
  next hf => exact .inl ⟨hf, by simpa using h.symm⟩
  next p rest hf =>
    split at h
    next i hd => exact .inr (.inl ⟨p, rest, i, hf, hd, h⟩)
    next e hd => exact .inr (.inr ⟨p, rest, e, hf, hd, h⟩)

/-- R74, R129: the rejection of a packet is a refusal or the fault IllegalCommand, and leaves the system bits. -/
theorem illegalPacket_sys {p : Packet} {e : DecodeError} {s t : State} (h : illegalPacket p e s = .next t) :
    t.sys = s.sys := by
  rcases request_cases h with ⟨_, rfl⟩ | ⟨_, v, u, hb, rfl⟩ | ⟨_, f, info, u, hb, rfl⟩
  · rfl
  · cases hb
  · cases hb; rfl

/-- R84: no request stops the clock. -/
theorem exec_clkEn {i : Instr} {s t : State} (h : exec i s = .next t) (hclk : s.sys.clkEn = true) :
    t.sys.clkEn = true :=
  exec_next (P := fun u => u.sys.clkEn = true) h
    ((bodyOf_forward i _ (started i s)).mono fun _ hf => hf.clk hclk)
    (fun _ _ hu => hu) (fun _ _ _ _ hu => hu) hclk

/-- R84: no step stops the clock. -/
theorem step_clkEn {s t : State} (hclk : s.sys.clkEn = true) (h : step s = .next t) : t.sys.clkEn = true := by
  rcases step_cases h with ⟨_, rfl⟩ | ⟨_, _, _, _, _, hi⟩ | ⟨_, _, _, _, _, he⟩
  · exact hclk
  · exact exec_clkEn hi hclk
  · rw [illegalPacket_sys he]; exact hclk

/-- R84: CLKON's body writes the two system bits and the history. -/
theorem clkonBody_eq (s : State) :
    clkonBody s =
      { s with
        sys := { clkEn := true, pwrOk := true }
        hist := s.hist ++ if s.sys.clkEn then [.settle] else [.clkSet, .settle] } := by
  cases hclk : s.sys.clkEn <;> simp [clkonBody, emit, hclk]

/-- Settles O19: every body keeps a running clock (`bodyOf_forward`), and CLKON's body is `clkonBody_eq`. -/
theorem clkonTurnsTheClockOn : Obligations.ClkonTurnsTheClockOn := by
  unfold Obligations.ClkonTurnsTheClockOn
  refine ⟨rfl, fun _ _ => step_clkEn, fun _ => rfl, fun s hs => ?_⟩
  exact exec_completed hs (congrArg (Result.done 0#32) (clkonBody_eq (started .clkon s)))

end Sys2Proof.Machine

/-! SUPPORT. The setters of the registers (spec 41_channel_setters.md R85, R86, R88, R90): SETMAP, SETPRIO, SETGRAN,
UNMASK. -/

namespace Sys2Proof.Machine

/-! ### The mapping registers -/

/-- R34: a mapping register after a write to one of the four. -/
theorem chmap_withChmap (c : Csr) (q r : Fin 4) (v : Word) :
    chmap (withChmap c q v) r = if r = q then v else chmap c r := by
  fin_cases q <;> fin_cases r <;> rfl

/-- R66: a channel that can be mapped has its field in register `ch div 4`. -/
theorem eq_mapIndex_iff {ch : BitVec 8} (hc : ch.toNat < 16) (r : Fin 4) :
    r = mapIndex ch ↔ r.val = ch.toNat / 4 := by
  rw [Fin.ext_iff, mapIndex, Fin.val_ofNat, Nat.mod_eq_of_lt (by omega)]

/-- R85: a mapping register after the encoding of a channel was ORed into its field. -/
theorem chmap_orMapping {ch : BitVec 8} (hc : ch.toNat < 16) (c : Csr) (enc : BitVec 8) (r : Fin 4) :
    chmap (orMapping c ch enc) r =
      if r.val = ch.toNat / 4 then chmap c r ||| enc.setWidth 32 <<< (8 * (ch.toNat % 4)) else chmap c r := by
  rw [orMapping, chmap_withChmap]
  by_cases hr : r = mapIndex ch
  · rw [if_pos hr, if_pos ((eq_mapIndex_iff hc r).mp hr), ← hr, mapShift]
  · rw [if_neg hr, if_neg (mt (eq_mapIndex_iff hc r).mpr hr)]

/-! ### The bodies -/

/-- R85: SETMAP checks the channel twice, then stores. -/
theorem setmap_channelRequest (ch enc : BitVec 8) :
    ChannelRequest (.setmap ch enc) ch fun op s => inMapRange ch s (storeCsr op fun c => orMapping c ch enc) :=
  fun _ _ => rfl

/-- R85: for a channel that can be mapped the second check of SETMAP passes. -/
theorem setmap_channelRequest_of_lt {ch : BitVec 8} (enc : BitVec 8) (hc : ch.toNat < 16) :
    ChannelRequest (.setmap ch enc) ch fun op => storeCsr op fun c => orMapping c ch enc := fun op s => by
  have hc' : ch.toNat < 32 := by omega
  rw [(setmap_channelRequest ch enc).bodyOf_eq hc', inMapRange_pass hc, inRange_pass hc']

/-- R86: SETPRIO writes the channel's priority bit. -/
theorem setprio_channelRequest (ch : BitVec 8) (t : Tier) :
    ChannelRequest (.setprio ch t) ch fun op =>
      storeCsr op fun c => { c with prio := putBit c.prio ch (t == .high) } := fun _ _ => rfl

/-- R88: SETGRAN writes the channel's burst-only bit. -/
theorem setgran_channelRequest (ch : BitVec 8) (g : Granularity) :
    ChannelRequest (.setgran ch g) ch fun op =>
      storeCsr op fun c => { c with useburst := putBit c.useburst ch (g == .burst) } := fun _ _ => rfl

/-- R90: UNMASK clears the channel's mask bit. -/
theorem unmask_channelRequest (ch : BitVec 8) :
    ChannelRequest (.unmask ch) ch fun op =>
      storeCsr op fun c => { c with reqmask := putBit c.reqmask ch false } := fun _ _ => rfl

/-! ### The statements -/

/-- Settles O20: the two channel checks and the clock check decide, then `chmap_orMapping` gives each register. -/
theorem setmapOrsTheEncoding : Obligations.SetmapOrsTheEncoding := by
  unfold Obligations.SetmapOrsTheEncoding
  intro ch enc s hs
  refine ⟨packet_opWordOf (setWidth_zero_append 8 enc), ?channel, ?map, ?clock, ?stored⟩
  case channel => exact (setmap_channelRequest ch enc).exec_channelRange hs
  case map =>
    intro hmap hc
    exact exec_trapped .mapRange hs rfl
      (((setmap_channelRequest ch enc).bodyOf_eq hc _ _).trans (inMapRange_raise hmap))
  case clock =>
    intro hc hclk
    exact (setmap_channelRequest_of_lt enc hc).exec_clockGated hs (by omega) hclk
  case stored =>
    intro hc hclk
    exact ⟨_, (setmap_channelRequest_of_lt enc hc).exec_storeCsr ⟨hs, hclk⟩ (by omega), orMapping_eq s.csr ch enc,
      chmap_orMapping hc s.csr enc⟩

/-- Settles O21: the priority vector becomes its `putBit` at the channel, by `setprio_channelRequest`. -/
theorem setprioWritesTheTierBit : Obligations.SetprioWritesTheTierBit := by
  unfold Obligations.SetprioWritesTheTierBit
  intro ch tier s hs
  have h := setprio_channelRequest ch tier
  refine ⟨packet_opWordOf (setWidth_zero_append 15 tier.code), h.exec_channelRange hs, h.exec_clockGated hs,
    fun hc hclk => ⟨_, h.exec_storeCsr ⟨hs, hclk⟩ hc, ?_, getLsbD_putBit_same hc, fun _ => getLsbD_putBit_ne⟩⟩
  simp only [putBit_eq, beq_iff_eq]

/-- Settles O22: the burst-only vector becomes its `putBit` at the channel, by `setgran_channelRequest`. -/
theorem setgranWritesTheBurstBit : Obligations.SetgranWritesTheBurstBit := by
  unfold Obligations.SetgranWritesTheBurstBit
  intro ch gran s hs
  have h := setgran_channelRequest ch gran
  refine ⟨packet_opWordOf (setWidth_zero_append 15 gran.code), h.exec_channelRange hs, h.exec_clockGated hs,
    fun hc hclk => ⟨_, h.exec_storeCsr ⟨hs, hclk⟩ hc, ?_, getLsbD_putBit_same hc, fun _ => getLsbD_putBit_ne⟩⟩
  simp only [putBit_eq, beq_iff_eq]

/-- Settles O23: the request mask becomes its `putBit` with 0 at the channel, by `unmask_channelRequest`. -/
theorem unmaskClearsTheMaskBit : Obligations.UnmaskClearsTheMaskBit := by
  unfold Obligations.UnmaskClearsTheMaskBit
  intro ch s hs
  have h := unmask_channelRequest ch
  refine ⟨(packet_opWordOf (x := 0#32) rfl).trans (by rw [BitVec.or_zero]; rfl), h.exec_channelRange hs,
    h.exec_clockGated hs,
    fun hc hclk => ⟨_, h.exec_storeCsr ⟨hs, hclk⟩ hc, putBit_eq _ _ _, getLsbD_putBit_same hc,
      fun _ => getLsbD_putBit_ne⟩⟩

end Sys2Proof.Machine

/-! SUPPORT. The setters of the control word (spec 41_channel_setters.md R87, R89): SETMODE, SETARB. -/

namespace Sys2Proof.Machine

/-- R87: SETMODE checks the channel, the clock and the table base, then runs its body. -/
theorem setmode_channelRequest (ch : BitVec 8) (m : TransferMode) :
    ChannelRequest (.setmode ch m) ch fun op s => clocked op s fun s => tabled op s fun s =>
      (setmodeBody ch m s).bind fun _ s => .done 0 s := fun _ _ => rfl

/-- R89: SETARB checks the channel, the clock and the table base, then runs its body. -/
theorem setarb_channelRequest (ch : BitVec 8) (arb : BitVec 4) :
    ChannelRequest (.setarb ch arb) ch fun op s => clocked op s fun s => tabled op s fun s =>
      (setarbBody ch arb s).bind fun _ s => .done 0 s := fun _ _ => rfl

/-- R59: the modes of the alternate group are all but STOP, BASIC and AUTO-REQUEST. -/
theorem not_primaryGroup (m : TransferMode) :
    (!primaryGroup m) = (m != .stop && m != .basic && m != .auto) := by
  cases m <;> rfl

/-! ### The control word at `a` -/

section ControlWord
variable {ch : BitVec 8} {m : TransferMode} {arb : BitVec 4} {s : State} {a : Nat}

/-- R87: SETMODE stores the mode in the control word, then writes the alternate-select bit. -/
theorem exec_setmode (hs : TableReady s) (hc : ch.toNat < 32) (ha : a = entaddr s ch (tgt s ch) .ctl)
    (hok : memOk s a = true) {new : Word} (hnew : new = insertField cwMode (readWord s.mem a) (m.code.setWidth 32)) :
    exec (.setmode ch m) s =
      .next { completed (.setmode ch m) 0#32 [.memR a (readWord s.mem a), .memW a new] s with
        mem := writeWord s.mem a new
        csr := { s.csr with altsel := putBit s.csr.altsel ch (!primaryGroup m) } } := by
  subst hnew
  have ⟨⟨hacc, _⟩, _, hbase, _⟩ := hs
  apply exec_completed hacc
  rw [(setmode_channelRequest ch m).bodyOf_tableReady hs hc,
    setmodeBody_done (s := started (.setmode ch m) s) hbase hc ha hok]
  rfl

/-- R87, R127: SETMODE where memory refuses the control word. -/
theorem exec_setmode_refused (hs : TableReady s) (hc : ch.toNat < 32) (ha : a = entaddr s ch (tgt s ch) .ctl)
    (hok : memOk s a = false) :
    exec (.setmode ch m) s = .next (trapped (.setmode ch m) 16#8 (BitVec.ofNat 32 a) [] s) := by
  have ⟨⟨hacc, _⟩, _, hbase, _⟩ := hs
  apply exec_trapped .memFault hacc rfl
  rw [(setmode_channelRequest ch m).bodyOf_tableReady hs hc,
    setmodeBody_raised (s := started (.setmode ch m) s) hbase hc ha hok, bind_raised]

/-- R89: SETARB stores the arbitration value in the control word. -/
theorem exec_setarb (hs : TableReady s) (hc : ch.toNat < 32) (ha : a = entaddr s ch (tgt s ch) .ctl)
    (hok : memOk s a = true) {new : Word} (hnew : new = insertField cwArb (readWord s.mem a) (arb.setWidth 32)) :
    exec (.setarb ch arb) s =
      .next { completed (.setarb ch arb) 0#32 [.memR a (readWord s.mem a), .memW a new] s with
        mem := writeWord s.mem a new } := by
  subst hnew
  have ⟨⟨hacc, _⟩, _, hbase, _⟩ := hs
  apply exec_completed hacc
  rw [(setarb_channelRequest ch arb).bodyOf_tableReady hs hc, setarbBody,
    rmwControl_done (s := started (.setarb ch arb) s) hbase hc ha hok]
  rfl

/-- R89, R127: SETARB where memory refuses the control word. -/
theorem exec_setarb_refused (hs : TableReady s) (hc : ch.toNat < 32) (ha : a = entaddr s ch (tgt s ch) .ctl)
    (hok : memOk s a = false) :
    exec (.setarb ch arb) s = .next (trapped (.setarb ch arb) 16#8 (BitVec.ofNat 32 a) [] s) := by
  have ⟨⟨hacc, _⟩, _, hbase, _⟩ := hs
  apply exec_trapped .memFault hacc rfl
  rw [(setarb_channelRequest ch arb).bodyOf_tableReady hs hc, setarbBody,
    rmwControl_raised (s := started (.setarb ch arb) s) hbase hc ha hok, bind_raised]

end ControlWord

/-! ### The statements -/

/-- Settles O24: the checks decide in their order, then `exec_setmode` gives the next state, whose control word differs
in the field `cwMode` alone. -/
theorem setmodeWritesModeAndAltSelect : Obligations.SetmodeWritesModeAndAltSelect := by
  unfold Obligations.SetmodeWritesModeAndAltSelect
  intro ch mode s hs
  have h := setmode_channelRequest ch mode
  refine ⟨packet_opWordOf (setWidth_zero_append 13 mode.code), h.exec_channelRange hs, h.exec_clockGated hs,
    h.exec_noTable hs, fun a ha hc hready hok => exec_setmode_refused hready hc ha hok, fun a ha hc hready hok =>
      ⟨_, _, _, exec_setmode hready hc ha hok rfl, wordStored_entry hready hc ha _, ?mode, ?kept,
        (getLsbD_putBit_same hc).trans (not_primaryGroup mode), fun _ => getLsbD_putBit_ne⟩⟩
  case mode => rw [extract_insertField_same cwMode_covers rfl (by omega), BitVec.extractLsb'_setWidth_of_le (by omega),
    BitVec.extractLsb'_eq_self]
  case kept => exact extract_insertField_other cwMode_covers (by omega) _ _

/-- Settles O25: the checks decide in their order, then `exec_setarb` gives the next state, whose control word differs
in the field `cwArb` alone. -/
theorem setarbWritesTheArbitrationField : Obligations.SetarbWritesTheArbitrationField := by
  unfold Obligations.SetarbWritesTheArbitrationField
  intro ch arb s hs
  have h := setarb_channelRequest ch arb
  refine ⟨packet_opWordOf (setWidth_zero_append 12 arb), h.exec_channelRange hs, h.exec_clockGated hs,
    h.exec_noTable hs, fun a ha hc hready hok => exec_setarb_refused hready hc ha hok, fun a ha hc hready hok =>
      ⟨_, _, exec_setarb hready hc ha hok rfl, wordStored_entry hready hc ha _, ?arb, ?below, ?above⟩⟩
  case arb => rw [extract_insertField_same cwArb_covers rfl (by omega), BitVec.extractLsb'_setWidth_of_le (by omega),
    BitVec.extractLsb'_eq_self]
  case below => exact extract_insertField_other cwArb_covers (by omega) _ _
  case above => exact extract_insertField_other cwArb_covers (by omega) _ _

end Sys2Proof.Machine

/-! SUPPORT. CFGSRC and CFGDST (spec 42_transfer_ops.md R92, R93), said once for the two sides: the checks in their
order, then an end pointer and four bits of the control word. -/

namespace Sys2Proof.Machine

/-! ### A fault after some effects, and two stored words -/

/-- R127, R128: a body that raises after events and a new memory keeps them beside the request's trap. -/
theorem exec_trapped_stored {i : Instr} {s : State} {code : Byte} {info : Word} {evs : List Event} {m : Memory}
    (f : FaultName) (hs : Accepting s) (hf : f.code = code)
    (hb : bodyOf i (packetOf i).op (started i s) =
      .raised f info { started i s with mem := m, hist := (started i s).hist ++ evs }) :
    exec i s = .next { trapped i code info evs s with mem := m } := by
  rw [exec_raised hs hb, ← hf]
  simp [trapped, trappedPacket, raiseFault, emit, historyAfter]

/-- Two words stored one after the other, with no byte in common: both read back, and only their bytes changed. -/
theorem WordStored.of_disjoint {m m₁ m₂ : Memory} {p a : Nat} {v u : Word} (hp : WordStored m m₁ p v)
    (ha : WordStored m₁ m₂ a u) (hd : p + 4 ≤ a ∨ a + 4 ≤ p) :
    readWord m₂ p = v ∧ readWord m₂ a = u ∧
      ∀ b, (b < p ∨ p + 4 ≤ b) → (b < a ∨ a + 4 ≤ b) → readByte m₂ b = readByte m b := by
  obtain ⟨hread, hkept⟩ := hp
  obtain ⟨hread', hkept'⟩ := ha
  refine ⟨?_, hread', fun b hbp hba => (hkept' b hba).trans (hkept b hbp)⟩
  rw [readWord_congr fun b _ _ => hkept' b (by omega), hread]

/-! ### What the encodings of the two sides share -/

/-- R69, R70: the packet of CFGSRC and CFGDST. -/
theorem packet_incSize (o : Opcode) (ch : BitVec 8) (inc : Increment) (z : ItemSize) (e : Word) :
    (⟨opWordOf o ch (0#12 ++ inc.code ++ z.code), [e]⟩ : Packet) =
      ⟨o.matchWord ||| ch.setWidth 32 <<< 16 ||| inc.code.setWidth 32 <<< 2 ||| z.code.setWidth 32, [e]⟩ := by
  rw [opWordOf_eq (setWidth_incSize inc z), ← BitVec.or_assoc]

/-- R92, R93: a field of four bits that takes increment and size holds the size in its low half, the increment in its
high half. -/
theorem extract_insertField_incSize {fld : CwField} {lo : Nat} (h : fld.covers lo 4 = true) (hs : fld.shift = lo)
    (hlo : lo + 4 ≤ 32) (w : Word) (inc : Increment) (z : ItemSize) :
    (insertField fld w (incSize inc z)).extractLsb' lo 2 = z.code ∧
      (insertField fld w (incSize inc z)).extractLsb' (lo + 2) 2 = inc.code :=
  have ⟨hsize, hinc⟩ := extract_incSize inc z
  ⟨(extract_insertField_part (k := 0) h hs hlo (by omega) w _).trans hsize,
    (extract_insertField_part h hs hlo (by omega) w _).trans hinc⟩

/-! ### The requests for one side -/

/-- R92, R93: the request `i` programs one side of the channel `ch`: after its checks it stores `e` in the end pointer
`w`, and increment and size in the field `fld` of the control word. -/
def EndpointRequest (i : Instr) (ch : BitVec 8) (w : EntryWord) (fld : CwField) (inc : Increment) (z : ItemSize)
    (e : Word) : Prop :=
  ChannelRequest i ch fun op s => sizeLegal z s fun s => clocked op s fun s => tabled op s fun s =>
    endpointBody ch w fld inc z e s

/-- R92: CFGSRC programs the source side. -/
theorem cfgsrc_endpointRequest (ch : BitVec 8) (inc : Increment) (z : ItemSize) (e : Word) :
    EndpointRequest (.cfgsrc ch inc z e) ch .src cwSource inc z e := fun _ _ => rfl

/-- R93: CFGDST programs the destination side. -/
theorem cfgdst_endpointRequest (ch : BitVec 8) (inc : Increment) (z : ItemSize) (e : Word) :
    EndpointRequest (.cfgdst ch inc z e) ch .dst cwDest inc z e := fun _ _ => rfl

section EndpointRequest
variable {i : Instr} {ch : BitVec 8} {w : EntryWord} {fld : CwField} {inc : Increment} {z : ItemSize} {e : Word}
  {s : State} {p a : Nat}

/-- R92, R93: item size 3 raises BadOperand, with the clock on or off. -/
theorem EndpointRequest.exec_badOperand (h : EndpointRequest i ch w fld inc z e) (hs : Accepting s)
    (hc : ch.toNat < 32) (hz : z = .reserved) : exec i s = .next (trapped i 6#8 3#32 [] s) := by
  subst hz
  exact exec_trapped .badOperand hs rfl ((h.bodyOf_eq hc _ _).trans sizeLegal_raise)

/-- R92, R93: with a legal item size the check of it passes. -/
theorem EndpointRequest.channelRequest (h : EndpointRequest i ch w fld inc z e) (hz : z ≠ .reserved) :
    ChannelRequest i ch fun op s => clocked op s fun s => tabled op s fun s => endpointBody ch w fld inc z e s :=
  fun op s => (h op s).trans (congrArg (inRange ch s) (funext fun _ => sizeLegal_pass hz))

/-- R127: where memory refuses the end pointer, nothing is stored. -/
theorem EndpointRequest.exec_pointerRefused (h : EndpointRequest i ch w fld inc z e) (hz : z ≠ .reserved)
    (hs : TableReady s) (hc : ch.toNat < 32) (hp : p = entaddr s ch (tgt s ch) w) (hokp : memOk s p = false) :
    exec i s = .next (trapped i 16#8 (BitVec.ofNat 32 p) [] s) := by
  have ⟨⟨hacc, _⟩, _, hbase, _⟩ := hs
  apply exec_trapped .memFault hacc rfl
  rw [(h.channelRequest hz).bodyOf_tableReady hs hc, endpointBody_raised_first (s := started i s) hbase hc hp hokp]

/-- R127: where memory refuses the control word, the end pointer stays stored. -/
theorem EndpointRequest.exec_controlRefused (h : EndpointRequest i ch w fld inc z e) (hz : z ≠ .reserved)
    (hs : TableReady s) (hc : ch.toNat < 32) (hp : p = entaddr s ch (tgt s ch) w)
    (ha : a = entaddr s ch (tgt s ch) .ctl) (hokp : memOk s p = true) (hoka : memOk s a = false) :
    exec i s =
      .next { trapped i 16#8 (BitVec.ofNat 32 a) [.memW p e] s with mem := writeWord s.mem p e } := by
  have ⟨⟨hacc, _⟩, _, hbase, _⟩ := hs
  apply exec_trapped_stored .memFault hacc rfl
  rw [(h.channelRequest hz).bodyOf_tableReady hs hc,
    endpointBody_raised_second (s := started i s) hbase hc hp ha hokp hoka]
  rfl

/-- R46: an end pointer shares no byte with the control word. -/
theorem entaddr_pointer_disjoint (hc : ch.toNat < 32) (hw : w ≠ .ctl) (hp : p = entaddr s ch (tgt s ch) w)
    (ha : a = entaddr s ch (tgt s ch) .ctl) : p + 4 ≤ a ∨ a + 4 ≤ p := by
  subst hp ha
  exact entryAddr_disjoint hc hc fun heq => hw (by simpa using heq)

/-- R92, R93: where memory accepts both accesses, the end pointer is stored, then the control word, which reads as it
did before the pointer was stored. -/
theorem EndpointRequest.exec_stored (h : EndpointRequest i ch w fld inc z e) (hw : w ≠ .ctl) (hz : z ≠ .reserved)
    (hs : TableReady s) (hc : ch.toNat < 32) (hp : p = entaddr s ch (tgt s ch) w)
    (ha : a = entaddr s ch (tgt s ch) .ctl) (hokp : memOk s p = true) (hoka : memOk s a = true) {new : Word}
    (hnew : new = insertField fld (readWord s.mem a) (incSize inc z)) :
    exec i s =
      .next { completed i 0#32 [.memW p e, .memR a (readWord s.mem a), .memW a new] s with
        mem := writeWord (writeWord s.mem p e) a new } := by
  have ⟨⟨hacc, _⟩, _, hbase, _⟩ := hs
  have hctl : readWord (writeWord s.mem p e) a = readWord s.mem a :=
    readWord_writeWord_disjoint (entaddr_pointer_disjoint hc hw hp ha).symm
  rw [hnew, ← hctl]
  apply exec_completed hacc
  rw [(h.channelRequest hz).bodyOf_tableReady hs hc,
    endpointBody_done (s := started i s) hbase hc hp ha rfl hokp hoka]
  rfl

/-- R46, R92, R93: the stored end pointer and control word read back, and every byte outside the two reads as before. -/
theorem EndpointRequest.exec_stored_reads (h : EndpointRequest i ch w fld inc z e) (hw : w ≠ .ctl)
    (hz : z ≠ .reserved) (hs : TableReady s) (hc : ch.toNat < 32) (hp : p = entaddr s ch (tgt s ch) w)
    (ha : a = entaddr s ch (tgt s ch) .ctl) (hokp : memOk s p = true) (hoka : memOk s a = true) {new : Word}
    (hnew : new = insertField fld (readWord s.mem a) (incSize inc z)) :
    ∃ m, exec i s =
        .next { completed i 0#32 [.memW p e, .memR a (readWord s.mem a), .memW a new] s with mem := m } ∧
      readWord m p = e ∧ readWord m a = new ∧
      ∀ b, (b < p ∨ p + 4 ≤ b) → (b < a ∨ a + 4 ≤ b) → readByte m b = readByte s.mem b := by
  have ⟨_, _, hbase, hmem⟩ := hs
  have bound (v : EntryWord) := (entaddr_bounds hbase hc (tgt s ch) v).2.2
  have hwf : Memory.wf (writeWord s.mem p e) = true := writeWord_wf hmem (hp ▸ bound w)
  exact ⟨_, h.exec_stored hw hz hs hc hp ha hokp hoka hnew,
    (wordStored_entry hs hc hp e).of_disjoint (wordStored_writeWord new hwf (ha ▸ bound .ctl))
      (entaddr_pointer_disjoint hc hw hp ha)⟩

end EndpointRequest

/-! ### The statements -/

/-- Settles O31: CFGSRC is the `EndpointRequest` of the source side, and the control word it stores differs in the field
`cwSource` alone. -/
theorem cfgsrcProgramsTheSourceSide : Obligations.CfgsrcProgramsTheSourceSide := by
  unfold Obligations.CfgsrcProgramsTheSourceSide
  intro ch inc z e s hs
  have h := cfgsrc_endpointRequest ch inc z e
  refine ⟨packet_incSize .cfgsrc ch inc z e, ChannelRequest.exec_channelRange h hs, h.exec_badOperand hs,
    fun hc hz => (h.channelRequest hz).exec_clockGated hs hc, fun hc hz => (h.channelRequest hz).exec_noTable hs hc,
    fun p a hp ha hc hz hready => ⟨h.exec_pointerRefused hz hready hc hp, fun hokp hoka =>
      ⟨_, h.exec_controlRefused hz hready hc hp ha hokp hoka, wordStored_entry hready hc hp e⟩, ?stored⟩⟩
  case stored =>
    intro hokp hoka
    obtain ⟨m, hexec, hreadp, hreada, hkept⟩ := h.exec_stored_reads (by decide) hz hready hc hp ha hokp hoka rfl
    have ⟨hsize, hinc⟩ := extract_insertField_incSize cwSource_covers rfl (by omega) (readWord s.mem a) inc z
    exact ⟨m, _, hexec, hreadp, hreada, hkept, hsize, hinc, extract_insertField_other cwSource_covers (by omega) _ _,
      extract_insertField_other cwSource_covers (by omega) _ _⟩

/-- Settles O32: CFGDST is the `EndpointRequest` of the destination side, and the control word it stores differs in the
field `cwDest` alone. -/
theorem cfgdstProgramsTheDestinationSide : Obligations.CfgdstProgramsTheDestinationSide := by
  unfold Obligations.CfgdstProgramsTheDestinationSide
  intro ch inc z e s hs
  have h := cfgdst_endpointRequest ch inc z e
  refine ⟨packet_incSize .cfgdst ch inc z e, ChannelRequest.exec_channelRange h hs, h.exec_badOperand hs,
    fun hc hz => (h.channelRequest hz).exec_clockGated hs hc, fun hc hz => (h.channelRequest hz).exec_noTable hs hc,
    fun p a hp ha hc hz hready => ⟨h.exec_pointerRefused hz hready hc hp, fun hokp hoka =>
      ⟨_, h.exec_controlRefused hz hready hc hp ha hokp hoka, wordStored_entry hready hc hp e⟩, ?stored⟩⟩
  case stored =>
    intro hokp hoka
    obtain ⟨m, hexec, hreadp, hreada, hkept⟩ := h.exec_stored_reads (by decide) hz hready hc hp ha hokp hoka rfl
    have ⟨hsize, hinc⟩ := extract_insertField_incSize cwDest_covers rfl (by omega) (readWord s.mem a) inc z
    exact ⟨m, _, hexec, hreadp, hreada, hkept, hsize, hinc, extract_insertField_other cwDest_covers (by omega) _ _⟩

end Sys2Proof.Machine

/-! SUPPORT. The registers that are no port of a vector (spec 43_csr_access.md): what RD and WR of ERRCLR, CHASGN,
CHMAP0 to CHMAP3, CFG, CTLBASE, ALTBASE and SWREQ do on an unfaulted block. -/

namespace Sys2Proof.Machine

/-! ### Register requests that always raise -/

/-- R96, R128: the read of a register that raises whatever the clock is traps with no other effect. -/
theorem exec_ofRead_trapped {r : Reg} {f : FaultName} {info : Word} {s : State} (hs : Accepting s)
    (hr : ∀ op t, readReg r op t = .raised f info t) :
    exec (.ofRead r) s = .next (trapped (.ofRead r) f.code info [] s) :=
  exec_trapped f hs rfl (by rw [bodyOf_ofRead, hr])

/-- R97, R128: the write of a register that raises whatever the clock is traps with no other effect. -/
theorem exec_ofWrite_trapped {r : Reg} {d : Word} {f : FaultName} {info : Word} {s : State} (hs : Accepting s)
    (hr : ∀ op t, writeReg r d op t = .raised f info t) :
    exec (.ofWrite d r) s = .next (trapped (.ofWrite d r) f.code info [] s) :=
  exec_trapped f hs rfl (by rw [bodyOf_ofWrite, hr])

/-! ### ERRCLR: no step sets an error bit -/

/-- R74, R129: the rejection of a packet leaves the registers. -/
theorem illegalPacket_csr {p : Packet} {e : DecodeError} {s t : State} (h : illegalPacket p e s = .next t) :
    t.csr = s.csr := by
  rcases request_cases h with ⟨_, rfl⟩ | ⟨_, v, u, hb, rfl⟩ | ⟨_, f, info, u, hb, rfl⟩
  · rfl
  · cases hb
  · cases hb; rfl

/-- R114: no request sets an error bit. -/
theorem exec_err {i : Instr} {s t : State} (h : exec i s = .next t) (k : Nat)
    (ht : t.csr.err.getLsbD k = true) : s.csr.err.getLsbD k = true :=
  exec_next (P := fun u => u.csr.err.getLsbD k = true → s.csr.err.getLsbD k = true) h
    ((bodyOf_forward i _ (started i s)).mono fun _ hf => hf.err k)
    (fun _ _ hu => hu) (fun _ _ _ _ hu => hu) id ht

/-- R114: no step sets an error bit. -/
theorem step_err {s t : State} (h : step s = .next t) (k : Nat) (ht : t.csr.err.getLsbD k = true) :
    s.csr.err.getLsbD k = true := by
  rcases step_cases h with ⟨_, rfl⟩ | ⟨_, _, _, _, _, hi⟩ | ⟨_, _, _, _, _, he⟩
  · exact ht
  · exact exec_err hi k ht
  · rwa [illegalPacket_csr he] at ht

/-- R114: without the engine an error vector of 0 stays 0. -/
theorem step_err_zero {s t : State} (hs : s.csr.err = 0#32) (h : step s = .next t) : t.csr.err = 0#32 := by
  apply BitVec.eq_of_getLsbD_eq
  intro k _
  have hnone : ¬ t.csr.err.getLsbD k = true := fun ht => by simpa [hs] using step_err h k ht
  simpa using hnone

/-- Settles O42: no step sets an error bit (`step_err_zero`), and ERRCLR is a register that only stores and only
answers. -/
theorem errclrClearsErrorBits : Obligations.ErrclrClearsErrorBits := by
  unfold Obligations.ErrclrClearsErrorBits
  refine ⟨rfl, fun _ => rfl, fun _ _ => step_err_zero, fun _ => rfl, fun d s hs => ⟨?write, ?read⟩⟩
  case write =>
    exact exec_ofWrite_of_storeCsr (r := .errclr) (f := fun c => { c with err := clrPort c.err d }) hs fun _ _ => rfl
  case read => exact exec_ofRead_of_clocked (r := .errclr) (get := Csr.err) hs fun _ _ => rfl

/-! ### CHASGN and CHMAP0 to CHMAP3: plain storage -/

/-- R115: the register `r` is plain storage for the word that `get` reads and `put` replaces. -/
structure PlainStorage (r : Reg) (get : Csr → Word) (put : Csr → Word → Csr) : Prop where
  write : ∀ d op s, writeReg r d op s = storeCsr op (fun c => put c d) s
  read : ∀ op s, readReg r op s = clocked op s fun t => .done (get t.csr) t

/-- R115: what the two requests of a plain storage register do on a clocked block. -/
theorem PlainStorage.exec_requests {r : Reg} {get : Csr → Word} {put : Csr → Word → Csr}
    (h : PlainStorage r get put) (d : Word) {s : State} (hs : Clocked s) :
    exec (.ofWrite d r) s = .next { completed (.ofWrite d r) 0#32 [] s with csr := put s.csr d } ∧
      exec (.ofRead r) s = .next (completed (.ofRead r) (get s.csr) [] s) :=
  ⟨exec_ofWrite_of_storeCsr hs (h.write d), exec_ofRead_of_clocked hs h.read⟩

/-- R33, R115. -/
theorem plainStorage_chasgn : PlainStorage .chasgn Csr.chasgn (fun c d => { c with chasgn := d }) :=
  ⟨fun _ _ _ => rfl, fun _ _ => rfl⟩

/-- R34, R116. -/
theorem plainStorage_chmap0 : PlainStorage .chmap0 Csr.chmap0 (fun c d => { c with chmap0 := d }) :=
  ⟨fun _ _ _ => rfl, fun _ _ => rfl⟩

/-- R34, R117. -/
theorem plainStorage_chmap1 : PlainStorage .chmap1 Csr.chmap1 (fun c d => { c with chmap1 := d }) :=
  ⟨fun _ _ _ => rfl, fun _ _ => rfl⟩

/-- R34, R118. -/
theorem plainStorage_chmap2 : PlainStorage .chmap2 Csr.chmap2 (fun c d => { c with chmap2 := d }) :=
  ⟨fun _ _ _ => rfl, fun _ _ => rfl⟩

/-- R34, R119. -/
theorem plainStorage_chmap3 : PlainStorage .chmap3 Csr.chmap3 (fun c d => { c with chmap3 := d }) :=
  ⟨fun _ _ _ => rfl, fun _ _ => rfl⟩

/-- Settles O43: the packets are those of the registers' offsets (R44), and `PlainStorage.exec_requests` holds of each
register. -/
theorem plainStorageRegisters : Obligations.PlainStorageRegisters := by
  unfold Obligations.PlainStorageRegisters
  refine ⟨rfl, fun _ => rfl, rfl, fun _ => rfl, rfl, fun _ => rfl, rfl, fun _ => rfl, rfl, fun _ => rfl, ?_⟩
  intro d s hs
  obtain ⟨wrChasgn, rdChasgn⟩ := plainStorage_chasgn.exec_requests d hs
  obtain ⟨wrChmap0, rdChmap0⟩ := plainStorage_chmap0.exec_requests d hs
  obtain ⟨wrChmap1, rdChmap1⟩ := plainStorage_chmap1.exec_requests d hs
  obtain ⟨wrChmap2, rdChmap2⟩ := plainStorage_chmap2.exec_requests d hs
  obtain ⟨wrChmap3, rdChmap3⟩ := plainStorage_chmap3.exec_requests d hs
  exact ⟨wrChasgn, rdChasgn, wrChmap0, rdChmap0, wrChmap1, rdChmap1, wrChmap2, rdChmap2, wrChmap3, rdChmap3⟩

/-! ### CFG: the master enable -/

/-- R99: bits [31:1] are all 0 in the words 0 and 1 alone. -/
theorem extract_upper31_eq_zero (d : Word) : d.extractLsb' 1 31 = 0#31 ↔ d = 0#32 ∨ d = 1#32 := by
  simp only [← BitVec.toNat_inj, BitVec.extractLsb'_toNat, BitVec.toNat_ofNat, Nat.shiftRight_eq_div_pow]
  omega

/-- R99: data other than 0 and 1 is refused before the clock is looked at. -/
theorem writeReg_cfg_raised {d : Word} (h0 : d ≠ 0#32) (h1 : d ≠ 1#32) (op : Word) (s : State) :
    writeReg .cfg d op s = .raised .badOperand d s :=
  if_pos fun h => ((extract_upper31_eq_zero d).mp h).elim h0 h1

/-- R99: data 0 and 1 is stored as the master enable. -/
theorem writeReg_cfg_stored {d : Word} (h : d = 0#32 ∨ d = 1#32) (op : Word) (s : State) :
    writeReg .cfg d op s = storeCsr op (fun c => { c with masten := d == 1#32 }) s := by
  have hbit : d.getLsbD 0 = (d == 1#32) := by rcases h with rfl | rfl <;> rfl
  rw [← hbit]
  exact if_neg (not_not_intro ((extract_upper31_eq_zero d).mpr h))

/-- R99: CFG reads the master enable, zero-extended. -/
theorem readReg_cfg (op : Word) (s : State) :
    readReg .cfg op s = clocked op s fun t => .done (if t.csr.masten then 1#32 else 0#32) t := by
  have hext : ∀ b : Bool, (BitVec.ofBool b).setWidth 32 = if b then 1#32 else 0#32 := by decide
  simp only [readReg, hext]

/-- Settles O44: the two branches of WR CFG are `writeReg_cfg_raised` and `writeReg_cfg_stored`. -/
theorem cfgHoldsTheMasterEnable : Obligations.CfgHoldsTheMasterEnable := by
  unfold Obligations.CfgHoldsTheMasterEnable
  refine ⟨rfl, fun _ => rfl, fun d s hs => ⟨?read, ?raised, ?stored⟩⟩
  case read =>
    intro hclk
    exact exec_ofRead_of_clocked (r := .cfg) (get := fun c => if c.masten then 1#32 else 0#32) ⟨hs, hclk⟩ readReg_cfg
  case raised =>
    intro h0 h1
    exact exec_ofWrite_trapped (r := .cfg) hs (writeReg_cfg_raised h0 h1)
  case stored =>
    intro hd hclk
    exact exec_ofWrite_of_storeCsr (r := .cfg) ⟨hs, hclk⟩ (writeReg_cfg_stored hd)

/-! ### CTLBASE: written once, aligned -/

/-- R22: a base other than the one already written. -/
theorem programBase_raised {b : Word} {s : State} (hw : s.csr.ctlbaseWritten = true) (hb : b ≠ s.csr.ctlbase) :
    programBase b s = .raised .baseRewrite b s := by
  simp [programBase, hw, hb]

/-- R22: a first base, or the one already written. -/
theorem programBase_done {b : Word} {s : State} (h : s.csr.ctlbaseWritten = false ∨ b = s.csr.ctlbase) :
    programBase b s = .done () { s with csr := { s.csr with ctlbase := b, ctlbaseWritten := true } } := by
  rcases h with h | h <;> simp [programBase, h]

/-- R100: with the clock on, WR CTLBASE is the alignment test and then the programming of the base. -/
theorem writeReg_ctlbase {d op : Word} {s : State} (hclk : s.sys.clkEn = true) :
    writeReg .ctlbase d op s =
      if d.toNat % 1024 ≠ 0 then .raised .tableAlign d s
      else (programBase d s).bind fun _ t => .done 0#32 t := by
  simp only [writeReg, writeCtlbase, clocked_pass hclk, Config.tableAlign]
  rfl

/-- R100: a value that is no multiple of 1024. -/
theorem writeReg_ctlbase_unaligned {d op : Word} {s : State} (hclk : s.sys.clkEn = true) (hd : d.toNat % 1024 ≠ 0) :
    writeReg .ctlbase d op s = .raised .tableAlign d s := by
  rw [writeReg_ctlbase hclk, if_pos hd]

/-- R100: a multiple of 1024 other than the base already written. -/
theorem writeReg_ctlbase_rewrite {d op : Word} {s : State} (hclk : s.sys.clkEn = true) (hd : d.toNat % 1024 = 0)
    (hw : s.csr.ctlbaseWritten = true) (hne : d ≠ s.csr.ctlbase) :
    writeReg .ctlbase d op s = .raised .baseRewrite d s := by
  rw [writeReg_ctlbase hclk, if_neg (not_not_intro hd), programBase_raised hw hne, bind_raised]

/-- R100: a multiple of 1024 as the first base, or the base already written. -/
theorem writeReg_ctlbase_written {d op : Word} {s : State} (hclk : s.sys.clkEn = true) (hd : d.toNat % 1024 = 0)
    (h : s.csr.ctlbaseWritten = false ∨ d = s.csr.ctlbase) :
    writeReg .ctlbase d op s =
      .done 0#32 { s with csr := { s.csr with ctlbase := d, ctlbaseWritten := true } } := by
  rw [writeReg_ctlbase hclk, if_neg (not_not_intro hd), programBase_done h, bind_done]

/-- Settles O45: the alignment test, then the two cases of the base, each one lemma about `writeReg`. -/
theorem ctlbaseIsWrittenOnceAligned : Obligations.CtlbaseIsWrittenOnceAligned := by
  unfold Obligations.CtlbaseIsWrittenOnceAligned
  refine ⟨rfl, fun _ => rfl, fun d s hs => ?_⟩
  obtain ⟨hacc, hclk⟩ := hs
  have hclk' : (started (.wrCtlbase d) s).sys.clkEn = true := hclk
  refine ⟨?read, ?unaligned, ?rewrite, ?written⟩
  case read => exact exec_ofRead_of_clocked (r := .ctlbase) (get := Csr.ctlbase) ⟨hacc, hclk⟩ fun _ _ => rfl
  case unaligned =>
    intro hd
    exact exec_trapped .tableAlign hacc rfl (writeReg_ctlbase_unaligned hclk' hd)
  case rewrite =>
    intro hd hw hne
    exact exec_trapped .baseRewrite hacc rfl (writeReg_ctlbase_rewrite hclk' hd hw hne)
  case written =>
    intro hd h
    rw [← respond_started, ← respond_withCsr]
    exact exec_done hacc (writeReg_ctlbase_written hclk' hd h)

/-! ### ALTBASE: the address of the alternate half -/

/-- R23: an aligned base leaves room for the table, so that half of it further on does not wrap. -/
theorem toNat_altBase {c : Csr} (h : c.ctlbase.toNat % 1024 = 0) : (altBase c).toNat = c.ctlbase.toNat + 512 := by
  have hlt := c.ctlbase.isLt
  rw [altBase, BitVec.toNat_add, BitVec.toNat_ofNat]
  omega

/-- Settles O46: ALTBASE only answers `altBase`, and its write always raises. -/
theorem altbaseIsTheBasePlus512 : Obligations.AltbaseIsTheBasePlus512 := by
  unfold Obligations.AltbaseIsTheBasePlus512
  refine ⟨rfl, fun _ => rfl, fun d s hs => ⟨?read, toNat_altBase, ?write⟩⟩
  case read =>
    intro hclk
    exact exec_ofRead_of_clocked (r := .altbase) (get := altBase) ⟨hs, hclk⟩ fun _ _ => rfl
  case write => exact exec_ofWrite_trapped (r := .altbase) hs fun _ _ => rfl

/-! ### SWREQ: software requests -/

/-- R25: the channels that a software request names, in ascending order. -/
def requestedChannels (d : Word) : List Nat := (List.range 32).filter fun i => d.getLsbD i

/-- R103: strictly ascending. -/
theorem requestedChannels_ascending (d : Word) : (requestedChannels d).Pairwise (· < ·) :=
  List.pairwise_lt_range.filter _

/-- R103: exactly the bits that are 1. -/
theorem mem_requestedChannels {d : Word} {i : Nat} : i ∈ requestedChannels d ↔ d.getLsbD i = true := by
  simp only [requestedChannels, List.mem_filter, List.mem_range]
  exact and_iff_right_of_imp BitVec.lt_of_getLsbD

/-- R25, R103: with the clock on, WR SWREQ emits the events of its channels and does nothing else. -/
theorem writeReg_swreq {d op : Word} {s : State} (hclk : s.sys.clkEn = true) :
    writeReg .swreq d op s = .done 0#32 (emitAll ((requestedChannels d).map Event.swReq) s) := by
  simp only [writeReg, clocked_pass hclk]
  rfl

/-- R103: on a clocked block WR SWREQ completes with the events of its channels, and changes no register. -/
theorem exec_wrSwreq {d : Word} {s : State} (hs : Clocked s) :
    exec (.wrSwreq d) s = .next (completed (.wrSwreq d) 0#32 ((requestedChannels d).map Event.swReq) s) := by
  obtain ⟨hacc, hclk⟩ := hs
  have hclk' : (started (.wrSwreq d) s).sys.clkEn = true := hclk
  exact exec_completed (c := s.csr) (y := s.sys) (m := s.mem) hacc (writeReg_swreq hclk')

/-- Settles O48: the events are those of `requestedChannels`, and the read always raises. -/
theorem swreqEmitsRequestsInOrder : Obligations.SwreqEmitsRequestsInOrder := by
  unfold Obligations.SwreqEmitsRequestsInOrder
  refine ⟨rfl, fun _ => rfl, fun d s hs => ⟨?write, ?read⟩⟩
  case write =>
    intro hclk
    exact ⟨requestedChannels d, exec_wrSwreq ⟨hs, hclk⟩, requestedChannels_ascending d, fun _ => mem_requestedChannels⟩
  case read => exact exec_ofRead_trapped (r := .swreq) hs fun _ _ => rfl

end Sys2Proof.Machine

/-! SUPPORT. RD and WR at an offset outside the register map (spec 20_memory.md R45, 43_csr_access.md R120): the offsets
that no register has, and the packets of the generic rows. -/

namespace Sys2Proof.Machine

/-- R45: the offset is not a multiple of 4, or lies in one of the four holes of the map. -/
abbrev OutsideMap (off : BitVec 12) : Prop :=
  off.toNat % 4 ≠ 0 ∨ (0x040 ≤ off.toNat ∧ off.toNat ≤ 0x048) ∨ (0x050 ≤ off.toNat ∧ off.toNat ≤ 0x4fc) ∨
    (0x504 ≤ off.toNat ∧ off.toNat ≤ 0x50c) ∨ 0x520 ≤ off.toNat

/-- R44, R45: no register's offset is outside the map. -/
theorem offset_not_outsideMap (r : Reg) : ¬ OutsideMap r.offset := by
  cases r <;> decide

/-- R45: an offset outside the map is no register's. -/
theorem ofOffset_outsideMap {off : BitVec 12} (h : OutsideMap off) : Reg.ofOffset? off = none := by
  cases hr : Reg.ofOffset? off with
  | none => rfl
  | some r => exact absurd (Reg.offset_ofOffset hr ▸ h) (offset_not_outsideMap r)

/-- R120: a read outside the map raises BadOffset before the clock is looked at. -/
theorem readOffset_outsideMap {off : BitVec 12} (h : OutsideMap off) (op : Word) (s : State) :
    readOffset off op s = .raised .badOffset (off.setWidth 32) s := by
  rw [readOffset, ofOffset_outsideMap h, offsetInfo]

/-- R120: a write outside the map raises BadOffset before the clock is looked at. -/
theorem writeOffset_outsideMap {off : BitVec 12} (h : OutsideMap off) (d op : Word) (s : State) :
    writeOffset off d op s = .raised .badOffset (off.setWidth 32) s := by
  rw [writeOffset, ofOffset_outsideMap h, offsetInfo]

/-- R69: the OP word of a generic row, with channel 0. -/
theorem opWordOf_offset (o : Opcode) (off : BitVec 12) :
    opWordOf o 0#8 (0#4 ++ off) = o.matchWord ||| off.setWidth 32 := by
  rw [opWordOf_eq (setWidth_zero_append 4 off), BitVec.setWidth_zero, BitVec.zero_shiftLeft, BitVec.or_zero]

/-- Settles O49: an offset outside the map is no register's (`ofOffset_outsideMap`), and the map is looked at before
the clock. -/
theorem unmappedOffsetsRaiseBadOffset : Obligations.UnmappedOffsetsRaiseBadOffset := by
  unfold Obligations.UnmappedOffsetsRaiseBadOffset
  refine ⟨fun off d => ⟨?rdPacket, ?wrPacket⟩, fun off d s hs (hoff : OutsideMap off) => ⟨?rd, ?wr⟩⟩
  case rdPacket => rw [packetOf, readPacket, opWordOf_offset]; rfl
  case wrPacket => rw [packetOf, writePacket, opWordOf_offset]; rfl
  case rd => exact exec_trapped .badOffset hs rfl (readOffset_outsideMap hoff _ _)
  case wr => exact exec_trapped .badOffset hs rfl (writeOffset_outsideMap hoff d _ _)

end Sys2Proof.Machine

/-! SUPPORT. An accepted packet is the packet of the request it decodes to (spec 30_encoding.md R69, R70, R74): the mask
of a row fixes every bit of the OP word that no operand field holds. -/

namespace Sys2Proof

/-! ### An OP word that matches its row -/

/-- R70: the opcode byte of the OP word is listed, and its bits outside the operand fields are those of the row. -/
structure Opcode.Matches (o : Opcode) (op : Word) : Prop where
  code : Opcode.ofCode? (opcodeField op) = some o
  mask : op &&& o.mask = o.matchWord

/-- What the decoder checked of a packet that it accepts. -/
theorem decode_eq_ok {p : Packet} {i : Instr} (h : decode p = .ok i) :
    ∃ o : Opcode, o.Matches p.op ∧ p.args.length = o.argc p.op ∧ decodeFields o p.op p.args = .ok i := by
  rw [decode] at h
  split at h
  next => cases h
  next o hcode =>
    split at h
    next => cases h
    next hmask =>
      split at h
      next => cases h
      next hargs => exact ⟨o, ⟨hcode, not_not.mp hmask⟩, not_not.mp hargs, h⟩

/-- R70: every row's match bits below the opcode byte are 0. -/
theorem Opcode.matchWord_field (o : Opcode) {k n : Nat} (h : k + n ≤ 24) : o.matchWord.extractLsb' k n = 0#n := by
  have hcode : o.matchWord = (o.code ++ 0#24 : BitVec 32) := by cases o <;> rfl
  rw [hcode, BitVec.extractLsb'_append_eq_of_add_le h, BitVec.extractLsb'_zero]

section Matches
variable {o : Opcode} {op : Word}

/-- R70: a field below the opcode byte that the row's mask covers is 0. -/
theorem Opcode.Matches.field_zero (h : o.Matches op) {k n : Nat} (hmask : o.mask.extractLsb' k n = BitVec.allOnes n)
    (hk : k + n ≤ 24 := by decide) : op.extractLsb' k n = 0#n := by
  rw [← o.matchWord_field hk, ← h.mask, BitVec.extractLsb'_and, hmask, BitVec.and_allOnes]

/-- R70: the low half-word of a row with one operand field, at bit 0, is that field under 0s. -/
theorem Opcode.Matches.low_field (h : o.Matches op) {k n : Nat} (hmask : o.mask.extractLsb' n k = BitVec.allOnes k)
    (hk : n + k ≤ 24 := by decide) : 0#k ++ op.extractLsb' 0 n = op.extractLsb' 0 (k + n) := by
  rw [← h.field_zero hmask hk, BitVec.extractLsb'_append_extractLsb'_eq_extractLsb' (Nat.zero_add n).symm]

/-- The OP word of a row with a channel, from its channel and its low half-word. -/
theorem Opcode.Matches.opWordOf_channel (h : o.Matches op) {lo : BitVec 16} (hlo : lo = op.extractLsb' 0 16) :
    opWordOf o (channelField op) lo = op := by
  rw [hlo, opWordOf_parts h.code]

/-- The OP word of a row without a channel, from its low half-word. -/
theorem Opcode.Matches.opWordOf_zero (h : o.Matches op) (hmask : o.mask.extractLsb' 16 8 = BitVec.allOnes 8)
    {lo : BitVec 16} (hlo : lo = op.extractLsb' 0 16) : opWordOf o 0#8 lo = op := by
  have hch : channelField op = 0#8 := h.field_zero hmask
  rw [← hch, h.opWordOf_channel hlo]

/-- R75: the low half-word of TBLRD and TBLWR, from the half in bit 8 and the entry word in bits [1:0]. -/
theorem Opcode.Matches.low_entry (h : o.Matches op) (hmask : o.mask = 0xff00fefc#32) :
    (0#7 ++ (Half.ofCode (op.extractLsb' 8 1)).code ++ 0#6 ++ (EntryWord.ofCode (op.extractLsb' 0 2)).code : BitVec 16)
      = op.extractLsb' 0 16 := by
  have high : op.extractLsb' 9 7 = 0#7 := h.field_zero (by rw [hmask]; rfl)
  have middle : op.extractLsb' 2 6 = 0#6 := h.field_zero (by rw [hmask]; rfl)
  rw [Half.code_ofCode, EntryWord.code_ofCode, ← high, ← middle,
    BitVec.extractLsb'_append_extractLsb'_eq_extractLsb' (show 9 = 8 + 1 from rfl),
    BitVec.extractLsb'_append_extractLsb'_eq_extractLsb' (show 8 = 2 + 6 from rfl),
    BitVec.extractLsb'_append_extractLsb'_eq_extractLsb' (show 2 = 0 + 2 from rfl)]

/-- R75: the low half-word of CFGSRC and CFGDST, from the increment in bits [3:2] and the item size in bits [1:0]. -/
theorem Opcode.Matches.low_endpoint (h : o.Matches op) (hmask : o.mask = 0xff00fff0#32) :
    (0#12 ++ (Increment.ofCode (op.extractLsb' 2 2)).code ++ (ItemSize.ofCode (op.extractLsb' 0 2)).code : BitVec 16) =
      op.extractLsb' 0 16 := by
  have high : op.extractLsb' 4 12 = 0#12 := h.field_zero (by rw [hmask]; rfl)
  rw [Increment.code_ofCode, ItemSize.code_ofCode, ← high,
    BitVec.extractLsb'_append_extractLsb'_eq_extractLsb' (show 4 = 2 + 2 from rfl),
    BitVec.extractLsb'_append_extractLsb'_eq_extractLsb' (show 2 = 0 + 2 from rfl)]

/-- R70: the low half-word of INIT, from a record count that is its field `n`. -/
theorem Opcode.Matches.low_count (h : Opcode.init.Matches op) {n : Nat} (hn : n = (op.extractLsb' 0 6).toNat) :
    BitVec.ofNat 16 (n % 64) = op.extractLsb' 0 16 := by
  rw [← h.low_field (k := 10) (n := 6) rfl, hn, Nat.mod_eq_of_lt (op.extractLsb' 0 6).isLt, BitVec.ofNat_toNat,
    BitVec.setWidth_eq_append (by decide)]
  rfl

end Matches

/-! ### The arguments and the packet -/

/-- A list of one word is its word at 0. -/
theorem singleton_getD {args : List Word} (h : args.length = 1) : [args.getD 0 0#32] = args := by
  obtain ⟨a, rfl⟩ := List.length_eq_one_iff.mp h
  rfl

/-- The packet of a register's read row is RD at its offset. -/
theorem packetOf_ofRead (r : Reg) : packetOf (.ofRead r) = readPacket r.offset := by cases r <;> rfl

/-- The packet of a register's write row is WR at its offset. -/
theorem packetOf_ofWrite (d : Word) (r : Reg) : packetOf (.ofWrite d r) = writePacket r.offset d := by cases r <;> rfl

/-- R69, R70: a packet that fills a row is the packet of the request its fields decode to. -/
theorem packetOf_decodeFields {o : Opcode} {op : Word} {args : List Word} {i : Instr} (h : o.Matches op)
    (hargs : args.length = o.argc op) (hd : decodeFields o op args = .ok i) : packetOf i = ⟨op, args⟩ := by
  have noArgs (hzero : args.length = 0) : [] = args := (List.eq_nil_of_length_eq_zero hzero).symm
  cases o with
  | rd =>
    have hpacket : readPacket (op.extractLsb' 0 12) = ⟨op, args⟩ :=
      congrArg₂ Packet.mk (h.opWordOf_zero rfl (h.low_field (k := 4) rfl)) (noArgs hargs)
    simp only [decodeFields] at hd
    split at hd
    next r hr => cases hd; rw [packetOf_ofRead, Reg.offset_ofOffset hr, hpacket]
    next => cases hd; exact hpacket
  | wr =>
    have hpacket : writePacket (op.extractLsb' 0 12) (args.getD 0 0#32) = ⟨op, args⟩ :=
      congrArg₂ Packet.mk (h.opWordOf_zero rfl (h.low_field (k := 4) rfl)) (singleton_getD hargs)
    simp only [decodeFields] at hd
    split at hd
    next r hr => cases hd; rw [packetOf_ofWrite, Reg.offset_ofOffset hr, hpacket]
    next => cases hd; exact hpacket
  | tblrd =>
    cases hd
    exact congrArg₂ Packet.mk (h.opWordOf_channel (h.low_entry rfl)) (noArgs hargs)
  | tblwr =>
    cases hd
    exact congrArg₂ Packet.mk (h.opWordOf_channel (h.low_entry rfl)) (singleton_getD hargs)
  | locate =>
    cases hd
    obtain ⟨b, n, a, t, rfl⟩ := List.length_eq_four.mp hargs
    exact congrArg (Packet.mk · _) (h.opWordOf_zero rfl (h.field_zero (k := 0) rfl).symm)
  | tblchk =>
    cases hd
    exact congrArg₂ Packet.mk (h.opWordOf_zero rfl (h.field_zero (k := 0) rfl).symm) (singleton_getD hargs)
  | setmap =>
    cases hd
    exact congrArg₂ Packet.mk (h.opWordOf_channel (h.low_field (k := 8) rfl)) (noArgs hargs)
  | setprio =>
    cases hd
    rw [packetOf, Tier.code_ofCode]
    exact congrArg₂ Packet.mk (h.opWordOf_channel (h.low_field (k := 15) rfl)) (noArgs hargs)
  | setmode =>
    cases hd
    rw [packetOf, TransferMode.code_ofCode]
    exact congrArg₂ Packet.mk (h.opWordOf_channel (h.low_field (k := 13) rfl)) (noArgs hargs)
  | setgran =>
    cases hd
    rw [packetOf, Granularity.code_ofCode]
    exact congrArg₂ Packet.mk (h.opWordOf_channel (h.low_field (k := 15) rfl)) (noArgs hargs)
  | setarb =>
    cases hd
    exact congrArg₂ Packet.mk (h.opWordOf_channel (h.low_field (k := 12) rfl)) (noArgs hargs)
  | unmask =>
    cases hd
    exact congrArg₂ Packet.mk (h.opWordOf_channel (h.field_zero (k := 0) rfl).symm) (noArgs hargs)
  | clkon =>
    cases hd
    exact congrArg₂ Packet.mk (h.opWordOf_zero rfl (h.field_zero (k := 0) rfl).symm) (noArgs hargs)
  | init =>
    simp only [decodeFields] at hd
    split at hd
    next => cases hd
    next rs hrs =>
      cases hd
      have hwords : rs.map encodeRecord = args := encode_decodeRecords hrs
      have hcount : rs.length = (op.extractLsb' 0 6).toNat := by rw [← List.length_map, hwords]; exact hargs
      exact congrArg₂ Packet.mk (h.opWordOf_zero rfl (h.low_count hcount)) hwords
  | cfgsrc =>
    cases hd
    exact congrArg₂ Packet.mk (h.opWordOf_channel (h.low_endpoint rfl)) (singleton_getD hargs)
  | cfgdst =>
    cases hd
    exact congrArg₂ Packet.mk (h.opWordOf_channel (h.low_endpoint rfl)) (singleton_getD hargs)
  | start =>
    cases hd
    exact congrArg₂ Packet.mk (h.opWordOf_channel rfl) (noArgs hargs)

/-- R69, R70, R74: no bit of an accepted packet is ignored. -/
theorem packetOf_of_decode {p : Packet} {i : Instr} (h : decode p = .ok i) : packetOf i = p := by
  obtain ⟨_, hrow, hargs, hfields⟩ := decode_eq_ok h
  exact packetOf_decodeFields hrow hargs hfields

end Sys2Proof

/-! SUPPORT. A faulted block (spec 60_exceptions.md R129): the step refuses whatever packet stands at the head of the
port. -/

namespace Sys2Proof.Machine

/-- R74, R129: a faulted block refuses a packet that decodes to nothing, too. -/
theorem illegalPacket_refused {p : Packet} {e : DecodeError} {s : State} (hs : s.flt.code ≠ 0#8) :
    illegalPacket p e s = .next (refusedPacket p s) :=
  request_refused hs

/-- R129: with a fault latched, a step refuses the packet, whether it is a request or not. -/
theorem step_refused {s : State} {p : Packet} {rest : List Word} (hs : s.flt.code ≠ 0#8)
    (hport : framePacket s.port = some (p, rest)) : step s = .next (refusedPacket p { s with port := rest }) := by
  simp only [step, hport]
  split
  next i hd => rw [exec_refused (s := { s with port := rest }) hs, packetOf_of_decode hd]
  next e _ => exact illegalPacket_refused hs

/-- Settles O8: the step and `exec` are both a request, and a request on a faulted block is a refusal. -/
theorem faultedBlockRefusesEveryPacket : Obligations.FaultedBlockRefusesEveryPacket := by
  unfold Obligations.FaultedBlockRefusesEveryPacket
  exact ⟨fun _ _ _ hs hport => step_refused hs hport, fun _ _ hs => exec_refused hs⟩

end Sys2Proof.Machine

/-! SUPPORT. A case principle over the requests with one case for the 22 RD rows of the register map and one for the 22
WR rows (spec 30_encoding.md R70); every well-formed request survives encoding and decoding (R69 to R71), and what a
step does with the packet at the head of the port. -/

namespace Sys2Proof

/-! ### Cases over the requests -/

/-- R70: a property of every row of the opcode map, from one case for each row that is no register's, one for the reads
of the registers and one for their writes. -/
theorem Instr.rowCases {P : Instr → Prop}
    (locate : ∀ b n a t, P (.locate b n a t)) (tblchk : ∀ b, P (.tblchk b)) (tblrd : ∀ ch h w, P (.tblrd ch h w))
    (tblwr : ∀ ch h w d, P (.tblwr ch h w d)) (clkon : P .clkon) (setmap : ∀ ch enc, P (.setmap ch enc))
    (setprio : ∀ ch t, P (.setprio ch t)) (setmode : ∀ ch m, P (.setmode ch m))
    (setgran : ∀ ch g, P (.setgran ch g)) (setarb : ∀ ch a, P (.setarb ch a)) (unmask : ∀ ch, P (.unmask ch))
    (init : ∀ rs, P (.init rs)) (cfgsrc : ∀ ch i z e, P (.cfgsrc ch i z e))
    (cfgdst : ∀ ch i z e, P (.cfgdst ch i z e)) (start : ∀ ch n, P (.start ch n)) (read : ∀ r, P (.ofRead r))
    (write : ∀ d r, P (.ofWrite d r)) (rd : ∀ off, P (.rd off)) (wr : ∀ off d, P (.wr off d)) (i : Instr) : P i := by
  cases i with
  | locate b n a t => exact locate b n a t
  | tblchk b => exact tblchk b
  | tblrd ch h w => exact tblrd ch h w
  | tblwr ch h w d => exact tblwr ch h w d
  | clkon => exact clkon
  | setmap ch enc => exact setmap ch enc
  | setprio ch t => exact setprio ch t
  | setmode ch m => exact setmode ch m
  | setgran ch g => exact setgran ch g
  | setarb ch a => exact setarb ch a
  | unmask ch => exact unmask ch
  | init rs => exact init rs
  | cfgsrc ch i z e => exact cfgsrc ch i z e
  | cfgdst ch i z e => exact cfgdst ch i z e
  | start ch n => exact start ch n
  | rd off => exact rd off
  | wr off d => exact wr off d
  | rdStat => exact read .stat
  | wrStat d => exact write d .stat
  | rdCfg => exact read .cfg
  | wrCfg d => exact write d .cfg
  | rdCtlbase => exact read .ctlbase
  | wrCtlbase d => exact write d .ctlbase
  | rdAltbase => exact read .altbase
  | wrAltbase d => exact write d .altbase
  | rdWaitstat => exact read .waitstat
  | wrWaitstat d => exact write d .waitstat
  | rdSwreq => exact read .swreq
  | wrSwreq d => exact write d .swreq
  | rdUseburstset => exact read .useburstset
  | wrUseburstset d => exact write d .useburstset
  | rdUseburstclr => exact read .useburstclr
  | wrUseburstclr d => exact write d .useburstclr
  | rdReqmaskset => exact read .reqmaskset
  | wrReqmaskset d => exact write d .reqmaskset
  | rdReqmaskclr => exact read .reqmaskclr
  | wrReqmaskclr d => exact write d .reqmaskclr
  | rdEnaset => exact read .enaset
  | wrEnaset d => exact write d .enaset
  | rdEnaclr => exact read .enaclr
  | wrEnaclr d => exact write d .enaclr
  | rdAltset => exact read .altset
  | wrAltset d => exact write d .altset
  | rdAltclr => exact read .altclr
  | wrAltclr d => exact write d .altclr
  | rdPrioset => exact read .prioset
  | wrPrioset d => exact write d .prioset
  | rdPrioclr => exact read .prioclr
  | wrPrioclr d => exact write d .prioclr
  | rdErrclr => exact read .errclr
  | wrErrclr d => exact write d .errclr
  | rdChasgn => exact read .chasgn
  | wrChasgn d => exact write d .chasgn
  | rdChmap0 => exact read .chmap0
  | wrChmap0 d => exact write d .chmap0
  | rdChmap1 => exact read .chmap1
  | wrChmap1 d => exact write d .chmap1
  | rdChmap2 => exact read .chmap2
  | wrChmap2 d => exact write d .chmap2
  | rdChmap3 => exact read .chmap3
  | wrChmap3 d => exact write d .chmap3

/-- R70: a read of a register is well formed. -/
@[simp] theorem Instr.wellFormed_ofRead (r : Reg) : (Instr.ofRead r).wellFormed = true := by cases r <;> rfl

/-- R70: a write of a register is well formed. -/
@[simp] theorem Instr.wellFormed_ofWrite (d : Word) (r : Reg) : (Instr.ofWrite d r).wellFormed = true := by
  cases r <;> rfl

/-! ### From the packet to the request -/

/-- R70: what the fields of a packet decode to is well formed, the generic rows standing for unmapped offsets and the
count of INIT having 6 bits. -/
theorem wellFormed_decodeFields {o : Opcode} {op : Word} {args : List Word} {i : Instr}
    (hargs : args.length = o.argc op) (hd : decodeFields o op args = .ok i) : i.wellFormed = true := by
  cases o with
  | rd =>
    simp only [decodeFields] at hd
    split at hd
    next => cases hd; exact Instr.wellFormed_ofRead _
    next hr => cases hd; simp [Instr.wellFormed, offsetUnmapped, hr]
  | wr =>
    simp only [decodeFields] at hd
    split at hd
    next => cases hd; exact Instr.wellFormed_ofWrite _ _
    next hr => cases hd; simp [Instr.wellFormed, offsetUnmapped, hr]
  | init =>
    simp only [decodeFields] at hd
    split at hd
    next => cases hd
    next rs hrs =>
      cases hd
      have hcount : rs.length = (op.extractLsb' 0 6).toNat := by
        rw [← List.length_map, encode_decodeRecords hrs]; exact hargs
      simpa [Instr.wellFormed, recordCountFits, hcount] using (op.extractLsb' 0 6).isLt
  | _ => cases hd; rfl

/-- Settles O3: what the decoder accepts fills a row, and its fields give back a well-formed request. -/
theorem acceptedPacketIsItsEncoding : Obligations.AcceptedPacketIsItsEncoding := by
  unfold Obligations.AcceptedPacketIsItsEncoding
  intro p i h
  obtain ⟨_, _, hargs, hfields⟩ := decode_eq_ok h
  exact ⟨wellFormed_decodeFields hargs hfields, packetOf_of_decode h⟩

/-! ### From the request to its packet and back -/

/-- R70, R71: the packet of every well-formed request fills its row. -/
theorem fillsItsRow (i : Instr) : Laws.FillsItsRow.Statement i := by
  induction i using Instr.rowCases with
  | locate b n a t => exact Laws.FillsItsRow.locate b n a t
  | tblchk b => exact Laws.FillsItsRow.tblchk b
  | tblrd ch h w => exact Laws.FillsItsRow.tblrd ch h w
  | tblwr ch h w d => exact Laws.FillsItsRow.tblwr ch h w d
  | clkon => exact Laws.FillsItsRow.clkon
  | setmap ch enc => exact Laws.FillsItsRow.setmap ch enc
  | setprio ch t => exact Laws.FillsItsRow.setprio ch t
  | setmode ch m => exact Laws.FillsItsRow.setmode ch m
  | setgran ch g => exact Laws.FillsItsRow.setgran ch g
  | setarb ch a => exact Laws.FillsItsRow.setarb ch a
  | unmask ch => exact Laws.FillsItsRow.unmask ch
  | init rs => exact Laws.FillsItsRow.init rs
  | cfgsrc ch i z e => exact Laws.FillsItsRow.cfgsrc ch i z e
  | cfgdst ch i z e => exact Laws.FillsItsRow.cfgdst ch i z e
  | start ch n => exact Laws.FillsItsRow.start ch n
  | read r => exact Laws.fills_read (packetOf_ofRead r)
  | write d r => exact Laws.fills_write (packetOf_ofWrite d r)
  | rd off => exact Laws.FillsItsRow.rd off
  | wr off d => exact Laws.FillsItsRow.wr off d

/-- R69, R70: the operand in the low bits of an OP word reads back. -/
theorem extract_opWordOf_low (o : Opcode) (ch : BitVec 8) {n : Nat} {lo : BitVec 16} {x : BitVec n} (hn : n ≤ 16)
    (hlo : lo.extractLsb' 0 n = x) : (opWordOf o ch lo).extractLsb' 0 n = x := by
  rw [extract_opWordOf o ch lo (by omega), hlo]

/-- R75: the half and the entry word of TBLRD and TBLWR read back. -/
theorem extract_halfWord (o : Opcode) (ch : BitVec 8) (h : Half) (w : EntryWord) :
    (opWordOf o ch (0#7 ++ h.code ++ 0#6 ++ w.code)).extractLsb' 8 1 = h.code ∧
      (opWordOf o ch (0#7 ++ h.code ++ 0#6 ++ w.code)).extractLsb' 0 2 = w.code := by
  rw [extract_opWordOf _ _ _ (by omega), extract_opWordOf _ _ _ (by omega)]
  cases h <;> cases w <;> decide

/-- R70: the increment and the item size of CFGSRC and CFGDST read back. -/
theorem extract_opWordOf_incSize (o : Opcode) (ch : BitVec 8) (i : Increment) (z : ItemSize) :
    (opWordOf o ch (0#12 ++ i.code ++ z.code)).extractLsb' 2 2 = i.code ∧
      (opWordOf o ch (0#12 ++ i.code ++ z.code)).extractLsb' 0 2 = z.code := by
  rw [extract_opWordOf _ _ _ (by omega), extract_opWordOf _ _ _ (by omega)]
  cases i <;> cases z <;> decide

/-- R70, R71: the checks of the decoder pass on the packet of a well-formed request. -/
theorem decode_packetOf {i : Instr} {o : Opcode} {ch : BitVec 8} {lo : BitVec 16} (hw : i.wellFormed = true)
    (hop : (packetOf i).op = opWordOf o ch lo) :
    decode (packetOf i) = decodeFields o (opWordOf o ch lo) (packetOf i).args := by
  obtain ⟨o', hcode, hmask, hargs⟩ := fillsItsRow i hw
  have ho : o' = o := by simpa [hop] using hcode.symm
  subst ho
  simp only [decode, hcode, ne_eq, hmask, hargs, not_true_eq_false, if_false]
  rw [hop]

/-- R70: the packet of a well-formed request decodes to the request. -/
theorem decode_packetOf_eq {i : Instr} (hw : i.wellFormed = true) : decode (packetOf i) = .ok i := by
  induction i using Instr.rowCases with
  | locate b n a t => exact decode_packetOf hw rfl
  | tblchk b => exact decode_packetOf hw rfl
  | tblrd ch h w =>
    obtain ⟨hh, hword⟩ := extract_halfWord .tblrd ch h w
    rw [decode_packetOf hw rfl]
    simp [decodeFields, hh, hword]
  | tblwr ch h w d =>
    obtain ⟨hh, hword⟩ := extract_halfWord .tblwr ch h w
    rw [decode_packetOf hw rfl]
    simp [decodeFields, hh, hword, packetOf]
  | clkon => exact decode_packetOf hw rfl
  | setmap ch enc =>
    rw [decode_packetOf hw rfl, decodeFields, channelField_opWordOf,
      extract_opWordOf_low _ _ (by omega) (BitVec.extractLsb'_append_eq_right (a := 0#8) (b := enc))]
  | setprio ch t =>
    rw [decode_packetOf hw rfl, decodeFields, channelField_opWordOf,
      extract_opWordOf_low _ _ (by omega) (BitVec.extractLsb'_append_eq_right (a := 0#15) (b := t.code)),
      Tier.ofCode_code]
  | setmode ch m =>
    rw [decode_packetOf hw rfl, decodeFields, channelField_opWordOf,
      extract_opWordOf_low _ _ (by omega) (BitVec.extractLsb'_append_eq_right (a := 0#13) (b := m.code)),
      TransferMode.ofCode_code]
  | setgran ch g =>
    rw [decode_packetOf hw rfl, decodeFields, channelField_opWordOf,
      extract_opWordOf_low _ _ (by omega) (BitVec.extractLsb'_append_eq_right (a := 0#15) (b := g.code)),
      Granularity.ofCode_code]
  | setarb ch a =>
    rw [decode_packetOf hw rfl, decodeFields, channelField_opWordOf,
      extract_opWordOf_low _ _ (by omega) (BitVec.extractLsb'_append_eq_right (a := 0#12) (b := a))]
  | unmask ch => rw [decode_packetOf hw rfl, decodeFields, channelField_opWordOf]
  | init rs =>
    rw [decode_packetOf hw rfl]
    simp only [decodeFields, packetOf, decodeRecords_encode]
  | cfgsrc ch i z e =>
    obtain ⟨hinc, hsize⟩ := extract_opWordOf_incSize .cfgsrc ch i z
    rw [decode_packetOf hw rfl]
    simp [decodeFields, hinc, hsize, packetOf]
  | cfgdst ch i z e =>
    obtain ⟨hinc, hsize⟩ := extract_opWordOf_incSize .cfgdst ch i z
    rw [decode_packetOf hw rfl]
    simp [decodeFields, hinc, hsize, packetOf]
  | start ch n =>
    rw [decode_packetOf hw rfl, decodeFields, channelField_opWordOf,
      extract_opWordOf_low _ _ (by omega) BitVec.extractLsb'_eq_self]
  | read r =>
    have hop : (packetOf (.ofRead r)).op = opWordOf .rd 0#8 (0#4 ++ r.offset) := by rw [packetOf_ofRead]; rfl
    rw [decode_packetOf hw hop]
    simp only [decodeFields,
      extract_opWordOf_low _ _ (by omega) (BitVec.extractLsb'_append_eq_right (a := 0#4) (b := r.offset)),
      Reg.ofOffset_offset]
  | write d r =>
    have hop : (packetOf (.ofWrite d r)).op = opWordOf .wr 0#8 (0#4 ++ r.offset) := by rw [packetOf_ofWrite]; rfl
    rw [decode_packetOf hw hop]
    simp only [decodeFields, packetOf_ofWrite,
      extract_opWordOf_low _ _ (by omega) (BitVec.extractLsb'_append_eq_right (a := 0#4) (b := r.offset)),
      Reg.ofOffset_offset]
    rfl
  | rd off =>
    have hnone : Reg.ofOffset? off = none := Option.isNone_iff_eq_none.mp hw
    rw [decode_packetOf hw rfl]
    simp only [decodeFields,
      extract_opWordOf_low _ _ (by omega) (BitVec.extractLsb'_append_eq_right (a := 0#4) (b := off)), hnone]
  | wr off d =>
    have hnone : Reg.ofOffset? off = none := Option.isNone_iff_eq_none.mp hw
    rw [decode_packetOf hw rfl]
    simp only [decodeFields,
      extract_opWordOf_low _ _ (by omega) (BitVec.extractLsb'_append_eq_right (a := 0#4) (b := off)), hnone]
    rfl

/-- R69, R71: the words of a well-formed request are framed as its packet, whatever follows them. -/
theorem framePacket_encode {i : Instr} (rest : List Word) (hw : i.wellFormed = true) :
    framePacket (encode i ++ rest) = some (packetOf i, rest) := by
  obtain ⟨o, hcode, _, hargs⟩ := fillsItsRow i hw
  have hcount : argCount (packetOf i).op = (packetOf i).args.length := by rw [argCount, hcode, hargs]
  simp [encode, framePacket, hcount]

/-- Settles O2: a well-formed request fills its row, so its words are framed as its packet, and each operand of the
packet reads back. -/
theorem encodedRequestDecodesToItself : Obligations.EncodedRequestDecodesToItself := by
  unfold Obligations.EncodedRequestDecodesToItself
  exact fun _ rest hw => ⟨framePacket_encode rest hw, decode_packetOf_eq hw⟩

/-! ### Fixed packets -/

/-- Settles O1: the decoder evaluated on each packet. -/
theorem specWordsDecode : Obligations.SpecWordsDecode := by
  unfold Obligations.SpecWordsDecode
  refine ⟨rfl, rfl, rfl, rfl, rfl, rfl, rfl, rfl, rfl, rfl, rfl, rfl, rfl, rfl⟩

/-! ### The opcode byte and the argument count -/

/-- R71: the argument count of an OP word with a listed opcode. -/
theorem argCount_of_code {op : Word} (o : Opcode) (h : opcodeField op = o.code) : argCount op = o.argc op := by
  rw [argCount, h, Opcode.ofCode_code]

/-- R70, R74: a byte that is no opcode's code is reserved. -/
theorem ofCode_eq_none {b : BitVec 8} (h : ∀ o : Opcode, b ≠ o.code) : Opcode.ofCode? b = none := by
  cases ho : Opcode.ofCode? b with
  | none => rfl
  | some o => exact absurd (Opcode.code_ofCode ho).symm (h o)

/-- R71: a reserved opcode takes no argument words. -/
theorem argCount_reserved {op : Word} (h : ∀ o : Opcode, opcodeField op ≠ o.code) : argCount op = 0 := by
  rw [argCount, ofCode_eq_none h]

/-- R70: the codes of the opcode map, in its order. -/
theorem code_mem_codes (o : Opcode) :
    o.code ∈ [0x01#8, 0x02#8, 0x08#8, 0x09#8, 0x10#8, 0x11#8, 0x20#8, 0x21#8, 0x22#8, 0x23#8, 0x24#8, 0x25#8, 0x26#8,
      0x30#8, 0x31#8, 0x32#8, 0x33#8] := by
  cases o <;> decide

/-- Settles O4: each opcode byte is the code of its opcode, whose `argc` is the count, and every other byte is
reserved. -/
theorem argumentCountOfEachOpcode : Obligations.ArgumentCountOfEachOpcode := by
  unfold Obligations.ArgumentCountOfEachOpcode
  intro op
  refine ⟨?none, ?one, fun h => argCount_of_code .locate h, fun h => argCount_of_code .init h, ?reserved⟩
  case none =>
    intro h
    simp only [List.mem_cons, List.not_mem_nil, or_false] at h
    rcases h with h | h | h | h | h | h | h | h | h | h
    · exact argCount_of_code .rd h
    · exact argCount_of_code .tblrd h
    · exact argCount_of_code .setmap h
    · exact argCount_of_code .setprio h
    · exact argCount_of_code .setmode h
    · exact argCount_of_code .setgran h
    · exact argCount_of_code .setarb h
    · exact argCount_of_code .unmask h
    · exact argCount_of_code .clkon h
    · exact argCount_of_code .start h
  case one =>
    intro h
    simp only [List.mem_cons, List.not_mem_nil, or_false] at h
    rcases h with h | h | h | h | h
    · exact argCount_of_code .wr h
    · exact argCount_of_code .tblwr h
    · exact argCount_of_code .tblchk h
    · exact argCount_of_code .cfgsrc h
    · exact argCount_of_code .cfgdst h
  case reserved =>
    intro h
    exact argCount_reserved fun o ho => h ((congrArg (· ∈ _) ho).mpr (code_mem_codes o))

end Sys2Proof

/-! SUPPORT. What a step does with the port (spec 00_scope.md R9, 30_encoding.md R71, R74): it waits, runs the decoded
request, or rejects the packet; and a faulted block, step after step (60_exceptions.md R129, R130). -/

namespace Sys2Proof.Machine

/-! ### The head of the port -/

/-- R69: an OP word with its argument words behind it is framed. -/
theorem framePacket_cons {op : Word} {rest : List Word} (h : argCount op ≤ rest.length) :
    framePacket (op :: rest) = some (⟨op, rest.take (argCount op)⟩, rest.drop (argCount op)) := by
  rw [framePacket, if_neg (by omega)]

/-- R69: an OP word without all its argument words is not framed. -/
theorem framePacket_short {op : Word} {rest : List Word} (h : rest.length < argCount op) :
    framePacket (op :: rest) = none := by
  rw [framePacket, if_pos h]

/-- R71: a framed packet has the argument words its OP word asks for. -/
theorem length_args_of_framePacket {ws rest : List Word} {p : Packet} (h : framePacket ws = some (p, rest)) :
    p.args.length = argCount p.op := by
  cases ws with
  | nil => cases h
  | cons op tail =>
    rw [framePacket] at h
    split at h
    next => cases h
    next hlen =>
      cases h
      exact List.length_take_of_le (by omega)

/-- R9: a packet that decodes is executed. -/
theorem step_of_decode {s : State} {p : Packet} {rest : List Word} {i : Instr}
    (hport : framePacket s.port = some (p, rest)) (hd : decode p = .ok i) :
    step s = exec i { s with port := rest } := by
  simp only [step, hport, hd]

/-- Log 1: without a whole packet the step waits. -/
theorem step_of_none {s : State} (hport : framePacket s.port = none) : step s = .next s := by
  simp only [step, hport]

/-- R74, R128: an unfaulted block rejects a packet with IllegalCommand and no other effect. -/
theorem illegalPacket_raised {p : Packet} {e : DecodeError} {s : State} (hs : Accepting s) :
    illegalPacket p e s = .next (trappedPacket p 1#8 e.info [] s) := by
  refine (request_raised (body := fun _ s => .raised .illegalCommand e.info s) hs rfl).trans ?_
  simp [trappedPacket, raiseFault, emit, historyAfter, FaultName.code]

/-- R74, R128: a step of an unfaulted block on a packet that decodes to nothing. -/
theorem step_rejected {s : State} {p : Packet} {rest : List Word} {e : DecodeError} (hs : Accepting s)
    (hport : framePacket s.port = some (p, rest)) (hd : decode p = .error e) :
    step s = .next (trappedPacket p 1#8 e.info [] { s with port := rest }) := by
  simp only [step, hport, hd]
  exact illegalPacket_raised hs

/-- Settles O6: the packet at the head of the port is executed, and a well-formed request's words are its packet. -/
theorem stepRunsTheDecodedRequest : Obligations.StepRunsTheDecodedRequest := by
  unfold Obligations.StepRunsTheDecodedRequest
  exact ⟨fun _ _ _ _ => step_of_decode, fun _ rest _ hw hport =>
    step_of_decode (hport ▸ framePacket_encode rest hw) (decode_packetOf_eq hw)⟩

/-- Settles O7: neither an empty port nor one short of argument words is framed. -/
theorem blockWaitsForAWholePacket : Obligations.BlockWaitsForAWholePacket := by
  unfold Obligations.BlockWaitsForAWholePacket
  exact fun s => ⟨fun h => step_of_none (by rw [h]; rfl), fun _ _ h hlen =>
    step_of_none (by rw [h]; exact framePacket_short hlen)⟩

/-! ### Rejected packets -/

/-- R70, R74: an opcode byte that is in no row. -/
theorem decode_reserved {p : Packet} (h : Opcode.ofCode? (opcodeField p.op) = none) :
    decode p = .error (.reservedOpcode p.op) := by
  simp only [decode, h]

/-- R70, R74: a bit of the OP word that its row requires to be 0. -/
theorem decode_mustBeZero {p : Packet} {o : Opcode} (h : opcodeField p.op = o.code)
    (hmask : p.op &&& o.mask ≠ o.matchWord) : decode p = .error (.mustBeZero p.op) := by
  rw [decode, h, Opcode.ofCode_code]
  exact if_pos hmask

/-- R68, R126: the first record word with a bit of [31:25] set decides. -/
theorem decodeRecords_recordBits {before after : List Word} {w : Word} (hb : ∀ v ∈ before, v.extractLsb' 25 7 = 0#7)
    (hw : w.extractLsb' 25 7 ≠ 0#7) : decodeRecords (before ++ w :: after) = .error (.recordBits w) := by
  induction before with
  | nil => simp [decodeRecords, decodeRecord, hw]
  | cons v vs ih =>
    simp only [List.mem_cons, forall_eq_or_imp] at hb
    obtain ⟨hv, hvs⟩ := hb
    simp [decodeRecords, decodeRecord, hv, ih hvs]

/-- R70: an OP word under INIT's mask is INIT's. -/
theorem init_matches {op : Word} (h : op &&& 0xffffffc0#32 = 0x30000000#32) : Opcode.init.Matches op := by
  have hcode : opcodeField op = Opcode.init.code := by
    have := congrArg (fun w : Word => w.extractLsb' 24 8) h
    rwa [BitVec.extractLsb'_and, show (0xffffffc0#32).extractLsb' 24 8 = BitVec.allOnes 8 from rfl,
      BitVec.and_allOnes] at this
  exact ⟨by rw [hcode, Opcode.ofCode_code], h⟩

/-- R68, R74: an INIT packet with a record word whose bits [31:25] are not 0. -/
theorem decode_recordBits {p : Packet} {before after : List Word} {w : Word}
    (hop : p.op &&& 0xffffffc0#32 = 0x30000000#32) (hlen : p.args.length = argCount p.op)
    (hargs : p.args = before ++ w :: after) (hb : ∀ v ∈ before, v.extractLsb' 25 7 = 0#7)
    (hw : w.extractLsb' 25 7 ≠ 0#7) : decode p = .error (.recordBits w) := by
  obtain ⟨hcode, hmask⟩ := init_matches hop
  have hcount : p.args.length = Opcode.init.argc p.op := by rw [hlen, argCount, hcode]
  simp only [decode, hcode, ne_eq, hmask, hcount, not_true_eq_false, if_false]
  simp only [decodeFields, hargs, decodeRecords_recordBits hb hw]

/-- Settles O5: each of the three packets decodes to its error, whose info the rejection carries. -/
theorem rejectedPacketRaisesIllegalCommand : Obligations.RejectedPacketRaisesIllegalCommand := by
  unfold Obligations.RejectedPacketRaisesIllegalCommand
  intro s hs
  refine ⟨?reserved, ?mustBeZero, ?record⟩
  case reserved =>
    intro op rest hport hop
    have hno : ∀ o : Opcode, opcodeField op ≠ o.code := fun o ho =>
      hop ((congrArg (· ∈ _) ho).mpr (code_mem_codes o))
    have hframe : framePacket s.port = some (⟨op, []⟩, rest) := by
      rw [hport, framePacket_cons (by rw [argCount_reserved hno]; omega), argCount_reserved hno]
      rfl
    exact step_rejected hs hframe (decode_reserved (ofCode_eq_none hno))
  case mustBeZero => exact fun _ _ _ hport hcode hmask => step_rejected hs hport (decode_mustBeZero hcode hmask)
  case record =>
    exact fun _ _ _ _ _ hport hop hargs hb hw =>
      step_rejected hs hport (decode_recordBits hop (length_args_of_framePacket hport) hargs hb hw)

/-! ### The faulted block -/

/-- From `s` to `t` only the history and the host's words may differ. -/
structure Unchanged (s t : State) : Prop where
  flt : t.flt = s.flt
  csr : t.csr = s.csr
  cfg : t.cfg = s.cfg
  sys : t.sys = s.sys
  seq : t.seq = s.seq
  mem : t.mem = s.mem
  par : t.par = s.par
  draws : t.draws = s.draws

theorem Unchanged.refl (s : State) : Unchanged s s := ⟨rfl, rfl, rfl, rfl, rfl, rfl, rfl, rfl⟩

theorem Unchanged.trans {s t u : State} (h : Unchanged s t) (h' : Unchanged t u) : Unchanged s u :=
  ⟨h'.flt.trans h.flt, h'.csr.trans h.csr, h'.cfg.trans h.cfg, h'.sys.trans h.sys, h'.seq.trans h.seq,
    h'.mem.trans h.mem, h'.par.trans h.par, h'.draws.trans h.draws⟩

/-- R129: a step of a faulted block waits or refuses. -/
theorem step_faulted {s : State} (hs : s.flt.code ≠ 0#8) : ∃ t, step s = .next t ∧ Unchanged s t := by
  cases hport : framePacket s.port with
  | none => exact ⟨s, step_of_none hport, Unchanged.refl s⟩
  | some pr => exact ⟨_, step_refused hs hport, rfl, rfl, rfl, rfl, rfl, rfl, rfl, rfl⟩

/-- R130: no number of steps leaves the faulted condition. -/
theorem run_faulted (k : Nat) {s : State} (hs : s.flt.code ≠ 0#8) :
    ∃ t, Sys2Proof.core.run k s = .next t ∧ Unchanged s t := by
  induction k generalizing s with
  | zero => exact ⟨s, rfl, Unchanged.refl s⟩
  | succ k ih =>
    obtain ⟨u, hstep, hu⟩ := step_faulted hs
    obtain ⟨t, hrun, ht⟩ := ih (s := u) (hu.flt ▸ hs)
    refine ⟨t, ?_, hu.trans ht⟩
    have hcore : Sys2Proof.core.step s = .next u := hstep
    simp only [Host.Core.run, hcore]
    exact hrun

/-- Settles O9: induction on the number of steps, each of which only waits or refuses. -/
theorem faultedBlockStaysFaulted : Obligations.FaultedBlockStaysFaulted := by
  unfold Obligations.FaultedBlockStaysFaulted
  intro k s hs
  obtain ⟨t, hrun, h⟩ := run_faulted k hs
  exact ⟨⟨t, hrun, h.flt, h.csr, h.cfg, h.sys, h.seq, h.mem, h.par, h.draws⟩, rfl⟩

/-! ### Reset -/

/-- Settles O51: each conjunct of the invariant at the reset values. -/
theorem resetHasTheInvariant : Obligations.ResetHasTheInvariant := by
  unfold Obligations.ResetHasTheInvariant
  decide

/-- Settles O57: `resetInput` and `State.reset` have the same registers, store, bits, latch, count and history. -/
theorem resetRestoresTheTableOfR138 : Obligations.ResetRestoresTheTableOfR138 := by
  unfold Obligations.ResetRestoresTheTableOfR138
  rintro s t (rfl | rfl) <;>
    exact ⟨rfl, rfl, rfl, rfl, rfl, rfl, rfl, rfl, rfl, rfl, rfl, rfl, rfl, rfl, rfl, rfl, rfl, rfl, rfl, rfl, rfl, rfl,
      rfl, rfl, fun _ => rfl⟩

/-! ### Requests that are answered -/

/-- R121: a fault's code is 1 to 16. -/
theorem code_bounds (f : FaultName) : 1 ≤ f.code.toNat ∧ f.code.toNat ≤ 16 := by
  cases f <;> decide

/-- R39, R128: what a body's events and the final response make of the history. -/
theorem Forward.historyAfter_eq {i : Instr} {s u : State} (h : Forward (started i s) u) (status : Byte) (v : Word) :
    ∃ evs, (∀ e ∈ evs, e.inner = true) ∧
      u.hist ++ [.resp u.seq status v] = historyAfter (packetOf i) evs status v s := by
  obtain ⟨evs, hhist, hinner⟩ := h.hist
  exact ⟨evs, hinner, by simp [hhist, h.seq, historyAfter]⟩

/-- Settles O10: the body leaves latch and count alone and emits inner events only (`bodyOf_forward`); the frame adds
the one Req and the one Resp. -/
theorem everyRequestIsAnsweredOnce : Obligations.EveryRequestIsAnsweredOnce := by
  unfold Obligations.EveryRequestIsAnsweredOnce
  intro i s t hs h
  have hbody := bodyOf_forward i (packetOf i).op (started i s)
  rcases exec_cases h with ⟨hf, _⟩ | ⟨_, v, u, hb, rfl⟩ | ⟨_, f, info, u, hb, rfl⟩
  · exact absurd hs hf
  · rw [hb] at hbody
    obtain ⟨evs, hinner, hhist⟩ := hbody.historyAfter_eq 0x00#8 v
    exact ⟨evs, hinner, .inl ⟨v, hhist, hbody.flt, congrArg (· + 1) hbody.seq⟩⟩
  · rw [hb] at hbody
    obtain ⟨evs, hinner, hhist⟩ := hbody.historyAfter_eq f.code info
    have ⟨hlow, hhigh⟩ := code_bounds f
    exact ⟨evs, hinner, .inr ⟨f.code, info, hlow, hhigh, hhist, rfl, hbody.seq⟩⟩

/-! ### STAT and WAITSTAT -/

/-- R20, R24: on a clocked block the read of a register that draws completes with the next draw. -/
theorem exec_ofRead_of_draw {r : Reg} {s : State} (hs : Clocked s)
    (hr : ∀ op t, readReg r op t = clocked op t drawBody) :
    exec (.ofRead r) s =
      .next { completed (.ofRead r) (Config.draw s.draws) [] s with draws := s.draws + 1 } := by
  obtain ⟨hacc, hclk⟩ := hs
  rw [exec_done (v := Config.draw s.draws) (t := { started (.ofRead r) s with draws := s.draws + 1 }) hacc]
  · simp [respond, completed, emit, historyAfter, statusOk]
  · rw [bodyOf_ofRead, hr]
    exact clocked_pass (s := started (.ofRead r) s) hclk

/-- Settles O47: both registers draw, and both writes raise whatever the clock is. -/
theorem statusReadsAreDraws : Obligations.StatusReadsAreDraws := by
  unfold Obligations.StatusReadsAreDraws
  intro d s hs
  refine ⟨fun hclk => ⟨?stat, ?waitstat⟩, ?wrStat, ?wrWaitstat⟩
  case stat => exact exec_ofRead_of_draw (r := .stat) ⟨hs, hclk⟩ fun _ _ => rfl
  case waitstat => exact exec_ofRead_of_draw (r := .waitstat) ⟨hs, hclk⟩ fun _ _ => rfl
  case wrStat => exact exec_ofWrite_trapped (r := .stat) hs fun _ _ => rfl
  case wrWaitstat => exact exec_ofWrite_trapped (r := .waitstat) hs fun _ _ => rfl

end Sys2Proof.Machine

/-! SUPPORT. What a request's body can do to the state, said once: it is a sequence of a few kinds of effect, each with
the conditions under which a body has it (`bodyOf_runs`), and it stops the model only where the table base is no
multiple of 1024 (log 5). -/

namespace Sys2Proof.Machine

/-! ### The effects -/

/-- R12: the bits of a control word, next-use-burst and protection, that no request but TBLWR writes. -/
def reservedBits : Word := 0x00fc0008#32

/-- R12: the request `i` may store `v` in the entry word `w` where `old` stands. -/
def MayStore (i : Instr) (w : EntryWord) (old v : Word) : Prop :=
  (∃ c h x d, i = .tblwr c h x d) ∨
    match w with
    | .src => ∃ c j z e, i = .cfgsrc c j z e
    | .dst => ∃ c j z e, i = .cfgdst c j z e
    | .ctl => v &&& reservedBits = old &&& reservedBits
    | .rsv => False

/-- R21, R26 to R34: each register other than the table base that differs in `c'` from `c` is one that the request `i`
writes. -/
structure OwnedCsr (i : Instr) (c c' : Csr) : Prop where
  masten : c'.masten ≠ c.masten → (∃ d, i = .wrCfg d) ∨ ∃ rs, i = .init rs := by simp
  useburst : c'.useburst ≠ c.useburst →
    (∃ ch g, i = .setgran ch g) ∨ (∃ d, i = .wrUseburstset d ∨ i = .wrUseburstclr d) ∨ ∃ rs, i = .init rs := by simp
  reqmask : c'.reqmask ≠ c.reqmask →
    (∃ ch, i = .unmask ch) ∨ (∃ d, i = .wrReqmaskset d ∨ i = .wrReqmaskclr d) ∨ ∃ rs, i = .init rs := by simp
  ena : c'.ena ≠ c.ena → (∃ ch n, i = .start ch n) ∨ ∃ d, i = .wrEnaset d ∨ i = .wrEnaclr d := by simp
  altsel : c'.altsel ≠ c.altsel →
    (∃ ch m, i = .setmode ch m) ∨ (∃ ch n, i = .start ch n) ∨ (∃ d, i = .wrAltset d ∨ i = .wrAltclr d) ∨
      ∃ rs, i = .init rs := by simp
  prio : c'.prio ≠ c.prio →
    (∃ ch p, i = .setprio ch p) ∨ (∃ d, i = .wrPrioset d ∨ i = .wrPrioclr d) ∨ ∃ rs, i = .init rs := by simp
  err : c'.err ≠ c.err → ∃ d, i = .wrErrclr d := by simp
  chasgn : c'.chasgn ≠ c.chasgn → ∃ d, i = .wrChasgn d := by simp
  chmap : (c'.chmap0, c'.chmap1, c'.chmap2, c'.chmap3) ≠ (c.chmap0, c.chmap1, c.chmap2, c.chmap3) →
    (∃ ch enc, i = .setmap ch enc) ∨
      (∃ d, i = .wrChmap0 d ∨ i = .wrChmap1 d ∨ i = .wrChmap2 d ∨ i = .wrChmap3 d) ∨ ∃ rs, i = .init rs := by simp

/-- R94, R121: what lets a request store in the table: a programmed base, or for START a stored list. -/
abbrev Based (s : State) : Prop := s.csr.ctlbaseWritten = true ∨ s.cfg.valid = true

/-- One effect of the request `i` on the state `s`. A generic row at a mapped offset, which is no packet (log 14), may
write as its register's row does. -/
inductive Effect (i : Instr) (s : State) : State → Prop
  /-- R39. -/
  | history (h : List Event) : Effect i s { s with hist := h }
  /-- Log 3. -/
  | draw (n : Nat) : Effect i s { s with draws := n }
  /-- R84, R91. -/
  | clock (hi : i = .clkon ∨ ∃ rs, i = .init rs) : Effect i s { s with sys := { clkEn := true, pwrOk := true } }
  /-- R35, R91. -/
  | list (rs : List ConfigRecord) (hi : i = .init rs) (hlen : rs.length ≤ 32) (hch : ∀ r ∈ rs, r.ch.toNat < 16)
      (hw : s.csr.ctlbaseWritten = true) : Effect i s { s with cfg := { list := rs, valid := true } }
  /-- R22, R91, R100. -/
  | base (b : Word) (hi : i.wellFormed = true → (∃ d, i = .wrCtlbase d) ∨ ∃ rs, i = .init rs)
      (hclk : s.sys.clkEn = true) (hb : b.toNat % 1024 = 0) (hw : s.csr.ctlbaseWritten = false ∨ b = s.csr.ctlbase) :
      Effect i s { s with csr := { s.csr with ctlbase := b, ctlbaseWritten := true } }
  /-- R83, R97. -/
  | registers (c : Csr) (hclk : s.sys.clkEn = true) (hb : c.ctlbase = s.csr.ctlbase)
      (hw : c.ctlbaseWritten = s.csr.ctlbaseWritten) (hc : i.wellFormed = true → OwnedCsr i s.csr c) :
      Effect i s { s with csr := c }
  /-- R82, R83, R92 to R94. -/
  | store (ch : BitVec 8) (h : Half) (w : EntryWord) (v : Word) (hc : ch.toNat < 32)
      (hw : Based s) (h4 : entaddr s ch h w % 4 = 0) (hl : entaddr s ch h w < 2 ^ 32)
      (hv : MayStore i w (readWord s.mem (entaddr s ch h w)) v) :
      Effect i s { s with mem := writeWord s.mem (entaddr s ch h w) v }

/-- Any number of effects of the request `i`, one after another. -/
abbrev Effects (i : Instr) : State → State → Prop := Relation.ReflTransGen (Effect i)

/-- The table base is a multiple of 1024 (R22). -/
abbrev Aligned (s : State) : Prop := s.csr.ctlbase.toNat % 1024 = 0

section Kept
variable {i : Instr} {s t : State}

/-- R22: an effect leaves a programmed base. -/
theorem Effect.base_kept (h : Effect i s t) (hw : s.csr.ctlbaseWritten = true) :
    t.csr.ctlbaseWritten = true ∧ t.csr.ctlbase = s.csr.ctlbase := by
  cases h with
  | base b _ _ _ hor => exact ⟨rfl, hor.resolve_left (by simp [hw])⟩
  | registers c _ hb hw' _ => exact ⟨hw'.trans hw, hb⟩
  | _ => exact ⟨hw, rfl⟩

/-- R22: effects leave a programmed base. -/
theorem Effects.base_kept (h : Effects i s t) (hw : s.csr.ctlbaseWritten = true) :
    t.csr.ctlbaseWritten = true ∧ t.csr.ctlbase = s.csr.ctlbase := by
  induction h with
  | refl => exact ⟨hw, rfl⟩
  | tail _ he ih =>
    obtain ⟨hw', hb⟩ := he.base_kept ih.1
    exact ⟨hw', hb.trans ih.2⟩

/-- R84: effects leave a running clock. -/
theorem Effects.clkEn (h : Effects i s t) (hclk : s.sys.clkEn = true) : t.sys.clkEn = true := by
  induction h with
  | refl => exact hclk
  | tail _ he ih =>
    cases he with
    | clock => rfl
    | _ => exact ih

/-- R22, R35: effects leave what lets a request store. -/
theorem Effects.based (h : Effects i s t) (hw : Based s) : Based t := by
  induction h with
  | refl => exact hw
  | tail _ he ih =>
    cases he with
    | list => exact .inr rfl
    | base => exact .inl rfl
    | registers c _ _ hw' _ => exact ih.imp_left hw'.trans
    | _ => exact ih

/-- R22: effects leave the base aligned. -/
theorem Effects.aligned (h : Effects i s t) (hb : Aligned s) : Aligned t := by
  induction h with
  | refl => exact hb
  | tail _ he ih =>
    cases he with
    | base b _ _ hb' _ => exact hb'
    | registers c _ hb' _ _ => exact (congrArg (fun b : Word => b.toNat % 1024) hb').trans ih
    | _ => exact ih

end Kept

/-! ### Pieces of a request -/

/-- The piece ends, done or raised, after effects of `i` on `s`, and stops the model only where the base of `s` is not
aligned. -/
def Result.Runs {α : Type} (i : Instr) (s : State) : Result α → Prop
  | .done _ t => Effects i s t
  | .raised _ _ t => Effects i s t
  | .stopped _ => ¬ Aligned s

section Runs
variable {α β : Type} {i : Instr} {s t : State} {r : Result α} {k : α → State → Result β} {f : State → Result α}

theorem runs_done {a : α} (h : Effects i s t) : (Result.done a t).Runs i s := h
theorem runs_raised_self {fault : FaultName} {info : Word} : (Result.raised fault info s : Result α).Runs i s :=
  Relation.ReflTransGen.refl

/-- A piece started after effects. -/
theorem Result.Runs.after (h : Effects i s t) (hr : r.Runs i t) : r.Runs i s := by
  cases r with
  | done a u => exact h.trans hr
  | raised fault info u => exact h.trans hr
  | stopped fault => exact fun hb => hr (h.aligned hb)

/-- One piece after another. -/
theorem Result.Runs.bind (hr : r.Runs i s) (hk : ∀ a t, r = .done a t → Effects i s t → (k a t).Runs i t) :
    (r.bind k).Runs i s := by
  cases r with
  | done a t => exact Result.Runs.after hr (hk a t rfl hr)
  | raised fault info t => exact hr
  | stopped fault => exact hr

/-- A piece whose continuation only answers. -/
theorem Result.Runs.answer {b : β} (hr : r.Runs i s) : (r.bind fun _ s => .done b s).Runs i s :=
  hr.bind fun _ _ _ _ => runs_done Relation.ReflTransGen.refl

section Checks
variable {ch : BitVec 8} {op : Word} {z : ItemSize} {n : BitVec 16} {a : Nat}

theorem inRange_runs (hk : ch.toNat < 32 → (f s).Runs i s) : (inRange ch s f).Runs i s := by
  by_cases hc : ch.toNat < 32
  · rw [inRange_pass hc]; exact hk hc
  · rw [inRange_raise (by omega)]; exact runs_raised_self
theorem inMapRange_runs (hk : ch.toNat < 16 → (f s).Runs i s) : (inMapRange ch s f).Runs i s := by
  by_cases hc : ch.toNat < 16
  · rw [inMapRange_pass hc]; exact hk hc
  · rw [inMapRange_raise (by omega)]; exact runs_raised_self
theorem sizeLegal_runs (hk : (f s).Runs i s) : (sizeLegal z s f).Runs i s := by
  rw [sizeLegal]; split
  · exact runs_raised_self
  · exact hk
theorem clocked_runs (hk : s.sys.clkEn = true → (f s).Runs i s) : (clocked op s f).Runs i s := by
  rw [clocked]; split
  next h => exact hk h
  next => exact runs_raised_self
theorem tabled_runs (hk : s.csr.ctlbaseWritten = true → (f s).Runs i s) : (tabled op s f).Runs i s := by
  rw [tabled]; split
  next h => exact hk h
  next => exact runs_raised_self
theorem countLegal_runs (hk : (f s).Runs i s) : (countLegal op n s f).Runs i s := by
  rw [countLegal]; split
  · exact runs_raised_self
  · split
    · exact runs_raised_self
    · exact hk

/-- Log 5: an access stops the model only at an address that an aligned base does not give. -/
theorem access_runs (ha : Aligned s → a % 4 = 0 ∧ a < 2 ^ 32) (hk : a % 4 = 0 → a < 2 ^ 32 → (f s).Runs i s) :
    (access a s f).Runs i s := by
  by_cases h4 : a % 4 = 0
  · by_cases hl : a < 2 ^ 32
    · simp only [access, h4, ne_eq, not_true_eq_false, if_false, addr_below hl]
      split
      · exact hk h4 hl
      · exact runs_raised_self
    · have hlim : Config.addrLimit ≤ a := by simp only [Config.addrLimit]; omega
      simp only [access, h4, ne_eq, not_true_eq_false, if_false, hlim, if_true]
      exact fun hb => hl (ha hb).2
  · simp only [access, ne_eq, h4, not_false_eq_true, if_true]
    exact fun hb => h4 (ha hb).1

end Checks

/-! ### Accesses to the table -/

variable {ch : BitVec 8} {h : Half} {w : EntryWord}

/-- R47: with an aligned base an entry address is a multiple of 4 below 2^32. -/
theorem entaddr_aligned (hc : ch.toNat < 32) (h : Half) (w : EntryWord) (hb : Aligned s) :
    entaddr s ch h w % 4 = 0 ∧ entaddr s ch h w < 2 ^ 32 :=
  have hbounds := entaddr_bounds hb hc h w
  ⟨hbounds.1, hbounds.2.1⟩

theorem memRead_runs (hc : ch.toNat < 32) : (memRead (entaddr s ch h w) s).Runs i s :=
  access_runs (entaddr_aligned hc h w) fun _ _ => runs_done (.single (.history _))

theorem memWrite_runs {v : Word} (hc : ch.toNat < 32) (hw : Based s)
    (hv : MayStore i w (readWord s.mem (entaddr s ch h w)) v) : (memWrite (entaddr s ch h w) v s).Runs i s :=
  access_runs (entaddr_aligned hc h w) fun h4 hl =>
    runs_done ((Relation.ReflTransGen.single (.store ch h w v hc hw h4 hl hv)).tail (.history _))

/-- R12: inserting a field that has none of the reserved bits keeps these. -/
theorem mayStore_insertField {fld : CwField} (hfld : fld.mask &&& reservedBits = 0#32) (old v : Word) :
    MayStore i .ctl old (insertField fld old v) := by
  refine .inr (BitVec.eq_of_getLsbD_eq fun k _ => ?_)
  have hbit := congrArg (fun x => x.getLsbD k) hfld
  simp only [BitVec.getLsbD_and, BitVec.getLsbD_zero] at hbit ⊢
  rw [getLsbD_insertField]
  cases hm : fld.mask.getLsbD k
  · simp
  · have hr : reservedBits.getLsbD k = false := by simpa [hm] using hbit
    simp [hr]

/-- R8, R48: the write of a field of the control word is one store, at the half that the state names. -/
theorem rmwControl_runs {fld : CwField} {v : Word} (hc : ch.toNat < 32) (hw : Based s)
    (hfld : fld.mask &&& reservedBits = 0#32) : (rmwControl ch fld v s).Runs i s := by
  refine (memRead_runs hc).bind fun old t hread _ => ?_
  obtain ⟨_, _, _, rfl, rfl⟩ := memRead_cases hread
  exact memWrite_runs (s := emit _ s) hc hw (mayStore_insertField hfld _ _)

end Runs

/-! ### The bodies of the setters -/

section Bodies
variable {i : Instr} {s : State} {ch : BitVec 8}

/-- R87: SETMODE's body, inside a request that may write the alternate-select vector. -/
theorem setmodeBody_runs {m : TransferMode} (hc : ch.toNat < 32) (hclk : s.sys.clkEn = true)
    (hw : Based s) (hown : ∀ c v, OwnedCsr i c { c with altsel := v }) :
    (setmodeBody ch m s).Runs i s :=
  (rmwControl_runs hc hw (by decide)).bind fun _ _ _ ht =>
    runs_done (.single (.registers _ (ht.clkEn hclk) rfl rfl fun _ => hown _ _))

theorem setarbBody_runs {arb : BitVec 4} (hc : ch.toNat < 32) (hw : Based s) :
    (setarbBody ch arb s).Runs i s := rmwControl_runs hc hw (by decide)

/-- R92, R93: an end pointer that the request may store, then four bits of the control word. -/
theorem endpointBody_runs {w : EntryWord} {fld : CwField} {inc : Increment} {z : ItemSize} {e : Word}
    (hc : ch.toNat < 32) (hw : Based s) (hfld : fld.mask &&& reservedBits = 0#32)
    (he : ∀ old, MayStore i w old e) : (endpointBody ch w fld inc z e s).Runs i s :=
  (memWrite_runs hc hw (he _)).bind fun _ _ _ ht =>
    (rmwControl_runs hc (ht.based hw) hfld).answer

theorem startBody_runs {n : BitVec 16} (hi : i = .start ch n) (hc : ch.toNat < 32) (hclk : s.sys.clkEn = true) :
    (startBody ch n s).Runs i s := by
  have harm : ∀ {t : State}, t.sys.clkEn = true → Effects i t (armBody ch t) := fun ht =>
    .single (.registers _ ht rfl rfl fun _ => { ena := fun _ => .inl ⟨_, _, hi⟩ })
  rw [startBody]
  split
  next r hr =>
    have hvalid : Based s := by
      refine .inr (by_contra fun h => ?_)
      simp [findRecord, h] at hr
    have hmode := setmodeBody_runs (i := i) (m := r.mode) hc hclk hvalid
      fun _ _ => { altsel := fun _ => .inr (.inl ⟨_, _, hi⟩) }
    refine Result.Runs.bind (hmode.bind fun _ _ _ ht => ?_) fun _ _ _ ht => harm (ht.clkEn hclk)
    exact rmwControl_runs hc (ht.based hvalid) (by decide)
  next => exact harm hclk

/-! ### INIT -/

/-- R91: the six setters of a record, inside INIT. -/
theorem applyRecord_runs {rs : List ConfigRecord} {r : ConfigRecord} (hc : r.ch.toNat < 16)
    (hclk : s.sys.clkEn = true) (hw : Based s) : (applyRecord r s).Runs (.init rs) s := by
  have hc32 : r.ch.toNat < 32 := by omega
  have hinit : ∃ q, Instr.init rs = .init q := ⟨rs, rfl⟩
  have hmap : Effects (.init rs) s (setmapBody r.ch r.enc s) :=
    .single (.registers _ hclk (by simp) (by simp) fun _ => { chmap := fun _ => .inr (.inr hinit) })
  have hprio : Effects (.init rs) s (setprioBody r.ch r.tier (setmapBody r.ch r.enc s)) :=
    hmap.tail (.registers _ hclk rfl rfl fun _ => { prio := fun _ => .inr (.inr hinit) })
  refine Result.Runs.after hprio ?_
  refine (setmodeBody_runs (s := setprioBody r.ch r.tier (setmapBody r.ch r.enc s)) hc32 hclk
    (hprio.based hw) fun _ _ => { altsel := fun _ => .inr (.inr (.inr hinit)) }).bind fun _ t _ ht => ?_
  have htclk : t.sys.clkEn = true := ht.clkEn hclk
  have htw : Based t := ht.based (hprio.based hw)
  have hgran : Effects (.init rs) t (setgranBody r.ch r.gran t) :=
    .single (.registers _ htclk rfl rfl fun _ => { useburst := fun _ => .inr (.inr hinit) })
  refine Result.Runs.after hgran ((setarbBody_runs (s := setgranBody r.ch r.gran t) hc32 htw).bind fun _ u _ hu => ?_)
  exact runs_done (.single (.registers _ (hu.clkEn htclk) rfl rfl
    fun _ => { reqmask := fun _ => .inr (.inr hinit) }))

/-- R91: the records in list order, inside INIT. -/
theorem applyRecords_runs {all rs : List ConfigRecord} (hc : ∀ r ∈ rs, r.ch.toNat < 16)
    (hclk : s.sys.clkEn = true) (hw : Based s) : (applyRecords rs s).Runs (.init all) s := by
  induction rs generalizing s with
  | nil => exact runs_done .refl
  | cons r rs ih =>
    simp only [List.mem_cons, forall_eq_or_imp] at hc
    exact (applyRecord_runs hc.1 hclk hw).bind fun _ t _ ht => ih hc.2 (ht.clkEn hclk) (ht.based hw)

/-- R22: programming a base, inside a request that may. -/
theorem programBase_runs {b : Word} (hi : i.wellFormed = true → (∃ d, i = .wrCtlbase d) ∨ ∃ rs, i = .init rs)
    (hclk : s.sys.clkEn = true) (hb : b.toNat % 1024 = 0) : (programBase b s).Runs i s := by
  by_cases hor : s.csr.ctlbaseWritten = false ∨ b = s.csr.ctlbase
  · rw [programBase_done hor]
    exact runs_done (.single (.base b hi hclk hb hor))
  · simp only [not_or, Bool.not_eq_false] at hor
    rw [programBase_raised hor.1 hor.2]
    exact runs_raised_self

/-- R22: a base that was programmed is marked written. -/
theorem programBase_written {b : Word} {u : Unit} {t : State} (h : programBase b s = .done u t) :
    t.csr.ctlbaseWritten = true ∧ t.sys = s.sys := by
  rw [programBase] at h
  split at h
  · cases h
  · cases h; exact ⟨rfl, rfl⟩

/-- R78: the address that `locate` finds is a multiple of the alignment. -/
theorem locate_mod {b n a t x : Nat} (h : locate b n a t = .ok x) : x % a = 0 := by
  rw [locate] at h
  split at h
  · cases h
  next ha =>
    split at h
    · cases h
    · split at h
      · cases h
      · split at h
        · cases h
        · cases h; exact add_alignDistance_mod (Nat.pos_of_ne_zero ha)

theorem initBase_runs {rs : List ConfigRecord} (hclk : s.sys.clkEn = true) : (initBase s).Runs (.init rs) s := by
  rw [initBase]
  split
  next => exact runs_raised_self
  next x hx =>
    refine programBase_runs (fun _ => .inr ⟨rs, rfl⟩) hclk ?_
    have hmod : x % 1024 = 0 := locate_mod hx
    rw [BitVec.toNat_ofNat]
    omega

/-- R91: once step 3 is done, a base is programmed. -/
theorem initBase_written {u : Unit} {t : State} (h : initBase s = .done u t) :
    t.csr.ctlbaseWritten = true ∧ t.sys = s.sys := by
  rw [initBase] at h
  split at h
  next => cases h
  next => exact programBase_written h

/-- R91, steps 1 and 2: the clock, the settle delay, the power bit and the master enable. -/
theorem initPower_eq (s : State) :
    initPower s =
      { s with
        sys := { clkEn := true, pwrOk := true }
        hist := s.hist ++ if s.sys.clkEn then [.settle] else [.clkSet, .settle]
        csr := { s.csr with masten := true } } := by
  rw [initPower, clkonBody_eq]

theorem initBody_runs (rs : List ConfigRecord) (s : State) : (initBody rs s).Runs (.init rs) s := by
  have hinit : ∃ q, Instr.init rs = .init q := ⟨rs, rfl⟩
  rw [initBody]
  split
  next => exact runs_raised_self
  next hlen =>
    split
    next => exact runs_raised_self
    next hv =>
      have hc := recordViolation_eq_none hv
      have hpower : Effects (.init rs) s (initPower s) := by
        rw [initPower_eq]
        exact .tail (.tail (.tail .refl (.clock (.inr hinit))) (.history _))
          (.registers _ rfl rfl rfl fun _ => { masten := fun _ => .inr hinit })
      have hclk : (initPower s).sys.clkEn = true := by rw [initPower_eq]
      refine Result.Runs.after hpower ((initBase_runs hclk).bind fun _ t hdone ht => ?_)
      have hw := (initBase_written hdone).1
      refine (applyRecords_runs hc (ht.clkEn hclk) (.inl hw)).bind fun _ u _ hu => ?_
      exact runs_done (.single (.list rs rfl (Nat.not_lt.mp hlen) hc (hu.base_kept hw).1))

/-! ### Register access -/

theorem readReg_runs (r : Reg) (op : Word) : (readReg r op s).Runs i s := by
  cases r <;> simp only [readReg]
  case stat => exact clocked_runs fun _ => runs_done (.single (.draw _))
  case waitstat => exact clocked_runs fun _ => runs_done (.single (.draw _))
  case swreq => exact runs_raised_self
  all_goals exact clocked_runs fun _ => runs_done .refl

theorem storeCsr_runs {op : Word} {f : Csr → Csr} (hb : (f s.csr).ctlbase = s.csr.ctlbase)
    (hw : (f s.csr).ctlbaseWritten = s.csr.ctlbaseWritten) (hown : i.wellFormed = true → OwnedCsr i s.csr (f s.csr)) :
    (storeCsr op f s).Runs i s :=
  clocked_runs fun hclk => runs_done (.single (.registers _ hclk hb hw hown))

/-- R97: the write of a register, by its WR row or by a generic row at its offset (log 14). -/
theorem writeReg_runs {r : Reg} {d op : Word} (hi : i.wellFormed = true → i = .ofWrite d r) :
    (writeReg r d op s).Runs i s := by
  cases r <;> simp only [writeReg]
  case stat => exact runs_raised_self
  case altbase => exact runs_raised_self
  case waitstat => exact runs_raised_self
  case swreq => exact clocked_runs fun _ => runs_done (t := emitAll (swReqEvents d) s) (.single (.history _))
  case ctlbase =>
    rw [writeCtlbase]
    refine clocked_runs fun hclk => ?_
    split
    · exact runs_raised_self
    next hd => exact (programBase_runs (fun h => .inl ⟨d, hi h⟩) hclk (not_not.mp hd)).answer
  case cfg =>
    rw [writeCfg]
    split
    · exact runs_raised_self
    · exact storeCsr_runs rfl rfl fun h => { masten := fun _ => .inl ⟨d, hi h⟩ }
  case useburstset => exact storeCsr_runs rfl rfl fun h => { useburst := fun _ => .inr (.inl ⟨d, .inl (hi h)⟩) }
  case useburstclr => exact storeCsr_runs rfl rfl fun h => { useburst := fun _ => .inr (.inl ⟨d, .inr (hi h)⟩) }
  case reqmaskset => exact storeCsr_runs rfl rfl fun h => { reqmask := fun _ => .inr (.inl ⟨d, .inl (hi h)⟩) }
  case reqmaskclr => exact storeCsr_runs rfl rfl fun h => { reqmask := fun _ => .inr (.inl ⟨d, .inr (hi h)⟩) }
  case enaset => exact storeCsr_runs rfl rfl fun h => { ena := fun _ => .inr ⟨d, .inl (hi h)⟩ }
  case enaclr => exact storeCsr_runs rfl rfl fun h => { ena := fun _ => .inr ⟨d, .inr (hi h)⟩ }
  case altset => exact storeCsr_runs rfl rfl fun h => { altsel := fun _ => .inr (.inr (.inl ⟨d, .inl (hi h)⟩)) }
  case altclr => exact storeCsr_runs rfl rfl fun h => { altsel := fun _ => .inr (.inr (.inl ⟨d, .inr (hi h)⟩)) }
  case prioset => exact storeCsr_runs rfl rfl fun h => { prio := fun _ => .inr (.inl ⟨d, .inl (hi h)⟩) }
  case prioclr => exact storeCsr_runs rfl rfl fun h => { prio := fun _ => .inr (.inl ⟨d, .inr (hi h)⟩) }
  case errclr => exact storeCsr_runs rfl rfl fun h => { err := fun _ => ⟨d, hi h⟩ }
  case chasgn => exact storeCsr_runs rfl rfl fun h => { chasgn := fun _ => ⟨d, hi h⟩ }
  case chmap0 => exact storeCsr_runs rfl rfl fun h => { chmap := fun _ => .inr (.inl ⟨d, .inl (hi h)⟩) }
  case chmap1 => exact storeCsr_runs rfl rfl fun h => { chmap := fun _ => .inr (.inl ⟨d, .inr (.inl (hi h))⟩) }
  case chmap2 => exact storeCsr_runs rfl rfl fun h => { chmap := fun _ => .inr (.inl ⟨d, .inr (.inr (.inl (hi h)))⟩) }
  case chmap3 => exact storeCsr_runs rfl rfl fun h => { chmap := fun _ => .inr (.inl ⟨d, .inr (.inr (.inr (hi h)))⟩) }

end Bodies

/-! ### Every request -/

/-- Every body is a sequence of the request's effects. -/
theorem bodyOf_runs (i : Instr) (op : Word) (s : State) : (bodyOf i op s).Runs i s := by
  induction i using Instr.rowCases with
  | locate b n a t =>
    simp only [bodyOf, locateBody]
    split
    · exact runs_done .refl
    · exact runs_raised_self
  | tblchk b => exact runs_done .refl
  | tblrd ch h w =>
    simp only [bodyOf]
    exact inRange_runs fun hc => clocked_runs fun _ => tabled_runs fun _ => memRead_runs hc
  | tblwr ch h w d =>
    simp only [bodyOf]
    exact inRange_runs fun hc => clocked_runs fun _ => tabled_runs fun hw =>
      (memWrite_runs hc (.inl hw) (.inl ⟨_, _, _, _, rfl⟩)).answer
  | clkon =>
    simp only [bodyOf, clkonBody_eq]
    exact runs_done (.tail (.single (.clock (.inl rfl))) (.history _))
  | setmap ch enc =>
    simp only [bodyOf]
    exact inRange_runs fun _ => inMapRange_runs fun _ => clocked_runs fun hclk =>
      runs_done (.single (.registers _ hclk (by simp) (by simp) fun _ => { chmap := fun _ => .inl ⟨_, _, rfl⟩ }))
  | setprio ch t =>
    simp only [bodyOf]
    exact inRange_runs fun _ => clocked_runs fun hclk =>
      runs_done (.single (.registers _ hclk rfl rfl fun _ => { prio := fun _ => .inl ⟨_, _, rfl⟩ }))
  | setmode ch m =>
    simp only [bodyOf]
    exact inRange_runs fun hc => clocked_runs fun hclk => tabled_runs fun hw =>
      (setmodeBody_runs hc hclk (.inl hw) fun _ _ => { altsel := fun _ => .inl ⟨_, _, rfl⟩ }).answer
  | setgran ch g =>
    simp only [bodyOf]
    exact inRange_runs fun _ => clocked_runs fun hclk =>
      runs_done (.single (.registers _ hclk rfl rfl fun _ => { useburst := fun _ => .inl ⟨_, _, rfl⟩ }))
  | setarb ch a =>
    simp only [bodyOf]
    exact inRange_runs fun hc => clocked_runs fun _ => tabled_runs fun hw => (setarbBody_runs hc (.inl hw)).answer
  | unmask ch =>
    simp only [bodyOf]
    exact inRange_runs fun _ => clocked_runs fun hclk =>
      runs_done (.single (.registers _ hclk rfl rfl fun _ => { reqmask := fun _ => .inl ⟨_, rfl⟩ }))
  | init rs => exact initBody_runs rs s
  | cfgsrc ch inc z e =>
    simp only [bodyOf]
    exact inRange_runs fun hc => sizeLegal_runs (clocked_runs fun _ => tabled_runs fun hw =>
      endpointBody_runs hc (.inl hw) (by decide) fun _ => .inr ⟨_, _, _, _, rfl⟩)
  | cfgdst ch inc z e =>
    simp only [bodyOf]
    exact inRange_runs fun hc => sizeLegal_runs (clocked_runs fun _ => tabled_runs fun hw =>
      endpointBody_runs hc (.inl hw) (by decide) fun _ => .inr ⟨_, _, _, _, rfl⟩)
  | start ch n =>
    simp only [bodyOf]
    exact inRange_runs fun hc => countLegal_runs (clocked_runs fun hclk => startBody_runs rfl hc hclk)
  | read r => rw [bodyOf_ofRead]; exact readReg_runs r op
  | write d r => rw [bodyOf_ofWrite]; exact writeReg_runs fun _ => rfl
  | rd off =>
    simp only [bodyOf, readOffset]
    split
    · exact runs_raised_self
    · exact readReg_runs _ op
  | wr off d =>
    simp only [bodyOf, writeOffset]
    split
    next => exact runs_raised_self
    next r hr => exact writeReg_runs fun hwf => by simp [Instr.wellFormed, offsetUnmapped, hr] at hwf

end Sys2Proof.Machine

/-! SUPPORT. What follows from the effects of a request (`bodyOf_runs`): the invariant (spec 10_state.md R16 to R22,
R35), progress, where a step stores (R37, 20_memory.md R47), which fields of an entry and which registers a request
writes (R12), and what a step never undoes. -/

namespace Sys2Proof.Machine

/-! ### The invariant -/

section Inv
variable {i : Instr} {s t : State}

/-- R17, R22: with the clock on the registers other than the base are free. -/
theorem State.Inv.withCsr (hs : s.Inv) (hclk : s.sys.clkEn = true) {c : Csr} (hb : c.ctlbase = s.csr.ctlbase)
    (hw : c.ctlbaseWritten = s.csr.ctlbaseWritten) : State.Inv { s with csr := c } := by
  obtain ⟨hbase, hlatch, hstore, ⟨hpwr, hvalid, _⟩, hmem⟩ := hs
  exact ⟨⟨hb ▸ hbase.1, fun h => hb ▸ hbase.2 (hw ▸ h)⟩, hlatch, hstore,
    ⟨hpwr, fun h => hw ▸ hvalid h, fun h => absurd (hclk.symm.trans h) (by decide)⟩, hmem⟩

/-- R124: memory is free as far as it is canonical. -/
theorem State.Inv.withMem (hs : s.Inv) {m : Memory} (hm : Memory.wf m = true) : State.Inv { s with mem := m } :=
  have ⟨hbase, hlatch, hstore, hboot, _⟩ := hs
  ⟨hbase, hlatch, hstore, hboot, hm⟩

/-- R94: a block with the invariant that may store has a programmed base. -/
theorem State.Inv.written (hs : s.Inv) (hw : Based s) : s.csr.ctlbaseWritten = true :=
  have ⟨_, _, _, ⟨_, hvalid, _⟩, _⟩ := hs
  hw.elim id hvalid

/-- Every effect keeps the invariant. -/
theorem Effect.inv (h : Effect i s t) (hs : s.Inv) : t.Inv := by
  have ⟨hbase, hlatch, hstore, ⟨hpwr, hvalid, hreset⟩, hmem⟩ := hs
  cases h with
  | history => exact hs
  | draw => exact hs
  | clock => exact ⟨hbase, hlatch, hstore, ⟨rfl, hvalid, nofun⟩, hmem⟩
  | list rs _ hlen hch hw => exact ⟨hbase, hlatch, ⟨hlen, hch, nofun⟩, ⟨hpwr, fun _ => hw, hreset⟩, hmem⟩
  | base b _ hclk hb _ =>
    exact ⟨⟨hb, nofun⟩, hlatch, hstore, ⟨hpwr, fun _ => rfl, fun h => absurd (hclk.symm.trans h) (by decide)⟩, hmem⟩
  | registers c hclk hb hw _ => exact hs.withCsr hclk hb hw
  | store ch h w v _ _ h4 hl _ =>
    exact hs.withMem (writeWord_wf hmem (by simp only [Config.addrLimit]; omega))

theorem Effects.inv (h : Effects i s t) (hs : s.Inv) : t.Inv := by
  induction h with
  | refl => exact hs
  | tail _ he ih => exact he.inv ih

/-- R128: taking a fault latches one of the sixteen codes. -/
theorem State.Inv.raiseFault (hs : s.Inv) (f : FaultName) (info op : Word) :
    State.Inv (raiseFault f info op s) := by
  obtain ⟨hbase, _, hstore, hboot, hmem⟩ := hs
  have ⟨hlow, hhigh⟩ := code_bounds f
  exact ⟨hbase, ⟨hhigh, fun h => absurd hlow (by rw [show f.code = 0#8 from h]; decide)⟩, hstore, hboot, hmem⟩

/-- A body that ends, ends after effects of its request. -/
theorem Result.Runs.toForall {α : Type} {r : Result α} (h : r.Runs i s) : r.Forall (Effects i s) := by
  cases r with
  | done => exact h
  | raised => exact h
  | stopped => trivial

/-- What every state that a request's effects lead to has, and that a response, a fault and a refusal keep, the answer
of `exec` has. -/
theorem exec_next_of_effects {P : State → Prop} (h : exec i s = .next t) (hP : ∀ u, Effects i (started i s) u → P u)
    (hdone : ∀ v u, P u → P (respond v u)) (hraise : ∀ f info op u, P u → P (Machine.raiseFault f info op u))
    (hrefuse : P (refusedPacket (packetOf i) s)) : P t :=
  exec_next h ((bodyOf_runs i _ _).toForall.mono hP) hdone hraise hrefuse

/-- Every request keeps the invariant. -/
theorem exec_inv (hs : s.Inv) (h : exec i s = .next t) : t.Inv :=
  exec_next_of_effects (P := State.Inv) h (fun _ hu => hu.inv hs) (fun _ _ hu => hu)
    (fun f info op _ hu => hu.raiseFault f info op) hs

/-- R74, R129: the rejection of a packet is a fault or a refusal. -/
theorem illegalPacket_cases (p : Packet) (e : DecodeError) (s : State) :
    illegalPacket p e s = .next (trappedPacket p 1#8 e.info [] s) ∨
      illegalPacket p e s = .next (refusedPacket p s) := by
  by_cases hs : Accepting s
  · exact .inl (illegalPacket_raised hs)
  · exact .inr (illegalPacket_refused hs)

/-- What holds of the state itself, of the answer to every request, and of every trap and refusal of a packet, holds
after a step. -/
theorem step_next {P : State → Prop} (h : step s = .next t) (hwait : P s)
    (hexec : ∀ i rest, exec i { s with port := rest } = .next t → P t)
    (htrap : ∀ p info rest, P (trappedPacket p 1#8 info [] { s with port := rest }))
    (hrefuse : ∀ p rest, P (refusedPacket p { s with port := rest })) : P t := by
  rcases step_cases h with ⟨_, rfl⟩ | ⟨_, rest, i, _, _, hi⟩ | ⟨p, rest, e, _, _, he⟩
  · exact hwait
  · exact hexec i rest hi
  · rcases illegalPacket_cases p e { s with port := rest } with ht | ht <;>
      rw [he, Host.Outcome.next.injEq] at ht <;> subst ht
    · exact htrap p e.info rest
    · exact hrefuse p rest

/-- Settles O50: every effect of a request keeps the invariant, and so do the response, the fault and the refusal. -/
theorem stepKeepsTheInvariant : Obligations.StepKeepsTheInvariant := by
  unfold Obligations.StepKeepsTheInvariant
  intro s t hs h
  refine step_next h hs (fun i rest hi => exec_inv (s := { s with port := rest }) hs hi) ?_ fun _ _ => hs
  exact fun p info rest => hs.raiseFault .illegalCommand info p.op

/-! ### Progress -/

/-- Log 5: with an aligned base every request answers a next state. -/
theorem exec_answers (i : Instr) (hb : Aligned s) : ∃ t, exec i s = .next t := by
  by_cases hs : Accepting s
  · have hruns := bodyOf_runs i (packetOf i).op (started i s)
    cases hbody : bodyOf i (packetOf i).op (started i s) with
    | done v u => exact ⟨_, exec_done hs hbody⟩
    | raised f info u => exact ⟨_, exec_raised hs hbody⟩
    | stopped f => rw [hbody] at hruns; exact absurd hb hruns
  · exact ⟨_, exec_refused hs⟩

/-- Settles O52: only an unaligned base stops the model, and the invariant has it aligned. -/
theorem everyStepAnswersANextState : Obligations.EveryStepAnswersANextState := by
  unfold Obligations.EveryStepAnswersANextState
  intro s hs
  obtain ⟨⟨hb, _⟩, _⟩ := hs
  rw [step]
  split
  next => exact ⟨s, rfl⟩
  next p rest _ =>
    split
    next i _ => exact exec_answers (s := { s with port := rest }) i hb
    next e _ => exact (illegalPacket_cases p e { s with port := rest }).elim (fun h => ⟨_, h⟩) fun h => ⟨_, h⟩

/-! ### Where a step stores -/

/-- R37, R47: from `s` to `t` no byte outside the table of `t` changed, and none at all without a programmed base. -/
def StoresInTable (s t : State) : Prop :=
  (∀ a, a < t.csr.ctlbase.toNat ∨ t.csr.ctlbase.toNat + 1024 ≤ a → readByte t.mem a = readByte s.mem a) ∧
    (t.csr.ctlbaseWritten = false → t.mem = s.mem)

theorem StoresInTable.of_mem (h : t.mem = s.mem) : StoresInTable s t := ⟨fun _ _ => by rw [h], fun _ => h⟩

/-- R47: from a state with the invariant effects store only in the table. -/
theorem Effects.storesInTable (h : Effects i s t) (hs : s.Inv) : StoresInTable s t := by
  induction h using Relation.ReflTransGen.head_induction_on with
  | refl => exact .of_mem rfl
  | head huv hvt ih =>
    obtain ⟨hbytes, hmem⟩ := ih (huv.inv hs)
    cases huv with
    | store ch h w v hc hw _ _ _ =>
      obtain ⟨hwt, hbt⟩ := Effects.base_kept hvt (hs.written hw)
      obtain ⟨⟨hb, _⟩, _⟩ := hs
      obtain ⟨_, hlow, hhigh, _⟩ := entryAddr_bounds h w hb hc
      refine ⟨fun a ha => (hbytes a ha).trans (readByte_writeWord_outside ?_), fun hnot => absurd hwt (by simp [hnot])⟩
      simp only [hbt] at ha
      simp only [entaddr]
      omega
    | _ => exact ⟨hbytes, hmem⟩

/-- Settles O53: the effects of a request store only in the table, and nothing else a step does stores at all. -/
theorem stepsStoreOnlyInTheTable : Obligations.StepsStoreOnlyInTheTable := by
  unfold Obligations.StepsStoreOnlyInTheTable
  intro s t hs h
  refine step_next (P := StoresInTable s) h (.of_mem rfl) (fun i rest hi => ?_) (fun _ _ _ => .of_mem rfl)
    fun _ _ => .of_mem rfl
  exact exec_next_of_effects (P := StoresInTable s) hi (fun u hu => hu.storesInTable hs) (fun _ _ h => h)
    (fun _ _ _ _ h => h) (.of_mem rfl)

/-! ### Which fields of an entry a request writes -/

/-- R12, R47: what every value that the request may store in an entry word has in common with the old one, the word
keeps. -/
theorem Effects.word_kept {α : Type} (f : Word → α) (h : Effects i s t) (hs : s.Inv) {ch : BitVec 8} {k : Half}
    {w : EntryWord} (hc : ch.toNat < 32) (hf : ∀ old v, MayStore i w old v → f v = f old) :
    f (readWord t.mem (entryAddr t.csr.ctlbase ch k w)) = f (readWord s.mem (entryAddr t.csr.ctlbase ch k w)) := by
  induction h using Relation.ReflTransGen.head_induction_on with
  | refl => rfl
  | head huv hvt ih =>
    rw [ih (huv.inv hs)]
    cases huv with
    | store ch' k' w' v hc' hw _ hl hv =>
      obtain ⟨_, hbt⟩ := Effects.base_kept hvt (hs.written hw)
      obtain ⟨⟨hb, _⟩, _, _, _, hmem⟩ := hs
      rw [hbt]
      by_cases heq : (ch', k', w') = (ch, k, w)
      · cases heq
        have hread := readWord_writeWord_same (v := v) hmem (entaddr_bounds hb hc k w).2.2
        exact (congrArg f hread).trans (hf _ _ hv)
      · exact congrArg f (readWord_writeWord_disjoint (entryAddr_disjoint hc hc' (Ne.symm heq)))
    | _ => rfl

/-- R12: the same after the whole request. -/
theorem exec_word_kept {α : Type} (f : Word → α) (hs : s.Inv) (h : exec i s = .next t) {ch : BitVec 8} {k : Half}
    {w : EntryWord} (hc : ch.toNat < 32) (hf : ∀ old v, MayStore i w old v → f v = f old) :
    f (readWord t.mem (entryAddr t.csr.ctlbase ch k w)) = f (readWord s.mem (entryAddr t.csr.ctlbase ch k w)) :=
  exec_next_of_effects
    (P := fun t =>
      f (readWord t.mem (entryAddr t.csr.ctlbase ch k w)) = f (readWord s.mem (entryAddr t.csr.ctlbase ch k w)))
    h (fun _ hu => hu.word_kept f hs hc hf) (fun _ _ h => h) (fun _ _ _ _ h => h) rfl

/-- Settles O54: what a request other than TBLWR may store in each word (`MayStore`) keeps the fields named. -/
theorem onlyTblwrWritesReservedFields : Obligations.OnlyTblwrWritesReservedFields := by
  unfold Obligations.OnlyTblwrWritesReservedFields
  intro i s t ch h hs hexec hc hnot
  have hno : ¬ ∃ c k w d, i = .tblwr c k w d := fun ⟨c, k, w, d, hi⟩ => hnot c k w d hi
  refine ⟨?reserved, ?control, fun hsrc => ?source, fun hdst => ?destination⟩ <;> rintro _ rfl
  case reserved => exact exec_word_kept id hs hexec hc fun _ _ hv => (hv.resolve_left hno).elim
  case control => exact exec_word_kept (· &&& reservedBits) hs hexec hc fun _ _ hv => hv.resolve_left hno
  case source =>
    refine exec_word_kept id hs hexec hc fun _ _ hv => ?_
    obtain ⟨c, j, z, e, hi⟩ := hv.resolve_left hno
    exact absurd hi (hsrc c j z e)
  case destination =>
    refine exec_word_kept id hs hexec hc fun _ _ hv => ?_
    obtain ⟨c, j, z, e, hi⟩ := hv.resolve_left hno
    exact absurd hi (hdst c j z e)

/-! ### What a step never undoes -/

/-- R5, R14, R17, R22, R32, R39: what only moves forward from `s` to `t`. -/
def MovesForward (s t : State) : Prop :=
  (s.csr.ctlbaseWritten = true → t.csr.ctlbaseWritten = true ∧ t.csr.ctlbase = s.csr.ctlbase) ∧
    (s.sys.clkEn = true → t.sys.clkEn = true) ∧
    (∀ i, t.csr.err.getLsbD i = true → s.csr.err.getLsbD i = true) ∧
    (t.seq = s.seq ∨ t.seq = s.seq + 1) ∧ s.hist <+: t.hist ∧ t.par = s.par ∧ t.mem.powerOn = s.mem.powerOn

/-- What only adds to the history moves forward. -/
theorem MovesForward.of_hist (hcsr : t.csr = s.csr) (hsys : t.sys = s.sys) (hseq : t.seq = s.seq)
    (hhist : s.hist <+: t.hist) (hpar : t.par = s.par) (hmem : t.mem = s.mem) : MovesForward s t :=
  ⟨fun h => by rw [hcsr]; exact ⟨h, rfl⟩, fun h => by rw [hsys, h], fun _ h => by rwa [hcsr] at h, .inl hseq,
    hhist, hpar, by rw [hmem]⟩

/-- R39: the events of a request come after what the history held. -/
theorem hist_historyAfter (p : Packet) (evs : List Event) (status : Byte) (v : Word) (s : State) :
    s.hist <+: historyAfter p evs status v s :=
  ⟨.req s.seq p.op p.args :: (evs ++ [.resp s.seq status v]), by simp [historyAfter]⟩

/-- R14, R39: after a body, its response or fault only adds to the history and the count. -/
theorem Forward.movesForward {u : State} {e : Event} (h : Forward (started i s) u) (hcsr : t.csr = u.csr)
    (hsys : t.sys = u.sys) (hseq : t.seq = u.seq ∨ t.seq = u.seq + 1) (hhist : t.hist = u.hist ++ [e])
    (hpar : t.par = u.par) (hmem : t.mem = u.mem) : MovesForward s t := by
  obtain ⟨evs, hevs, _⟩ := h.hist
  have hseq' : u.seq = s.seq := h.seq
  refine ⟨fun hw => by rw [hcsr]; exact h.base hw, fun hclk => by rw [hsys]; exact h.clk hclk,
    fun k hk => h.err k (by rwa [hcsr] at hk), by rwa [← hseq'], ?_, hpar.trans h.par,
    (congrArg Memory.powerOn hmem).trans h.power⟩
  rw [hhist, hevs, emit_hist, List.append_assoc, List.append_assoc]
  exact ⟨_, rfl⟩

/-- Every request moves forward. -/
theorem exec_movesForward (h : exec i s = .next t) : MovesForward s t := by
  have hbody := bodyOf_forward i (packetOf i).op (started i s)
  rcases exec_cases h with ⟨_, rfl⟩ | ⟨_, v, u, hb, rfl⟩ | ⟨_, f, info, u, hb, rfl⟩
  · exact .of_hist rfl rfl rfl (hist_historyAfter _ _ _ _ s) rfl rfl
  · rw [hb] at hbody
    exact hbody.movesForward rfl rfl (.inr rfl) rfl rfl rfl
  · rw [hb] at hbody
    exact hbody.movesForward rfl rfl (.inl rfl) rfl rfl rfl

/-- Settles O55: every request moves forward (`bodyOf_forward`), and a rejected packet only adds to the history. -/
theorem stepsOnlyMoveForward : Obligations.StepsOnlyMoveForward := by
  unfold Obligations.StepsOnlyMoveForward
  intro s t h
  refine step_next (P := MovesForward s) h ?wait (fun i rest hi => exec_movesForward (s := { s with port := rest }) hi)
    (fun p info rest => ?trap) fun p rest => ?refuse
  case wait => exact .of_hist rfl rfl rfl ⟨[], by simp⟩ rfl rfl
  case trap => exact .of_hist rfl rfl rfl (hist_historyAfter _ _ _ _ s) rfl rfl
  case refuse => exact .of_hist rfl rfl rfl (hist_historyAfter _ _ _ _ s) rfl rfl

/-! ### Which request writes which register -/

/-- What changes from the first to the third changes on one of the two ways between. -/
theorem changed_trans {α : Type} {P : Prop} {a b c : α} (h : b ≠ a → P) (h' : c ≠ b → P) (hne : c ≠ a) : P := by
  by_cases hb : b = a
  · exact h' (hb ▸ hne)
  · exact h hb

theorem OwnedCsr.refl (i : Instr) (c : Csr) : OwnedCsr i c c := {}

theorem OwnedCsr.trans {c c' c'' : Csr} (h : OwnedCsr i c c') (h' : OwnedCsr i c' c'') : OwnedCsr i c c'' where
  masten := changed_trans h.masten h'.masten
  useburst := changed_trans h.useburst h'.useburst
  reqmask := changed_trans h.reqmask h'.reqmask
  ena := changed_trans h.ena h'.ena
  altsel := changed_trans h.altsel h'.altsel
  prio := changed_trans h.prio h'.prio
  err := changed_trans h.err h'.err
  chasgn := changed_trans h.chasgn h'.chasgn
  chmap := changed_trans h.chmap h'.chmap

/-- R17, R21, R22, R26 to R35: what differs in `t` from `s` is what the request `i` writes. -/
structure Owned (i : Instr) (s t : State) : Prop where
  cfg : t.cfg ≠ s.cfg → ∃ rs, i = .init rs := by simp
  sys : t.sys ≠ s.sys → i = .clkon ∨ ∃ rs, i = .init rs := by simp
  base : (t.csr.ctlbase, t.csr.ctlbaseWritten) ≠ (s.csr.ctlbase, s.csr.ctlbaseWritten) →
    (∃ d, i = .wrCtlbase d) ∨ ∃ rs, i = .init rs := by simp
  csr : OwnedCsr i s.csr t.csr

/-- Every effect of a packet's request is on what the request writes. -/
theorem Effect.owned (h : Effect i s t) (hwf : i.wellFormed = true) : Owned i s t := by
  cases h with
  | history => exact { csr := .refl _ _ }
  | draw => exact { csr := .refl _ _ }
  | clock hi => exact { sys := fun _ => hi, csr := .refl _ _ }
  | list rs hi => exact { cfg := fun _ => ⟨rs, hi⟩, csr := .refl _ _ }
  | base b hi => exact { base := fun _ => hi hwf, csr := {} }
  | registers c _ hb hw hc => exact { base := fun h => absurd (congrArg₂ Prod.mk hb hw) h, csr := hc hwf }
  | store => exact { csr := .refl _ _ }

theorem Effects.owned (h : Effects i s t) (hwf : i.wellFormed = true) : Owned i s t := by
  induction h with
  | refl => exact { csr := .refl _ _ }
  | tail _ he ih =>
    have h' := he.owned hwf
    exact ⟨changed_trans ih.cfg h'.cfg, changed_trans ih.sys h'.sys, changed_trans ih.base h'.base, ih.csr.trans h'.csr⟩

/-- Settles O56: every effect of a request is on a register that the request writes. -/
theorem eachRegisterHasItsWriters : Obligations.EachRegisterHasItsWriters := by
  unfold Obligations.EachRegisterHasItsWriters
  intro i s t hwf h
  have ho : Owned i s t := exec_next_of_effects (P := Owned i s) h
    (fun u hu => have h := hu.owned hwf; ⟨h.cfg, h.sys, h.base, h.csr⟩)
    (fun _ _ h => ⟨h.cfg, h.sys, h.base, h.csr⟩) (fun _ _ _ _ h => ⟨h.cfg, h.sys, h.base, h.csr⟩)
    { csr := .refl _ _ }
  refine ⟨ho.cfg, ho.sys, ho.csr.masten, fun hne => ho.base fun heq => ?_, ho.csr.useburst, ho.csr.reqmask, ho.csr.ena,
    ho.csr.altsel, ho.csr.prio, ho.csr.err, ho.csr.chasgn, ho.csr.chmap⟩
  obtain ⟨hb, hw⟩ := Prod.mk.inj heq
  exact hne.elim (absurd hb) (absurd hw)

end Inv

end Sys2Proof.Machine

/-! SUPPORT. The table manager (spec 40_table_manager.md): the scan of LOCATE and its closed form, the buffers on which
LOCATE cannot fail, and one word of one entry read and stored. -/

namespace Sys2Proof.Machine

/-! ### The scan and the closed form -/

/-- R78: a multiple of the alignment is its own next multiple. -/
theorem alignDistance_of_mod_zero {x a : Nat} (ha : 0 < a) (h : x % a = 0) : alignDistance x a = 0 := by
  have := add_alignDistance_le ha (Nat.le_refl x) h
  omega

/-- R78: from an address that is no multiple the distance is one more than from the next. -/
theorem alignDistance_succ {x a : Nat} (ha : 0 < a) (h : x % a ≠ 0) :
    alignDistance x a = alignDistance (x + 1) a + 1 := by
  have hfirst : x + alignDistance x a = x + 1 + alignDistance (x + 1) a :=
    add_alignDistance_eq ha (by omega) (add_alignDistance_mod ha) fun y hxy hy hmod => by
      rcases Nat.eq_or_lt_of_le hxy with rfl | hlt
      · exact h hmod
      · have := add_alignDistance_le ha (show x + 1 ≤ y from hlt) hmod
        omega
  omega

/-- R77, R78: the scan stops at the next multiple, or after its `n` bytes. -/
theorem scanFrom_eq {a : Nat} (ha : 0 < a) (n x : Nat) : scanFrom a n x = x + min n (alignDistance x a) := by
  induction n generalizing x with
  | zero => simp [scanFrom]
  | succ n ih =>
    rw [scanFrom]
    split
    next h => rw [alignDistance_of_mod_zero ha h]; simp
    next h =>
      rw [ih, alignDistance_succ ha h]
      omega

/-- Settles O13: the scan ends at the closed form's address, or at the buffer's end where that address is past it. -/
theorem scanEqualsClosedForm : Obligations.ScanEqualsClosedForm := by
  unfold Obligations.ScanEqualsClosedForm
  intro b n a t
  rw [locateByScan, locate]
  split
  next => rfl
  next ha =>
    have hscan := scanFrom_eq (Nat.pos_of_ne_zero ha) n b
    split
    next => rfl
    next =>
      by_cases hd : n ≤ alignDistance b a
      · rw [if_pos hd]
        exact if_pos (by omega)
      · have hstop : scanFrom a n b = b + alignDistance b a := by omega
        have hend : b + n < b + alignDistance b a + t ↔ n < alignDistance b a + t := by omega
        simp only [hstop, hend, if_neg hd]
        exact if_neg (by omega)

/-! ### Buffers that are big enough -/

/-- R78: the next multiple is less than the alignment away. -/
theorem alignDistance_lt {b a : Nat} (ha : 0 < a) : alignDistance b a < a := Nat.mod_lt _ ha

/-- R79: a buffer of `t + a - 1` bytes holds a table of `t` bytes at a multiple of `a`. -/
theorem locate_bigEnough {b n a t : Nat} (ha : 1 ≤ a) (ht : 1 ≤ t) (hn : t + a - 1 ≤ n)
    (hlim : b + n ≤ Config.addrLimit) : locate b n a t = .ok (b + alignDistance b a) := by
  have hd := alignDistance_lt (b := b) ha
  rw [locate, if_neg (by omega), if_neg (by omega), if_neg (by omega), if_neg (by omega)]

/-- Settles O14: the distance to the next multiple is less than the alignment, so the table after it fits. -/
theorem locateNeverFailsOnABigEnoughBuffer : Obligations.LocateNeverFailsOnABigEnoughBuffer := by
  unfold Obligations.LocateNeverFailsOnABigEnoughBuffer
  intro b n a t s hs ha ht hn hlim
  have hd := alignDistance_lt (b := b.toNat) ha
  have hmod := add_alignDistance_mod (b := b.toNat) ha
  have hv : (BitVec.ofNat 32 (b.toNat + alignDistance b.toNat a.toNat)).toNat =
      b.toNat + alignDistance b.toNat a.toNat := by
    rw [BitVec.toNat_ofNat]
    exact Nat.mod_eq_of_lt (by omega)
  refine ⟨_, exec_locate_ok hs (locate_bigEnough ha ht hn hlim), ?_⟩
  rw [hv]
  exact ⟨hmod, by omega, by omega, by omega⟩

/-! ### One word of one entry -/

/-- R81: TBLRD checks the channel, the clock and the table base, then reads. -/
theorem tblrd_channelRequest (ch : BitVec 8) (h : Half) (w : EntryWord) :
    ChannelRequest (.tblrd ch h w) ch fun op s => clocked op s fun s => tabled op s fun s =>
      memRead (entaddr s ch h w) s := fun _ _ => rfl

/-- R82: TBLWR checks the channel, the clock and the table base, then writes. -/
theorem tblwr_channelRequest (ch : BitVec 8) (h : Half) (w : EntryWord) (d : Word) :
    ChannelRequest (.tblwr ch h w d) ch fun op s => clocked op s fun s => tabled op s fun s =>
      (memWrite (entaddr s ch h w) d s).bind fun _ s => .done 0 s := fun _ _ => rfl

/-- R69, R75: the packet of TBLRD and TBLWR. -/
theorem packet_halfWord (o : Opcode) (ch : BitVec 8) (h : Half) (w : EntryWord) (args : List Word) :
    (⟨opWordOf o ch (0#7 ++ h.code ++ 0#6 ++ w.code), args⟩ : Packet) =
      ⟨o.matchWord ||| ch.setWidth 32 <<< 16 ||| h.code.setWidth 32 <<< 8 ||| w.code.setWidth 32, args⟩ := by
  rw [opWordOf_eq (setWidth_halfWord h w), ← BitVec.or_assoc]

section EntryAccess
variable {ch : BitVec 8} {h : Half} {w : EntryWord} {d : Word} {s : State}

/-- R81: a TBLRD that memory accepts answers the word. -/
theorem exec_tblrd (hs : TableReady s) (hc : ch.toNat < 32) (hok : memOk s (entaddr s ch h w) = true) :
    exec (.tblrd ch h w) s =
      .next (completed (.tblrd ch h w) (readWord s.mem (entaddr s ch h w))
        [.memR (entaddr s ch h w) (readWord s.mem (entaddr s ch h w))] s) := by
  have ⟨⟨hacc, _⟩, _, hbase, _⟩ := hs
  have ⟨h4, hl, _⟩ := entaddr_bounds hbase hc h w
  exact exec_completed (c := s.csr) (y := s.sys) (m := s.mem) hacc
    (((tblrd_channelRequest ch h w).bodyOf_tableReady hs hc _).trans (memRead_done h4 hl hok))

/-- R81, R127: a TBLRD that memory refuses. -/
theorem exec_tblrd_refused (hs : TableReady s) (hc : ch.toNat < 32) (hok : memOk s (entaddr s ch h w) = false) :
    exec (.tblrd ch h w) s = .next (trapped (.tblrd ch h w) 16#8 (BitVec.ofNat 32 (entaddr s ch h w)) [] s) := by
  have ⟨⟨hacc, _⟩, _, hbase, _⟩ := hs
  have ⟨h4, hl, _⟩ := entaddr_bounds hbase hc h w
  exact exec_trapped .memFault hacc rfl
    (((tblrd_channelRequest ch h w).bodyOf_tableReady hs hc _).trans (memRead_raised h4 hl hok))

/-- R82: a TBLWR that memory accepts stores the word. -/
theorem exec_tblwr (hs : TableReady s) (hc : ch.toNat < 32) (hok : memOk s (entaddr s ch h w) = true) :
    exec (.tblwr ch h w d) s =
      .next { completed (.tblwr ch h w d) 0#32 [.memW (entaddr s ch h w) d] s with
        mem := writeWord s.mem (entaddr s ch h w) d } := by
  have ⟨⟨hacc, _⟩, _, hbase, _⟩ := hs
  have ⟨h4, hl, _⟩ := entaddr_bounds hbase hc h w
  refine exec_completed (c := s.csr) (y := s.sys) hacc ?_
  rw [(tblwr_channelRequest ch h w d).bodyOf_tableReady hs hc, entaddr_emit,
    memWrite_done (s := started _ s) h4 hl hok]
  rfl

/-- R82, R127: a TBLWR that memory refuses. -/
theorem exec_tblwr_refused (hs : TableReady s) (hc : ch.toNat < 32) (hok : memOk s (entaddr s ch h w) = false) :
    exec (.tblwr ch h w d) s =
      .next (trapped (.tblwr ch h w d) 16#8 (BitVec.ofNat 32 (entaddr s ch h w)) [] s) := by
  have ⟨⟨hacc, _⟩, _, hbase, _⟩ := hs
  have ⟨h4, hl, _⟩ := entaddr_bounds hbase hc h w
  refine exec_trapped .memFault hacc rfl ?_
  rw [(tblwr_channelRequest ch h w d).bodyOf_tableReady hs hc, entaddr_emit,
    memWrite_raised (s := started _ s) h4 hl hok, bind_raised]

end EntryAccess

/-- Settles O16: the checks decide in their order, then the read of the entry word. -/
theorem tblrdReadsOneEntryWord : Obligations.TblrdReadsOneEntryWord := by
  unfold Obligations.TblrdReadsOneEntryWord
  intro ch h w s hs
  have hreq := tblrd_channelRequest ch h w
  exact ⟨packet_halfWord .tblrd ch h w [], hreq.exec_channelRange hs, hreq.exec_clockGated hs, hreq.exec_noTable hs,
    fun hc hready => exec_tblrd_refused hready hc, fun hc hready => exec_tblrd hready hc⟩

/-- Settles O17: the checks decide in their order, then the write of the entry word. -/
theorem tblwrStoresOneEntryWord : Obligations.TblwrStoresOneEntryWord := by
  unfold Obligations.TblwrStoresOneEntryWord
  intro ch h w d s hs
  have hreq := tblwr_channelRequest ch h w d
  exact ⟨packet_halfWord .tblwr ch h w [d], hreq.exec_channelRange hs, hreq.exec_clockGated hs, hreq.exec_noTable hs,
    fun hc hready => exec_tblwr_refused hready hc,
    fun hc hready hok => ⟨_, exec_tblwr hready hc hok, wordStored_entry hready hc rfl d⟩⟩

/-- R46, R47: an entry word after another, or the same, was stored. -/
theorem readWord_after_store {s : State} {ch ch' : BitVec 8} {h h' : Half} {w w' : EntryWord} (hs : TableReady s)
    (hc : ch.toNat < 32) (hc' : ch'.toNat < 32) (d : Word) :
    readWord (writeWord s.mem (entaddr s ch h w) d) (entaddr s ch' h' w') =
      if (ch', h', w') = (ch, h, w) then d else readWord s.mem (entaddr s ch' h' w') := by
  split
  next heq =>
    cases heq
    exact (wordStored_entry hs hc rfl d).1
  next hne => exact readWord_writeWord_disjoint (entryAddr_disjoint hc' hc hne)

/-- Settles O18: the store leaves the block ready, and the read answers the word of the new memory. -/
theorem tblrdAnswersWhatTblwrStored : Obligations.TblrdAnswersWhatTblwrStored := by
  unfold Obligations.TblrdAnswersWhatTblwrStored
  intro ch ch' h h' w w' d s t hc hc' hs hok hok' hexec
  rw [exec_tblwr hs hc hok, Host.Outcome.next.injEq] at hexec
  subst hexec
  obtain ⟨hclocked, hw, hbase, hmem⟩ := hs
  refine ⟨_, exec_tblrd ⟨hclocked, hw, hbase, writeWord_wf hmem (entaddr_bounds hbase hc h w).2.2⟩ hc' hok', ?_⟩
  rw [completed_hist, historyAfter, List.getLast?_concat]
  exact congrArg (fun v => some (Event.resp _ _ v)) (readWord_after_store ⟨hclocked, hw, hbase, hmem⟩ hc hc' d)

end Sys2Proof.Machine

/-! SUPPORT. Requests with the clock off (spec 60_exceptions.md R123, R126), the ten fields of the control word
(30_encoding.md R58), and what a request for one channel leaves to the others (41_channel_setters.md R83). -/

namespace Sys2Proof.Machine

/-! ### Requests with the clock off -/

/-- R123, R126: the faults of bad operands, which come before ClockGated. -/
def operandFaults : List FaultName :=
  [.badOffset, .accessViolation, .channelRange, .mapRange, .badOperand, .zeroCount, .countRange]

/-- R123, R126: the piece only raises, ClockGated with the OP word or a fault of its operands. -/
def Result.Gated {α : Type} (op : Word) (s : State) (r : Result α) : Prop :=
  ∃ f info, r = .raised f info s ∧ ((f = .clockGated ∧ info = op) ∨ f ∈ operandFaults)

section Gated
variable {α : Type} {op : Word} {s : State} {k : State → Result α} {ch : BitVec 8}

theorem gated_operand {f : FaultName} {info : Word} (h : f ∈ operandFaults) :
    (Result.raised f info s : Result α).Gated op s := ⟨f, info, rfl, .inr h⟩

theorem gated_clocked (hclk : s.sys.clkEn = false) : (clocked op s k).Gated op s :=
  ⟨_, _, clocked_raise hclk, .inl ⟨rfl, rfl⟩⟩

theorem gated_inRange (h : (k s).Gated op s) : (inRange ch s k).Gated op s := by
  rw [inRange]; split
  · exact gated_operand (by decide)
  · exact h

theorem gated_inMapRange (h : (k s).Gated op s) : (inMapRange ch s k).Gated op s := by
  rw [inMapRange]; split
  · exact gated_operand (by decide)
  · exact h

theorem gated_sizeLegal {z : ItemSize} (h : (k s).Gated op s) : (sizeLegal z s k).Gated op s := by
  rw [sizeLegal]; split
  · exact gated_operand (by decide)
  · exact h

theorem gated_countLegal {n : BitVec 16} (h : (k s).Gated op s) : (countLegal op n s k).Gated op s := by
  rw [countLegal]; split
  · exact gated_operand (by decide)
  · split
    · exact gated_operand (by decide)
    · exact h

end Gated

/-- R96: with the clock off the read of a readable register is gated. -/
theorem readReg_clockGated {r : Reg} {op : Word} {s : State} (hclk : s.sys.clkEn = false) (hr : r ≠ .swreq) :
    readReg r op s = .raised .clockGated op s := by
  cases r <;> simp only [readReg]
  case swreq => exact absurd rfl hr
  all_goals exact clocked_raise hclk

/-- R97: the registers whose write is never refused for its data. -/
abbrev TakesAnyData (r : Reg) : Prop := r ≠ .stat ∧ r ≠ .altbase ∧ r ≠ .waitstat ∧ r ≠ .cfg

/-- R97: with the clock off the write of a register that takes any data is gated. -/
theorem writeReg_clockGated {r : Reg} {d op : Word} {s : State} (hclk : s.sys.clkEn = false) (hr : TakesAnyData r) :
    writeReg r d op s = .raised .clockGated op s := by
  obtain ⟨hstat, haltbase, hwaitstat, hcfg⟩ := hr
  cases r <;> simp only [writeReg]
  case stat => exact absurd rfl hstat
  case altbase => exact absurd rfl haltbase
  case waitstat => exact absurd rfl hwaitstat
  case cfg => exact absurd rfl hcfg
  all_goals exact clocked_raise hclk

theorem gated_readReg {r : Reg} {op : Word} {s : State} (hclk : s.sys.clkEn = false) : (readReg r op s).Gated op s := by
  by_cases hr : r = .swreq
  · subst hr; exact gated_operand (by decide)
  · exact ⟨_, _, readReg_clockGated hclk hr, .inl ⟨rfl, rfl⟩⟩

theorem gated_writeReg {r : Reg} {d op : Word} {s : State} (hclk : s.sys.clkEn = false) :
    (writeReg r d op s).Gated op s := by
  by_cases hr : TakesAnyData r
  · exact ⟨_, _, writeReg_clockGated hclk hr, .inl ⟨rfl, rfl⟩⟩
  · have hcases : r = .stat ∨ r = .altbase ∨ r = .waitstat ∨ r = .cfg := by
      revert hr; cases r <;> simp [TakesAnyData]
    rcases hcases with rfl | rfl | rfl | rfl
    · exact gated_operand (by decide)
    · exact gated_operand (by decide)
    · exact gated_operand (by decide)
    · simp only [writeReg, writeCfg]
      split
      · exact gated_operand (by decide)
      · exact gated_clocked hclk

/-- R123: with the clock off every body but those of LOCATE, TBLCHK, CLKON and INIT only raises. -/
theorem gated_bodyOf {i : Instr} {op : Word} {s : State} (hclk : s.sys.clkEn = false)
    (hlocate : ∀ b n a t, i ≠ .locate b n a t) (htblchk : ∀ b, i ≠ .tblchk b) (hclkon : i ≠ .clkon)
    (hinit : ∀ rs, i ≠ .init rs) : (bodyOf i op s).Gated op s := by
  induction i using Instr.rowCases with
  | locate b n a t => exact absurd rfl (hlocate b n a t)
  | tblchk b => exact absurd rfl (htblchk b)
  | clkon => exact absurd rfl hclkon
  | init rs => exact absurd rfl (hinit rs)
  | tblrd => simp only [bodyOf]; exact gated_inRange (gated_clocked hclk)
  | tblwr => simp only [bodyOf]; exact gated_inRange (gated_clocked hclk)
  | setmap => simp only [bodyOf]; exact gated_inRange (gated_inMapRange (gated_clocked hclk))
  | setprio => simp only [bodyOf]; exact gated_inRange (gated_clocked hclk)
  | setmode => simp only [bodyOf]; exact gated_inRange (gated_clocked hclk)
  | setgran => simp only [bodyOf]; exact gated_inRange (gated_clocked hclk)
  | setarb => simp only [bodyOf]; exact gated_inRange (gated_clocked hclk)
  | unmask => simp only [bodyOf]; exact gated_inRange (gated_clocked hclk)
  | cfgsrc => simp only [bodyOf]; exact gated_inRange (gated_sizeLegal (gated_clocked hclk))
  | cfgdst => simp only [bodyOf]; exact gated_inRange (gated_sizeLegal (gated_clocked hclk))
  | start => simp only [bodyOf]; exact gated_inRange (gated_countLegal (gated_clocked hclk))
  | read r => rw [bodyOf_ofRead]; exact gated_readReg hclk
  | write d r => rw [bodyOf_ofWrite]; exact gated_writeReg hclk
  | rd off =>
    simp only [bodyOf, readOffset]
    split
    · exact gated_operand (by decide)
    · exact gated_readReg hclk
  | wr off d =>
    simp only [bodyOf, writeOffset]
    split
    · exact gated_operand (by decide)
    · exact gated_writeReg hclk

/-- R121: the codes of the operand faults. -/
theorem code_operandFaults {f : FaultName} (h : f ∈ operandFaults) :
    f.code ∈ [2#8, 3#8, 4#8, 5#8, 6#8, 7#8, 8#8] := by
  revert h; cases f <;> decide

/-- Settles O11: with the clock off a body only raises (`gated_bodyOf`), and a register that has no bad operand raises
ClockGated. -/
theorem clockOffRequestsOnlyFault : Obligations.ClockOffRequestsOnlyFault := by
  unfold Obligations.ClockOffRequestsOnlyFault
  refine ⟨fun i s hs hclk hlocate htblchk hclkon hinit => ?_, fun d s hs hclk => ⟨fun i hi => ?read, fun i hi => ?write,
    fun hd => ?cfg⟩⟩
  · obtain ⟨f, info, hb, hf⟩ := gated_bodyOf (i := i) (s := started i s) (op := (packetOf i).op) hclk hlocate htblchk
      hclkon hinit
    refine ⟨f.code, info, exec_trapped f hs rfl hb, hf.imp ?_ code_operandFaults⟩
    rintro ⟨rfl, rfl⟩
    exact ⟨rfl, rfl⟩
  case read =>
    obtain ⟨r, hr, rfl⟩ := List.mem_map.mp (show i ∈ [Reg.stat, .cfg, .ctlbase, .altbase, .waitstat, .useburstset,
      .useburstclr, .reqmaskset, .reqmaskclr, .enaset, .enaclr, .altset, .altclr, .prioset, .prioclr, .errclr, .chasgn,
      .chmap0, .chmap1, .chmap2, .chmap3].map Instr.ofRead from hi)
    have hne : r ≠ .swreq := by rintro rfl; revert hr; decide
    exact exec_trapped .clockGated hs rfl (by rw [bodyOf_ofRead, readReg_clockGated (s := started _ s) hclk hne])
  case write =>
    obtain ⟨r, hr, rfl⟩ := List.mem_map.mp (show i ∈ [Reg.ctlbase, .swreq, .useburstset, .useburstclr, .reqmaskset,
      .reqmaskclr, .enaset, .enaclr, .altset, .altclr, .prioset, .prioclr, .errclr, .chasgn, .chmap0, .chmap1, .chmap2,
      .chmap3].map (Instr.ofWrite d) from hi)
    have hany : TakesAnyData r := by refine ⟨?_, ?_, ?_, ?_⟩ <;> rintro rfl <;> revert hr <;> decide
    exact exec_trapped .clockGated hs rfl (by rw [bodyOf_ofWrite, writeReg_clockGated (s := started _ s) hclk hany])
  case cfg =>
    exact exec_trapped .clockGated hs rfl ((writeReg_cfg_stored hd _ _).trans (clocked_raise hclk))

/-! ### The ten fields of the control word -/

/-- Two zero-extended fields, the upper one shifted past the lower one, are the two put together. -/
theorem setWidth_or_shiftLeft {k n : Nat} (lo : BitVec k) (hi : BitVec n) (h : n + k ≤ 32) :
    (lo.setWidth 32 ||| hi.setWidth 32 <<< k : Word) = (hi ++ lo).setWidth 32 := by
  apply BitVec.eq_of_getLsbD_eq
  intro j hj
  simp only [BitVec.getLsbD_or, BitVec.getLsbD_setWidth, BitVec.getLsbD_shiftLeft, BitVec.getLsbD_append, hj,
    decide_true, Bool.true_and]
  by_cases hjk : j < k
  · simp [hjk]
  · have hsub : j - k < 32 := by omega
    simp [hjk, hsub, BitVec.getLsbD_of_ge lo j (by omega)]

/-- R58: the ten fields, from bit 31 down. -/
theorem packcw_eq_append (mode : BitVec 3) (nub : BitVec 1) (size : BitVec 10) (arb : BitVec 4) (sprot dprot : BitVec 3)
    (ssize sinc dsize dinc : BitVec 2) :
    packcw mode nub size arb sprot dprot ssize sinc dsize dinc =
      dinc ++ (dsize ++ (sinc ++ (ssize ++ (dprot ++ (sprot ++ (arb ++ (size ++ (nub ++ mode)))))))) := by
  simp only [packcw]
  rw [setWidth_or_shiftLeft mode nub (by decide), setWidth_or_shiftLeft (nub ++ mode) size (by decide),
    setWidth_or_shiftLeft (size ++ (nub ++ mode)) arb (by decide),
    setWidth_or_shiftLeft (arb ++ (size ++ (nub ++ mode))) sprot (by decide),
    setWidth_or_shiftLeft (sprot ++ (arb ++ (size ++ (nub ++ mode)))) dprot (by decide),
    setWidth_or_shiftLeft (dprot ++ (sprot ++ (arb ++ (size ++ (nub ++ mode))))) ssize (by decide),
    setWidth_or_shiftLeft (ssize ++ (dprot ++ (sprot ++ (arb ++ (size ++ (nub ++ mode)))))) sinc (by decide),
    setWidth_or_shiftLeft (sinc ++ (ssize ++ (dprot ++ (sprot ++ (arb ++ (size ++ (nub ++ mode))))))) dsize (by decide),
    setWidth_or_shiftLeft (dsize ++ (sinc ++ (ssize ++ (dprot ++ (sprot ++ (arb ++ (size ++ (nub ++ mode))))))))
      dinc (by decide)]
  exact BitVec.setWidth_eq _

/-- R58: a field read from a word is the word's bits at the field's place. -/
theorem getField_eq {fld : CwField} {lo n : Nat} (h : fld.covers lo n = true) (hs : fld.shift = lo) (w : Word) :
    getField fld w = (w.extractLsb' lo n).setWidth 32 := by
  apply BitVec.eq_of_getLsbD_eq
  intro j hj
  simp only [getField, hs, BitVec.getLsbD_ushiftRight, BitVec.getLsbD_and, BitVec.getLsbD_setWidth,
    BitVec.getLsbD_extractLsb', hj, decide_true, Bool.true_and]
  by_cases hlt : lo + j < 32
  · rw [covers_getLsbD h hlt]
    simp [Bool.and_comm]
  · simp [BitVec.getLsbD_of_ge w (lo + j) (by omega)]

theorem cwNub_covers : cwNub.covers 3 1 = true := by decide
theorem cwSprot_covers : cwSprot.covers 18 3 = true := by decide
theorem cwDprot_covers : cwDprot.covers 21 3 = true := by decide
theorem cwSsize_covers : cwSsize.covers 24 2 = true := by decide
theorem cwSinc_covers : cwSinc.covers 26 2 = true := by decide
theorem cwDsize_covers : cwDsize.covers 28 2 = true := by decide
theorem cwDinc_covers : cwDinc.covers 30 2 = true := by decide

/-- Settles O58: the ten fields put together are an append, whose parts read back one by one. -/
theorem controlWordPacksTenFields : Obligations.ControlWordPacksTenFields := by
  unfold Obligations.ControlWordPacksTenFields
  refine ⟨?fields, fun w => ?word⟩
  case fields =>
    rintro mode nub size arb sprot dprot ssize sinc dsize dinc w rfl
    rw [packcw_eq_append, getField_eq cwMode_covers rfl, getField_eq cwNub_covers rfl, getField_eq cwSize_covers rfl,
      getField_eq cwArb_covers rfl, getField_eq cwSprot_covers rfl, getField_eq cwDprot_covers rfl,
      getField_eq cwSsize_covers rfl, getField_eq cwSinc_covers rfl, getField_eq cwDsize_covers rfl,
      getField_eq cwDinc_covers rfl]
    refine ⟨?lowest, ?_, ?_, ?_, ?_, ?_, ?_, ?_, ?_, ?_⟩ <;> apply congrArg
    all_goals repeat rw [BitVec.extractLsb'_append_eq_of_add_le (by decide)]
    case lowest => exact BitVec.extractLsb'_eq_self
    all_goals exact BitVec.extractLsb'_append_eq_left
  case word =>
    rw [packcw_eq_append]
    repeat rw [BitVec.extractLsb'_append_extractLsb'_eq_extractLsb' (by decide)]
    exact BitVec.extractLsb'_eq_self

end Sys2Proof.Machine

/-! SUPPORT. What a request for one channel leaves to every other one (spec 41_channel_setters.md R83,
42_transfer_ops.md R92 to R94): bits, mapping field and entries. -/

namespace Sys2Proof.Machine

/-! ### Mapping fields -/

/-- R66: the 8-bit field of a channel that can be mapped, after an encoding was ORed into the field of one. -/
theorem mappingField_orMapping {ch j : BitVec 8} (hc : ch.toNat < 16) (hj : j.toNat < 16) (c : Csr) (enc : BitVec 8) :
    mappingField (orMapping c ch enc) j =
      if j = ch then mappingField c j ||| enc else mappingField c j := by
  have hindex : (mapIndex j).val = j.toNat / 4 := (eq_mapIndex_iff hj _).mp rfl
  rw [mappingField, chmap_orMapping hc, hindex]
  by_cases hsame : j.toNat / 4 = ch.toNat / 4
  · rw [if_pos hsame, BitVec.extractLsb'_or]
    split
    next heq =>
      subst heq
      rw [mappingField]
      congr 1
      apply BitVec.eq_of_getLsbD_eq
      intro k hk
      have h32 : 8 * (j.toNat % 4) + k < 32 := by omega
      simp [mapShift, hk, h32]
    next hne =>
      have hnat : j.toNat ≠ ch.toNat := fun h => hne (BitVec.toNat_inj.mp h)
      have hzero : (enc.setWidth 32 <<< (8 * (ch.toNat % 4)) : Word).extractLsb' (mapShift j) 8 = 0#8 := by
        apply BitVec.eq_of_getLsbD_eq
        intro k hk
        simp only [mapShift, BitVec.getLsbD_extractLsb', BitVec.getLsbD_shiftLeft, BitVec.getLsbD_setWidth,
          BitVec.getLsbD_zero]
        by_cases hlow : 8 * (j.toNat % 4) + k < 8 * (ch.toNat % 4)
        · simp [hlow]
        · have henc : enc.getLsbD (8 * (j.toNat % 4) + k - 8 * (ch.toNat % 4)) = false :=
            BitVec.getLsbD_of_ge _ _ (by omega)
          simp [henc]
      rw [hzero, BitVec.or_zero, mappingField]
  · have hne : j ≠ ch := fun h => hsame (by rw [h])
    rw [if_neg hsame, if_neg hne, mappingField]

/-! ### The other channels -/

/-- R83: from `s` to `t` the bits, the mapping field and the entries of channel `j` are kept, and so is the base that
the entries are found from. -/
structure ChannelKept (j : BitVec 8) (s t : State) : Prop where
  base : t.csr.ctlbase = s.csr.ctlbase := by rfl
  prio : t.csr.prio.getLsbD j.toNat = s.csr.prio.getLsbD j.toNat := by rfl
  altsel : t.csr.altsel.getLsbD j.toNat = s.csr.altsel.getLsbD j.toNat := by rfl
  useburst : t.csr.useburst.getLsbD j.toNat = s.csr.useburst.getLsbD j.toNat := by rfl
  reqmask : t.csr.reqmask.getLsbD j.toNat = s.csr.reqmask.getLsbD j.toNat := by rfl
  ena : t.csr.ena.getLsbD j.toNat = s.csr.ena.getLsbD j.toNat := by rfl
  mapping : j.toNat < 16 → mappingField t.csr j = mappingField s.csr j := by intros; rfl
  entries : ∀ (h : Half) (w : EntryWord), readWord t.mem (entaddr s j h w) = readWord s.mem (entaddr s j h w) := by
    intros; rfl

theorem ChannelKept.refl (j : BitVec 8) (s : State) : ChannelKept j s s := {}

theorem ChannelKept.trans {j : BitVec 8} {s t u : State} (h : ChannelKept j s t) (h' : ChannelKept j t u) :
    ChannelKept j s u where
  base := h'.base.trans h.base
  prio := h'.prio.trans h.prio
  altsel := h'.altsel.trans h.altsel
  useburst := h'.useburst.trans h.useburst
  reqmask := h'.reqmask.trans h.reqmask
  ena := h'.ena.trans h.ena
  mapping := fun hj => (h'.mapping hj).trans (h.mapping hj)
  entries := fun k w => by
    have hentry := h'.entries k w
    rw [entaddr_congr h.base] at hentry
    exact hentry.trans (h.entries k w)

section OtherChannel
variable {ch j : BitVec 8} {s : State}

/-- R83: another channel's bit is not the channel's. -/
theorem toNat_ne (hne : j ≠ ch) : j.toNat ≠ ch.toNat := fun h => hne (BitVec.toNat_inj.mp h)

/-- R47: a store in an entry of a channel is in no entry of another. -/
theorem channelKept_store (hc : ch.toNat < 32) (hj : j.toNat < 32) (hne : j ≠ ch) (h : Half) (w : EntryWord) (v : Word)
    (evs : List Event) :
    ChannelKept j s { s with mem := writeWord s.mem (entaddr s ch h w) v, hist := evs } where
  entries := fun _ _ => readWord_writeWord_disjoint (entryAddr_disjoint hj hc fun heq => hne (Prod.mk.inj heq).1)

/-- R66, R85: the encoding of a channel goes into no other channel's mapping field. -/
theorem setmapBody_channelKept (hc : ch.toNat < 16) (hne : j ≠ ch) (enc : BitVec 8) :
    ChannelKept j s (setmapBody ch enc s) where
  base := by simp
  prio := by simp
  altsel := by simp
  useburst := by simp
  reqmask := by simp
  ena := by simp
  mapping := fun hj => by rw [setmapBody_csr, mappingField_orMapping hc hj, if_neg hne]

theorem memWrite_channelKept (hc : ch.toNat < 32) (hj : j.toNat < 32) (hne : j ≠ ch) (h : Half) (w : EntryWord)
    (v : Word) : (memWrite (entaddr s ch h w) v s).Forall (ChannelKept j s) :=
  memWrite_forall (.refl j s) fun _ _ => channelKept_store hc hj hne h w v _

theorem rmwControl_channelKept (hc : ch.toNat < 32) (hj : j.toNat < 32) (hne : j ≠ ch) (fld : CwField) (v : Word) :
    (rmwControl ch fld v s).Forall (ChannelKept j s) :=
  rmw_forall (.refl j s) fun _ _ => channelKept_store hc hj hne _ _ _ _

theorem setmodeBody_channelKept (hc : ch.toNat < 32) (hj : j.toNat < 32) (hne : j ≠ ch) (m : TransferMode) :
    (setmodeBody ch m s).Forall (ChannelKept j s) :=
  (rmwControl_channelKept hc hj hne _ _).bind (fun _ h => h) fun _ _ h =>
    h.trans { altsel := getLsbD_putBit_ne (toNat_ne hne) }

theorem startBody_channelKept (hc : ch.toNat < 32) (hj : j.toNat < 32) (hne : j ≠ ch) (n : BitVec 16) :
    (startBody ch n s).Forall (ChannelKept j s) := by
  have harm (t : State) : ChannelKept j t (armBody ch t) :=
    { ena := getLsbD_putBit_ne (b := true) (toNat_ne hne) }
  rw [startBody]
  split
  next r _ =>
    refine Result.Forall.bind (P := ChannelKept j s) ?_ (fun _ h => h) fun _ t h => h.trans (harm t)
    exact (setmodeBody_channelKept hc hj hne _).bind (fun _ h => h) fun _ t h =>
      (rmwControl_channelKept hc hj hne _ _).mono fun _ h' => h.trans h'
  next => exact harm s

theorem endpointBody_channelKept (hc : ch.toNat < 32) (hj : j.toNat < 32) (hne : j ≠ ch) (w : EntryWord) (fld : CwField)
    (inc : Increment) (z : ItemSize) (e : Word) : (endpointBody ch w fld inc z e s).Forall (ChannelKept j s) :=
  (memWrite_channelKept hc hj hne _ _ _).bind (fun _ h => h) fun _ _ h =>
    ((rmwControl_channelKept hc hj hne _ _).mono fun _ h' => h.trans h').bind (fun _ h => h) fun _ _ h => h

end OtherChannel

/-- R83: what the requests for one channel are, of those that a configuration is made of. -/
def ForChannel (ch : BitVec 8) (i : Instr) : Prop :=
  (∃ enc, i = .setmap ch enc) ∨ (∃ tier, i = .setprio ch tier) ∨ (∃ mode, i = .setmode ch mode) ∨
    (∃ gran, i = .setgran ch gran) ∨ (∃ arb, i = .setarb ch arb) ∨ i = .unmask ch ∨
    (∃ inc z e, i = .cfgsrc ch inc z e) ∨ (∃ inc z e, i = .cfgdst ch inc z e) ∨ (∃ n, i = .start ch n)

/-- R83: the body of a request for one channel keeps every other. -/
theorem bodyOf_channelKept {ch j : BitVec 8} {i : Instr} {op : Word} {s : State} (hj : j.toNat < 32) (hne : j ≠ ch)
    (hi : ForChannel ch i) : (bodyOf i op s).Forall (ChannelKept j s) := by
  have hs := ChannelKept.refl j s
  have hbit {v : Word} {b : Bool} : (putBit v ch b).getLsbD j.toNat = v.getLsbD j.toNat :=
    getLsbD_putBit_ne (toNat_ne hne)
  rcases hi with ⟨enc, rfl⟩ | ⟨tier, rfl⟩ | ⟨mode, rfl⟩ | ⟨gran, rfl⟩ | ⟨arb, rfl⟩ | rfl | ⟨inc, z, e, rfl⟩ |
    ⟨inc, z, e, rfl⟩ | ⟨n, rfl⟩ <;> simp only [bodyOf] <;> refine inRange_forall hs fun hc => ?_
  · exact inMapRange_forall hs fun hmap => clocked_forall hs fun _ => setmapBody_channelKept hmap hne enc
  · exact clocked_forall hs fun _ => { prio := hbit }
  · exact clocked_forall hs fun _ => tabled_forall hs fun _ =>
      (setmodeBody_channelKept hc hj hne mode).bind (fun _ h => h) fun _ _ h => h
  · exact clocked_forall hs fun _ => { useburst := hbit }
  · exact clocked_forall hs fun _ => tabled_forall hs fun _ =>
      (rmwControl_channelKept hc hj hne _ _).bind (fun _ h => h) fun _ _ h => h
  · exact clocked_forall hs fun _ => { reqmask := hbit (b := false) }
  · exact sizeLegal_forall hs fun _ => clocked_forall hs fun _ => tabled_forall hs fun _ =>
      endpointBody_channelKept hc hj hne _ _ inc z e
  · exact sizeLegal_forall hs fun _ => clocked_forall hs fun _ => tabled_forall hs fun _ =>
      endpointBody_channelKept hc hj hne _ _ inc z e
  · exact countLegal_forall hs fun _ _ => clocked_forall hs fun _ => startBody_channelKept hc hj hne n

/-- Settles O26: each body keeps the other channels, and the frame of a request touches no register and no memory. -/
theorem settersLeaveOtherChannelsAlone : Obligations.SettersLeaveOtherChannelsAlone := by
  unfold Obligations.SettersLeaveOtherChannelsAlone
  intro ch j i s t hj hne hi hexec
  have h : ChannelKept j s t := exec_next (P := ChannelKept j s) hexec
    ((bodyOf_channelKept hj hne hi).mono fun _ h => ChannelKept.trans {} h) (fun _ _ h => h.trans {})
    (fun _ _ _ _ h => h.trans {}) {}
  exact ⟨h.prio, h.altsel, h.useburst, h.reqmask, h.ena, h.mapping, h.entries⟩

end Sys2Proof.Machine

/-! SUPPORT. START (spec 42_transfer_ops.md R94): what it refuses, what it does on a channel with and without a stored
record, that a second START changes nothing more, and that a START that faults arms nothing (60_exceptions.md R127). -/

namespace Sys2Proof.Machine

/-! ### Words of memory stored again -/

/-- R40: a byte of a word. -/
theorem readByte_eq_extract (m : Memory) (a : Nat) :
    readByte m a = (readWord m a).extractLsb' 0 8 ∧ readByte m (a + 1) = (readWord m a).extractLsb' 8 8 ∧
      readByte m (a + 2) = (readWord m a).extractLsb' 16 8 ∧ readByte m (a + 3) = (readWord m a).extractLsb' 24 8 := by
  rw [readWord]
  refine ⟨?_, ?_, ?_, ?_⟩
  · exact BitVec.extractLsb'_append_eq_right.symm
  · rw [BitVec.extractLsb'_append_eq_of_le (by decide)]
    exact BitVec.extractLsb'_append_eq_right.symm
  · rw [BitVec.extractLsb'_append_eq_of_le (by decide), BitVec.extractLsb'_append_eq_of_le (by decide)]
    exact BitVec.extractLsb'_append_eq_right.symm
  · rw [BitVec.extractLsb'_append_eq_of_le (by decide), BitVec.extractLsb'_append_eq_of_le (by decide),
      BitVec.extractLsb'_append_eq_of_le (by decide)]
    exact BitVec.extractLsb'_eq_self.symm

/-- R40: where two memories hold the same word they hold the same four bytes. -/
theorem readByte_congr_of_readWord {m m' : Memory} {a b : Nat} (h : readWord m a = readWord m' a)
    (hb : ¬ (b < a ∨ a + 4 ≤ b)) : readByte m b = readByte m' b := by
  have ⟨h0, h1, h2, h3⟩ := readByte_eq_extract m a
  have ⟨h0', h1', h2', h3'⟩ := readByte_eq_extract m' a
  have hcases : b = a ∨ b = a + 1 ∨ b = a + 2 ∨ b = a + 3 := by omega
  rcases hcases with rfl | rfl | rfl | rfl
  · rw [h0, h0', h]
  · rw [h1, h1', h]
  · rw [h2, h2', h]
  · rw [h3, h3', h]

/-- Canonical memories of one power-on content are equal when one word and every byte outside it read the same. -/
theorem memory_ext_word {m m' : Memory} {a : Nat} (hp : m.powerOn = m'.powerOn) (hm : Memory.wf m = true)
    (hm' : Memory.wf m' = true) (hword : readWord m a = readWord m' a)
    (hbytes : ∀ b, b < a ∨ a + 4 ≤ b → readByte m b = readByte m' b) : m = m' := by
  refine canonical_ext hp hm hm' fun b => ?_
  by_cases hout : b < a ∨ a + 4 ≤ b
  · exact hbytes b hout
  · exact readByte_congr_of_readWord hword hout

section Stores
variable {m : Memory} {a b : Nat} {v u : Word}

/-- A word stored over another. -/
theorem writeWord_writeWord (hm : Memory.wf m = true) (ha : a + 3 < Config.addrLimit) :
    writeWord (writeWord m a u) a v = writeWord m a v := by
  have hu := writeWord_wf (v := u) hm ha
  refine memory_ext_word (a := a) rfl (writeWord_wf hu ha) (writeWord_wf hm ha) ?_ fun x hx => ?_
  · rw [readWord_writeWord_same hu ha, readWord_writeWord_same hm ha]
  · rw [readByte_writeWord_outside hx, readByte_writeWord_outside hx, readByte_writeWord_outside hx]

/-- An update of a word that changes nothing the second time. -/
theorem writeWord_update_twice {f : Word → Word} (hm : Memory.wf m = true) (ha : a + 3 < Config.addrLimit)
    (hf : ∀ w, f (f w) = f w) :
    writeWord (writeWord m a (f (readWord m a))) a (f (readWord (writeWord m a (f (readWord m a))) a)) =
      writeWord m a (f (readWord m a)) := by
  rw [readWord_writeWord_same hm ha, hf, writeWord_writeWord hm ha]

/-- Stores of two words that share no byte commute. -/
theorem writeWord_comm (hm : Memory.wf m = true) (ha : a + 3 < Config.addrLimit) (hb : b + 3 < Config.addrLimit)
    (hd : a + 4 ≤ b ∨ b + 4 ≤ a) : writeWord (writeWord m a v) b u = writeWord (writeWord m b u) a v := by
  have hma := writeWord_wf (v := v) hm ha
  have hmb := writeWord_wf (v := u) hm hb
  refine memory_ext_word (a := a) rfl (writeWord_wf hma hb) (writeWord_wf hmb ha) ?_ fun x hx => ?_
  · rw [readWord_writeWord_disjoint (by omega), readWord_writeWord_same hm ha, readWord_writeWord_same hmb ha]
  · rw [readByte_writeWord_outside (a := a) (v := v) (m := writeWord m b u) hx]
    by_cases hxb : x < b ∨ b + 4 ≤ x
    · rw [readByte_writeWord_outside hxb, readByte_writeWord_outside hxb, readByte_writeWord_outside hx]
    · refine readByte_congr_of_readWord (a := b) ?_ hxb
      rw [readWord_writeWord_same hma hb, readWord_writeWord_same hm hb]

end Stores

/-! ### The checks of START -/

/-- R94: START checks the channel, the count and the clock, then runs its body. -/
theorem start_channelRequest (ch : BitVec 8) (n : BitVec 16) :
    ChannelRequest (.start ch n) ch fun op s => countLegal op n s fun s => clocked op s fun s => startBody ch n s :=
  fun _ _ => rfl

/-- R94: with a legal count the check of it passes. -/
theorem start_channelRequest_of_count {n : BitVec 16} (ch : BitVec 8) (h1 : 1 ≤ n.toNat) (h2 : n.toNat ≤ 1024) :
    ChannelRequest (.start ch n) ch fun op s => clocked op s fun s => startBody ch n s :=
  fun op s => (start_channelRequest ch n op s).trans (congrArg (inRange ch s) (funext fun _ => countLegal_pass h1 h2))

/-- Settles O34: the checks of START one after another. -/
theorem startRejectsBadOperands : Obligations.StartRejectsBadOperands := by
  unfold Obligations.StartRejectsBadOperands
  intro ch n s hs
  have h := start_channelRequest ch n
  refine ⟨packet_opWordOf rfl, h.exec_channelRange hs, fun hc hn => ?zero, fun hc hn => ?range,
    fun hc h1 h2 => (start_channelRequest_of_count ch h1 h2).exec_clockGated hs hc⟩
  case zero => exact exec_trapped .zeroCount hs rfl ((h.bodyOf_eq hc _ _).trans (if_pos hn))
  case range =>
    have hn0 : n ≠ 0#16 := by rintro rfl; simp at hn
    exact exec_trapped .countRange hs rfl ((h.bodyOf_eq hc _ _).trans ((if_neg hn0).trans (if_pos hn)))

section Start
variable {ch : BitVec 8} {n : BitVec 16} {s : State}

/-- R94: on a clocked block START with legal operands is its body. -/
theorem bodyOf_start (hs : Clocked s) (hc : ch.toNat < 32) (h1 : 1 ≤ n.toNat) (h2 : n.toNat ≤ 1024) (op : Word) :
    bodyOf (.start ch n) op (started (.start ch n) s) = startBody ch n (started (.start ch n) s) :=
  ((start_channelRequest_of_count ch h1 h2).bodyOf_eq hc _ _).trans
    (clocked_pass (s := started (.start ch n) s) hs.2)

/-! ### The stored list -/

/-- R94: no stored record has the channel. -/
theorem findRecord_none {c : CfgStore} (h : c.valid = false ∨ ∀ r ∈ c.list, r.ch ≠ ch) : findRecord c ch = none := by
  rw [findRecord]
  split
  next hv =>
    have hall := h.resolve_left (by simp [hv])
    simpa using hall
  next => rfl

/-- R94: the first stored record of the channel. -/
theorem findRecord_first {c : CfgStore} {before after : List ConfigRecord} {r : ConfigRecord} (hv : c.valid = true)
    (hlist : c.list = before ++ r :: after) (hb : ∀ q ∈ before, q.ch ≠ ch) (hr : r.ch = ch) :
    findRecord c ch = some r := by
  have hnone : before.find? (fun r => r.ch == ch) = none := by simpa using hb
  simp [findRecord, hv, hlist, List.find?_append, hnone, hr]

/-- R94: a stored record of the channel is found, if not that one then an earlier one. -/
theorem findRecord_some {c : CfgStore} (hv : c.valid = true) (h : ∃ r ∈ c.list, r.ch = ch) :
    ∃ r, findRecord c ch = some r := by
  obtain ⟨r, hr, hch⟩ := h
  rw [findRecord, if_pos hv, ← Option.isSome_iff_exists, List.find?_isSome]
  exact ⟨r, hr, by simpa using hch⟩

/-! ### What START does -/

/-- R94, R122: START of a channel that no stored record has. -/
theorem exec_start_unlisted (hs : Clocked s) (hc : ch.toNat < 32) (h1 : 1 ≤ n.toNat) (h2 : n.toNat ≤ 1024)
    (hf : findRecord s.cfg ch = none) :
    exec (.start ch n) s =
      .next { completed (.start ch n) 0#32 [] s with
        csr := { s.csr with ena := s.csr.ena ||| (1#32 <<< ch.toNat) } } := by
  rw [← respond_started, ← respond_withCsr]
  exact exec_done hs.1 ((bodyOf_start hs hc h1 h2 _).trans (startBody_unlisted hf))

/-- R94: START of a channel whose first stored record is `r`, where memory accepts both accesses. -/
theorem exec_start_listed {r : ConfigRecord} {alt : Word} {a a' : Nat} {m : Memory} (hs : TableReady s)
    (hc : ch.toNat < 32) (h1 : 1 ≤ n.toNat) (h2 : n.toNat ≤ 1024) (hf : findRecord s.cfg ch = some r)
    (ha : a = entaddr s ch (tgt s ch) .ctl) (halt : alt = putBit s.csr.altsel ch (!primaryGroup r.mode))
    (ha' : a' = entaddr s ch (tgt { s with csr := { s.csr with altsel := alt } } ch) .ctl)
    (hm : m = writeWord s.mem a (insertField cwMode (readWord s.mem a) (r.mode.code.setWidth 32)))
    (hok : memOk s a = true) (hok' : memOk s a' = true) :
    exec (.start ch n) s =
      .next { completed (.start ch n) 0#32
          [.memR a (readWord s.mem a), .memW a (insertField cwMode (readWord s.mem a) (r.mode.code.setWidth 32)),
            .memR a' (readWord m a'), .memW a' (insertField cwSize (readWord m a') ((n - 1#16).setWidth 32))] s with
        mem := writeWord m a' (insertField cwSize (readWord m a') ((n - 1#16).setWidth 32))
        csr := { s.csr with altsel := alt, ena := s.csr.ena ||| (1#32 <<< ch.toNat) } } := by
  have ⟨hclocked, _, hbase, _⟩ := hs
  exact exec_completed (y := s.sys) hclocked.1 ((bodyOf_start hclocked hc h1 h2 _).trans
    (startBody_listed (s := started (.start ch n) s) hf hbase hc ha halt ha' hm hok hok'))

/-- R94, R127: START of a listed channel whose control word memory refuses. -/
theorem exec_start_refused {r : ConfigRecord} {a : Nat} (hs : TableReady s) (hc : ch.toNat < 32) (h1 : 1 ≤ n.toNat)
    (h2 : n.toNat ≤ 1024) (hf : findRecord s.cfg ch = some r) (ha : a = entaddr s ch (tgt s ch) .ctl)
    (hok : memOk s a = false) :
    exec (.start ch n) s = .next (trapped (.start ch n) 16#8 (BitVec.ofNat 32 a) [] s) := by
  have ⟨hclocked, _, hbase, _⟩ := hs
  exact exec_trapped .memFault hclocked.1 rfl ((bodyOf_start hclocked hc h1 h2 _).trans
    (startBody_raised (s := started (.start ch n) s) hf hbase hc ha hok))

end Start

/-- Settles O35: without a record of the channel the body is `armBody`. -/
theorem startOfAnUnlistedChannelOnlyArms : Obligations.StartOfAnUnlistedChannelOnlyArms := by
  unfold Obligations.StartOfAnUnlistedChannelOnlyArms
  exact fun _ _ _ hs hc h1 h2 h => exec_start_unlisted hs hc h1 h2 (findRecord_none h)

/-- Settles O37: the record is found, and its mode write is refused. -/
theorem startThatMemoryRefusesArmsNothing : Obligations.StartThatMemoryRefusesArmsNothing := by
  unfold Obligations.StartThatMemoryRefusesArmsNothing
  intro ch n s hs hc h1 h2 hv hr hok
  obtain ⟨r, hf⟩ := findRecord_some hv hr
  exact exec_start_refused hs hc h1 h2 hf rfl hok

/-- R59, R83: the alternate-select vector after a mode. -/
theorem putBit_primaryGroup (v : Word) (ch : BitVec 8) (m : TransferMode) :
    putBit v ch (!primaryGroup m) =
      if m = .stop ∨ m = .basic ∨ m = .auto then v &&& ~~~(1#32 <<< ch.toNat) else v ||| (1#32 <<< ch.toNat) := by
  rw [putBit_eq]
  cases m <;> rfl

/-- R94: the size field holds the count less one. -/
theorem toNat_size_field (w : Word) {n : BitVec 16} (h1 : 1 ≤ n.toNat) (h2 : n.toNat ≤ 1024) :
    ((insertField cwSize w ((n - 1#16).setWidth 32)).extractLsb' 4 10).toNat = n.toNat - 1 := by
  have hlt := n.isLt
  have hn : (n - 1#16).toNat = n.toNat - 1 := by bv_omega
  rw [extract_insertField_same cwSize_covers rfl (by omega), BitVec.extractLsb'_toNat, BitVec.toNat_setWidth, hn,
    Nat.shiftRight_zero]
  omega

/-- Settles O36: `exec_start_listed`, whose two stores differ from the words before in one field each. -/
theorem startOfAListedChannelReappliesItsMode : Obligations.StartOfAListedChannelReappliesItsMode := by
  unfold Obligations.StartOfAListedChannelReappliesItsMode
  intro ch n before after r s hs hc h1 h2 hv hlist hb hr alt a a' halt ha ha' hok hok'
  have halt' : alt = putBit s.csr.altsel ch (!primaryGroup r.mode) := by rw [putBit_primaryGroup, halt]
  have ⟨_, _, hbase, hmem⟩ := hs
  have hlim : a + 3 < Config.addrLimit := ha ▸ (entaddr_bounds hbase hc _ .ctl).2.2
  have hlim' : a' + 3 < Config.addrLimit := ha' ▸ (entaddr_bounds hbase hc _ .ctl).2.2
  refine ⟨_, _, _, _, exec_start_listed hs hc h1 h2 (findRecord_first hv hlist hb hr) ha halt' ha' rfl hok hok',
    wordStored_writeWord _ hmem hlim, wordStored_writeWord _ (writeWord_wf hmem hlim) hlim', ?mode,
    extract_insertField_other cwMode_covers (by omega) _ _, toNat_size_field _ h1 h2,
    extract_insertField_other cwSize_covers (by omega) _ _, extract_insertField_other cwSize_covers (by omega) _ _⟩
  case mode => rw [extract_insertField_same cwMode_covers rfl (by omega), BitVec.extractLsb'_setWidth_of_le (by omega),
    BitVec.extractLsb'_eq_self]

/-! ### START given twice -/

/-- R83: a bit written twice. -/
theorem putBit_putBit (v : Word) (ch : BitVec 8) (b : Bool) : putBit (putBit v ch b) ch b = putBit v ch b := by
  cases b
  · simp [putBit, clrPort, BitVec.and_assoc]
  · simp [putBit, setPort, BitVec.or_assoc]

/-- R94: what START made of a control word it makes of it again. -/
theorem insertField_mode_size_twice (w f f' : Word) :
    insertField cwSize (insertField cwMode (insertField cwSize (insertField cwMode w f) f') f) f' =
      insertField cwSize (insertField cwMode w f) f' := by
  rw [insertField_comm (fld := cwMode) (fld' := cwSize) (by decide), insertField_twice, insertField_twice]

/-- R94: a START that completes has passed its checks. -/
theorem start_operands {ch : BitVec 8} {n : BitVec 16} {s t : State} (hs : Clocked s)
    (h : exec (.start ch n) s = .next t) (ht : t.flt.code = 0#8) :
    ch.toNat < 32 ∧ 1 ≤ n.toNat ∧ n.toNat ≤ 1024 := by
  have ⟨_, hchannel, hzero, hrange, _⟩ := startRejectsBadOperands ch n s hs.1
  have hno {t' : State} (heq : exec (.start ch n) s = .next t') (hcode : t'.flt.code ≠ 0#8) : False := by
    rw [heq, Host.Outcome.next.injEq] at h
    exact hcode (h ▸ ht)
  have hc : ch.toNat < 32 := by
    by_contra hc
    exact hno (hchannel (by omega)) (by simp)
  refine ⟨hc, ?_, ?_⟩
  · by_contra h1
    exact hno (hzero hc (BitVec.eq_of_toNat_eq (by simp; omega))) (by simp)
  · by_contra h2
    exact hno (hrange hc (by omega)) (by simp)

/-- R94: START of a listed channel where the primary half is the target stores one control word. -/
theorem exec_start_primary {ch : BitVec 8} {n : BitVec 16} {s : State} {r : ConfigRecord} {a : Nat} (hs : TableReady s)
    (hp : s.par.fieldTarget = .primary) (hc : ch.toNat < 32) (h1 : 1 ≤ n.toNat) (h2 : n.toNat ≤ 1024)
    (hf : findRecord s.cfg ch = some r) (ha : a = entaddr s ch .pri .ctl) (hok : memOk s a = true) :
    ∃ evs, exec (.start ch n) s =
      .next { completed (.start ch n) 0#32 evs s with
        mem := writeWord s.mem a (insertField cwSize
          (insertField cwMode (readWord s.mem a) (r.mode.code.setWidth 32)) ((n - 1#16).setWidth 32))
        csr := { s.csr with
          altsel := putBit s.csr.altsel ch (!primaryGroup r.mode), ena := s.csr.ena ||| (1#32 <<< ch.toNat) } } := by
  have ⟨_, _, hbase, hmem⟩ := hs
  have hlim : a + 3 < Config.addrLimit := ha ▸ (entaddr_bounds hbase hc _ .ctl).2.2
  have hmode := writeWord_wf (v := insertField cwMode (readWord s.mem a) (r.mode.code.setWidth 32)) hmem hlim
  have htgt {u : State} (hu : u.par = s.par) (hu' : u.csr.ctlbase = s.csr.ctlbase) :
      a = entaddr u ch (tgt u ch) .ctl := by
    rw [ha, tgt_primary (hu ▸ hp), entaddr_congr hu']
  have htgt' := htgt (u := { s with csr := { s.csr with altsel := putBit s.csr.altsel ch (!primaryGroup r.mode) } })
    rfl rfl
  have hexec := exec_start_listed hs hc h1 h2 hf (htgt rfl rfl) rfl htgt' rfl hok hok
  rw [readWord_writeWord_same hmem hlim, writeWord_writeWord hmem hlim] at hexec
  exact ⟨_, hexec⟩

/-- Settles O38: with the primary half as target, the second START reads the control word that the first one stored, and
stores it again. -/
theorem startIsIdempotent : Obligations.StartIsIdempotent := by
  unfold Obligations.StartIsIdempotent
  intro ch n s t hs hp hexec ht
  have ⟨hclocked, hw, hbase, hmem⟩ := hs
  have ⟨hc, h1, h2⟩ := start_operands hclocked hexec ht
  have harm : s.csr.ena ||| (1#32 <<< ch.toNat) ||| (1#32 <<< ch.toNat) = s.csr.ena ||| (1#32 <<< ch.toNat) := by
    rw [BitVec.or_assoc, BitVec.or_self]
  have hbit : (s.csr.ena ||| (1#32 <<< ch.toNat)).getLsbD ch.toNat = true := by simp [hc]
  cases hf : findRecord s.cfg ch with
  | none =>
    rw [exec_start_unlisted hclocked hc h1 h2 hf, Host.Outcome.next.injEq] at hexec
    subst hexec
    refine ⟨_, exec_start_unlisted hclocked hc h1 h2 hf, rfl, ?_, rfl, ?_⟩
    · simp only [harm]
    · simp only [harm, hbit]
  | some r =>
    have hlim := (entaddr_bounds hbase hc .pri .ctl).2.2
    cases hok : memOk s (entaddr s ch .pri .ctl) with
    | false =>
      have ha : entaddr s ch .pri .ctl = entaddr s ch (tgt s ch) .ctl := by rw [tgt_primary hp]
      rw [exec_start_refused hs hc h1 h2 hf ha hok, Host.Outcome.next.injEq] at hexec
      subst hexec
      exact absurd ht (by simp)
    | true =>
      obtain ⟨_, hfirst⟩ := exec_start_primary hs hp hc h1 h2 hf rfl hok
      rw [hfirst, Host.Outcome.next.injEq] at hexec
      have hready : TableReady t := by
        subst hexec
        exact ⟨hclocked, hw, hbase, writeWord_wf hmem hlim⟩
      subst hexec
      obtain ⟨_, hsecond⟩ := exec_start_primary hready hp hc h1 h2 hf (entaddr_congr rfl ch .pri .ctl).symm hok
      refine ⟨_, hsecond, ?_, ?_, rfl, ?_⟩
      · exact writeWord_update_twice (f := fun w =>
          insertField cwSize (insertField cwMode w (r.mode.code.setWidth 32)) ((n - 1#16).setWidth 32)) hmem hlim
          fun w => insertField_mode_size_twice w _ _
      · simp only [harm, putBit_putBit]
      · simp only [harm, hbit]

/-! ### START that faults -/

/-- A raise of two pieces is one of the first, or of the second from where the first ended. -/
theorem bind_eq_raised {α β : Type} {r : Result α} {k : α → State → Result β} {g : FaultName} {info : Word}
    {t : State} :
    r.bind k = .raised g info t ↔ r = .raised g info t ∨ ∃ a u, r = .done a u ∧ k a u = .raised g info t := by
  cases r <;> simp [Result.bind]

section Raises
variable {α : Type} {ch : BitVec 8} {op info : Word} {s t : State} {k : State → Result α} {n : BitVec 16}
  {g : FaultName}

/-- R40, R124: a read-modify-write raises MemFault, and nothing else, before it has an effect. -/
theorem rmw_eq_raised {a : Nat} {fld : CwField} {f : Word} (h : rmw a fld f s = .raised g info t) :
    g = .memFault ∧ t = s := by
  by_cases h4 : a % 4 = 0
  · by_cases hl : a < 2 ^ 32
    · cases hok : memOk s a with
      | true => rw [rmw_done h4 hl hok] at h; cases h
      | false => rw [rmw_raised h4 hl hok] at h; cases h; exact ⟨rfl, rfl⟩
    · have hlim : Config.addrLimit ≤ a := by simp only [Config.addrLimit]; omega
      simp [rmw, memRead, access, h4, hlim, Result.bind] at h
  · simp [rmw, memRead, access, h4, Result.bind] at h

/-- R8: a read-modify-write that goes through changes memory and the history. -/
theorem rmw_eq_done {a : Nat} {fld : CwField} {f : Word} {u : Unit} (h : rmw a fld f s = .done u t) :
    t = { s with mem := t.mem, hist := t.hist } := by
  have hforall := rmw_forall (a := a) (fld := fld) (f := f) (s := s)
    (Q := fun t => t = { s with mem := t.mem, hist := t.hist }) rfl fun _ _ => rfl
  rwa [h] at hforall

/-- R87: SETMODE's body raises MemFault, and nothing else, before it has an effect. -/
theorem setmodeBody_eq_raised {m : TransferMode} (h : setmodeBody ch m s = .raised g info t) :
    g = .memFault ∧ t = s := by
  rcases bind_eq_raised.mp h with h | ⟨_, _, _, h⟩
  · exact rmw_eq_raised h
  · cases h

/-- R87: SETMODE's body changes memory, the history and the alternate-select vector. -/
theorem setmodeBody_eq_done {m : TransferMode} {u : Unit} (h : setmodeBody ch m s = .done u t) :
    t = { s with mem := t.mem, hist := t.hist, csr := { s.csr with altsel := t.csr.altsel } } := by
  rw [setmodeBody] at h
  cases hr : rmwControl ch cwMode (m.code.setWidth 32) s with
  | done _ v =>
    rw [hr, bind_done, Result.done.injEq] at h
    rw [← h.2, rmw_eq_done hr]
  | raised _ _ _ => rw [hr] at h; cases h
  | stopped _ => rw [hr] at h; cases h

/-- R94, R127: START's body raises MemFault, and nothing else; of the registers the alternate-select vector alone can
have changed. -/
theorem startBody_eq_raised (h : startBody ch n s = .raised g info t) :
    g = .memFault ∧ t = { s with mem := t.mem, hist := t.hist, csr := { s.csr with altsel := t.csr.altsel } } := by
  rw [startBody] at h
  split at h
  next r _ =>
    rcases bind_eq_raised.mp h with h | ⟨_, _, _, h⟩
    · rcases bind_eq_raised.mp h with h | ⟨_, v, hmode, h⟩
      · obtain ⟨hg, rfl⟩ := setmodeBody_eq_raised h
        exact ⟨hg, rfl⟩
      · obtain ⟨hg, rfl⟩ := rmw_eq_raised h
        exact ⟨hg, setmodeBody_eq_done hmode⟩
    · cases h
  next => cases h

/-- R126: a channel check that raises does not raise MemFault, and changes nothing. -/
theorem inRange_eq_raised (h : inRange ch s k = .raised g info t) :
    (g ≠ .memFault ∧ t = s) ∨ k s = .raised g info t := by
  by_cases hc : ch.toNat < 32
  · rw [inRange_pass hc] at h; exact .inr h
  · rw [inRange_raise (by omega)] at h; cases h; exact .inl ⟨by decide, rfl⟩

/-- R94, R126: the same of the check of the count. -/
theorem countLegal_eq_raised (h : countLegal op n s k = .raised g info t) :
    (g ≠ .memFault ∧ t = s) ∨ k s = .raised g info t := by
  rw [countLegal] at h
  split at h
  · cases h; exact .inl ⟨by decide, rfl⟩
  · split at h
    · cases h; exact .inl ⟨by decide, rfl⟩
    · exact .inr h

/-- R126: the same of the check of the clock. -/
theorem clocked_eq_raised (h : clocked op s k = .raised g info t) :
    (g ≠ .memFault ∧ t = s) ∨ k s = .raised g info t := by
  rw [clocked] at h
  split at h
  · exact .inr h
  · cases h; exact .inl ⟨by decide, rfl⟩

/-- R94, R127: how START raises. -/
theorem bodyOf_start_eq_raised (h : bodyOf (.start ch n) op s = .raised g info t) :
    t = { s with mem := t.mem, hist := t.hist, csr := { s.csr with altsel := t.csr.altsel } } ∧
      (g ≠ .memFault → t = s) := by
  rw [start_channelRequest] at h
  rcases inRange_eq_raised h with ⟨_, rfl⟩ | h
  · exact ⟨rfl, fun _ => rfl⟩
  rcases countLegal_eq_raised h with ⟨_, rfl⟩ | h
  · exact ⟨rfl, fun _ => rfl⟩
  rcases clocked_eq_raised h with ⟨_, rfl⟩ | h
  · exact ⟨rfl, fun _ => rfl⟩
  · obtain ⟨hg, ht⟩ := startBody_eq_raised h
    exact ⟨ht, fun hne => absurd hg hne⟩

/-- R128: a request that leaves a fault latched on a block that had none has raised it. -/
theorem exec_faulted {i : Instr} (hs : Accepting s) (h : exec i s = .next t) (ht : t.flt.code ≠ 0#8) :
    ∃ g info u, bodyOf i (packetOf i).op (started i s) = .raised g info u ∧
      t = raiseFault g info (packetOf i).op u := by
  rcases exec_cases h with ⟨hne, _⟩ | ⟨_, v, u, hbody, rfl⟩ | ⟨_, g, info, u, hbody, rfl⟩
  · exact absurd hs hne
  · have hkept := bodyOf_forward i (packetOf i).op (started i s)
    rw [hbody] at hkept
    exact absurd ((congrArg FaultLatch.code hkept.flt).trans hs) ht
  · exact ⟨g, info, u, hbody, rfl⟩

end Raises

/-- Settles O40: START raises in one of its checks, before any effect, or MemFault in its body, before it arms. -/
theorem faultedStartArmsNothing : Obligations.FaultedStartArmsNothing := by
  unfold Obligations.FaultedStartArmsNothing
  intro ch n s t hs hexec ht
  obtain ⟨g, info, u, hbody, rfl⟩ := exec_faulted hs hexec ht
  obtain ⟨hu, hkept⟩ := bodyOf_start_eq_raised hbody
  refine ⟨?_, ?_, ?_, ?_, fun hcode => ?_⟩
  · rw [hu]; rfl
  · rw [hu]; rfl
  · rw [hu]; rfl
  · rw [hu]; rfl
  · have hg : g ≠ .memFault := fun hg => hcode (by rw [hg]; rfl)
    rw [hkept hg]
    rfl

end Sys2Proof.Machine

/-! SUPPORT. CFGSRC and CFGDST of one channel one after the other (spec 42_transfer_ops.md R93,
95_test_vectors.md S3). -/

namespace Sys2Proof.Machine

/-! ### Requests in order -/

/-- A list of requests of which the first ends in a next state. -/
theorem execAll_cons {i : Instr} {is : List Instr} {s t : State} (h : exec i s = .next t) :
    execAll (i :: is) s = execAll is t := by
  rw [execAll, h]

/-- The empty list of requests. -/
theorem execAll_nil (s : State) : execAll [] s = .next s := rfl

/-! ### One side, then the other -/

section Sides
variable {i j : Instr} {ch : BitVec 8} {w v : EntryWord} {fld fld' : CwField} {inc inc' : Increment} {z z' : ItemSize}
  {e e' : Word} {s : State} {p q a : Nat}

/-- R92, R93: what the request for one side stores, on a block that stays ready for the next one. -/
theorem EndpointRequest.exec_ready (h : EndpointRequest i ch w fld inc z e) (hw : w ≠ .ctl) (hz : z ≠ .reserved)
    (hs : TableReady s) (hc : ch.toNat < 32) (hp : p = entaddr s ch (tgt s ch) w)
    (ha : a = entaddr s ch (tgt s ch) .ctl) (hokp : memOk s p = true) (hoka : memOk s a = true) :
    ∃ t, exec i s = .next t ∧ TableReady t ∧ t.csr = s.csr ∧ t.par = s.par ∧
      t.mem = writeWord (writeWord s.mem p e) a (insertField fld (readWord s.mem a) (incSize inc z)) := by
  have ⟨hclocked, hwritten, hbase, hmem⟩ := hs
  have bound (v : EntryWord) := (entaddr_bounds hbase hc (tgt s ch) v).2.2
  exact ⟨_, h.exec_stored hw hz hs hc hp ha hokp hoka rfl,
    ⟨hclocked, hwritten, hbase, writeWord_wf (writeWord_wf hmem (hp ▸ bound w)) (ha ▸ bound .ctl)⟩, rfl, rfl, rfl⟩

/-- R92, R93: the request for one side and then that for the other store both end pointers, and in the control word both
sides' bits. -/
theorem EndpointRequest.execAll_pair (h : EndpointRequest i ch w fld inc z e)
    (h' : EndpointRequest j ch v fld' inc' z' e') (hw : w ≠ .ctl) (hv : v ≠ .ctl) (hz : z ≠ .reserved)
    (hz' : z' ≠ .reserved) (hs : TableReady s) (hc : ch.toNat < 32) (hp : p = entaddr s ch (tgt s ch) w)
    (hq : q = entaddr s ch (tgt s ch) v) (ha : a = entaddr s ch (tgt s ch) .ctl)
    (hok : ∀ w, memOk s (entaddr s ch (tgt s ch) w) = true) :
    ∃ t, execAll [i, j] s = .next t ∧ t.csr = s.csr ∧
      t.mem = writeWord (writeWord (writeWord s.mem p e) q e') a
        (insertField fld' (insertField fld (readWord s.mem a) (incSize inc z)) (incSize inc' z')) := by
  obtain ⟨t, hexec, hready, htcsr, htpar, htmem⟩ := h.exec_ready hw hz hs hc hp ha (hp ▸ hok w) (ha ▸ hok .ctl)
  have haddr (x : EntryWord) : entaddr s ch (tgt s ch) x = entaddr t ch (tgt t ch) x := by
    rw [tgt_congr htpar (by rw [htcsr]), entaddr_congr (by rw [htcsr])]
  have hok' (x : EntryWord) : memOk t (entaddr s ch (tgt s ch) x) = true := (memOk_congr htpar _).trans (hok x)
  obtain ⟨u, hexec', _, hucsr, _, humem⟩ := h'.exec_ready hv hz' hready hc (hq.trans (haddr v)) (ha.trans (haddr .ctl))
    (hq ▸ hok' v) (ha ▸ hok' .ctl)
  have ⟨_, _, hbase, hmem⟩ := hs
  have bound (v : EntryWord) := (entaddr_bounds hbase hc (tgt s ch) v).2.2
  have hla : a + 3 < Config.addrLimit := ha ▸ bound .ctl
  have hlq : q + 3 < Config.addrLimit := hq ▸ bound v
  have hmemp := writeWord_wf (v := e) hmem (hp ▸ bound w)
  refine ⟨u, (execAll_cons hexec).trans ((execAll_cons hexec').trans (execAll_nil _)), hucsr.trans htcsr, ?_⟩
  rw [humem, htmem, readWord_writeWord_same hmemp hla,
    writeWord_comm hmemp hla hlq (entaddr_pointer_disjoint hc hv hq ha).symm,
    writeWord_writeWord (writeWord_wf hmemp hlq) hla]

end Sides

/-- Settles O33: both orders store the same three words, since the two end pointers share no byte and the two sides no
bit of the control word. -/
theorem sourceAndDestinationCommute : Obligations.SourceAndDestinationCommute := by
  unfold Obligations.SourceAndDestinationCommute
  intro ch i₁ i₂ z₁ z₂ e₁ e₂ s hc hz₁ hz₂ hs hok
  have hsrc := cfgsrc_endpointRequest ch i₁ z₁ e₁
  have hdst := cfgdst_endpointRequest ch i₂ z₂ e₂
  obtain ⟨t, ht, htcsr, htmem⟩ := hsrc.execAll_pair hdst (by decide) (by decide) hz₁ hz₂ hs hc rfl rfl rfl hok
  obtain ⟨u, hu, hucsr, humem⟩ := hdst.execAll_pair hsrc (by decide) (by decide) hz₂ hz₁ hs hc rfl rfl rfl hok
  have ⟨_, _, hbase, hmem⟩ := hs
  have bound (v : EntryWord) := (entaddr_bounds hbase hc (tgt s ch) v).2.2
  have disjoint (v w : EntryWord) (hne : v ≠ w) :
      entaddr s ch (tgt s ch) v + 4 ≤ entaddr s ch (tgt s ch) w ∨
        entaddr s ch (tgt s ch) w + 4 ≤ entaddr s ch (tgt s ch) v :=
    entryAddr_disjoint hc hc (by simpa using hne)
  have hmem₁ := writeWord_wf (v := e₁) hmem (bound .src)
  have hmem₂ := writeWord_wf (v := e₂) hmem₁ (bound .dst)
  refine ⟨t, u, ht, hu, ?_, htcsr.trans hucsr.symm, htcsr, ?_, ?_, fun c hctl => ?_⟩
  · rw [htmem, humem, writeWord_comm hmem (bound .src) (bound .dst) (disjoint .src .dst (by decide)),
      insertField_comm (fld := cwSource) (fld' := cwDest) (by decide)]
  · rw [htmem, readWord_writeWord_disjoint (disjoint .src .ctl (by decide)),
      readWord_writeWord_disjoint (disjoint .src .dst (by decide)), readWord_writeWord_same hmem (bound .src)]
  · rw [htmem, readWord_writeWord_disjoint (disjoint .dst .ctl (by decide)),
      readWord_writeWord_same hmem₁ (bound .dst)]
  · rw [htmem, readWord_writeWord_same hmem₂ (bound .ctl)] at hctl
    subst hctl
    have ⟨hsize₂, hinc₂⟩ := extract_insertField_incSize cwDest_covers rfl (by omega)
      (insertField cwSource (readWord s.mem (entaddr s ch (tgt s ch) .ctl)) (incSize i₁ z₁)) i₂ z₂
    have ⟨hsize₁, hinc₁⟩ := extract_insertField_incSize cwSource_covers rfl (by omega)
      (readWord s.mem (entaddr s ch (tgt s ch) .ctl)) i₁ z₁
    refine ⟨?_, ?_, hsize₂, hinc₂, ?_⟩
    · rw [extract_insertField_other cwDest_covers (by omega), hsize₁]
    · rw [extract_insertField_other cwDest_covers (by omega), hinc₁]
    · rw [extract_insertField_other cwDest_covers (by omega), extract_insertField_other cwSource_covers (by omega)]

end Sys2Proof.Machine

/-! SUPPORT. The engine between two requests (spec 60_exceptions.md R136): what each action keeps. -/

namespace Sys2Proof.Machine

/-! ### One bit of a vector -/

section Bits
variable {v : Word} {ch : BitVec 8} {j : Nat}

/-- R83: the other bits of the word with one channel's bit set are 0. -/
theorem getLsbD_chBit_ne (hj : j ≠ ch.toNat) : (chBit ch).getLsbD j = false := by
  have hlow : j < ch.toNat ∨ j - ch.toNat ≠ 0 := by omega
  simp [chBit]
  omega

theorem getLsbD_setPort_ne (hj : j ≠ ch.toNat) : (setPort v (chBit ch)).getLsbD j = v.getLsbD j := by
  rw [setPort, BitVec.getLsbD_or, getLsbD_chBit_ne hj, Bool.or_false]

theorem getLsbD_clrPort_ne (hj : j ≠ ch.toNat) : (clrPort v (chBit ch)).getLsbD j = v.getLsbD j :=
  getLsbD_putBit_ne (b := false) hj

theorem getLsbD_xor_chBit_ne (hj : j ≠ ch.toNat) : (v ^^^ chBit ch).getLsbD j = v.getLsbD j := by
  rw [BitVec.getLsbD_xor, getLsbD_chBit_ne hj, Bool.xor_false]

/-- R26: a clear port sets no bit. -/
theorem getLsbD_of_clrPort (h : (clrPort v (chBit ch)).getLsbD j = true) : v.getLsbD j = true := by
  rw [clrPort, BitVec.getLsbD_and, Bool.and_eq_true] at h
  exact h.1

end Bits

/-! ### The liberties -/

/-- R136: from `s` to `t` nothing changed but what the engine may change for the channel. -/
structure WithinLiberties (ch : BitVec 8) (s t : State) : Prop where
  cfg : t.cfg = s.cfg := by rfl
  sys : t.sys = s.sys := by rfl
  flt : t.flt = s.flt := by rfl
  seq : t.seq = s.seq := by rfl
  par : t.par = s.par := by rfl
  csr : t.csr = { s.csr with ena := t.csr.ena, altsel := t.csr.altsel, err := t.csr.err } := by rfl
  ena : ∀ j, j ≠ ch.toNat → t.csr.ena.getLsbD j = s.csr.ena.getLsbD j := by intros; rfl
  altsel : ∀ j, j ≠ ch.toNat → t.csr.altsel.getLsbD j = s.csr.altsel.getLsbD j := by intros; rfl
  err : ∀ j, j ≠ ch.toNat → t.csr.err.getLsbD j = s.csr.err.getLsbD j := by intros; rfl
  arm : ∀ j, t.csr.ena.getLsbD j = true → s.csr.ena.getLsbD j = true := by exact fun _ h => h
  entries : ∀ (j : BitVec 8) (h : Half) (w : EntryWord), j.toNat < 32 → ¬(j = ch ∧ w = .ctl) →
    readWord t.mem (entaddr s j h w) = readWord s.mem (entaddr s j h w) := by intros; rfl

/-- R47: where the table ends. -/
theorem inTable_eq_false (c : Word) (a : Nat) : inTable c a = false ↔ a < c.toNat ∨ c.toNat + 1024 ≤ a := by
  rw [inTable, Bool.and_eq_false_iff, decide_eq_false_iff_not, decide_eq_false_iff_not, Nat.not_le, Nat.not_lt,
    Config.tableBytes]

/-- R47: a byte outside the table is in no entry word. -/
theorem readWord_writeByte_outside {s : State} {a : Nat} {v : Byte} {j : BitVec 8} (hb : s.csr.ctlbase.toNat % 1024 = 0)
    (hout : inTable s.csr.ctlbase a = false) (hj : j.toNat < 32) (h : Half) (w : EntryWord) :
    readWord (writeByte s.mem a v) (entaddr s j h w) = readWord s.mem (entaddr s j h w) := by
  have ⟨_, hlow, hhigh, _⟩ := entryAddr_bounds h w hb hj
  refine readWord_congr fun b hb1 hb2 => readByte_writeByte_ne ?_
  rintro rfl
  rw [inTable_eq_false] at hout
  simp only [entaddr] at hb1 hb2
  omega

section Effect
variable {act : EngineAction} {s t : State}

/-- R136: when the engine takes an action. -/
theorem engineAct_eq_some (h : engineAct act s = some t) :
    s.csr.masten = true ∧ s.csr.ena.getLsbD act.channel.toNat = true ∧ engineAddressOk act s = true ∧
      t = engineEffect act s := by
  simp only [engineAct, engineMayAct, Option.ite_none_right_eq_some, Option.some.injEq, Bool.and_eq_true] at h
  obtain ⟨⟨⟨hmasten, hena⟩, haddr⟩, rfl⟩ := h
  exact ⟨hmasten, hena, haddr, rfl⟩

/-- Where the master enable is 1 the clock is on: without it every register is at its reset value. -/
theorem State.Inv.clkEn_of_masten (hs : s.Inv) (h : s.csr.masten = true) : s.sys.clkEn = true := by
  have ⟨_, _, _, ⟨_, _, hreset⟩, _⟩ := hs
  cases hclk : s.sys.clkEn with
  | true => rfl
  | false => rw [hreset hclk] at h; exact absurd h (by decide)

/-- R136: what an action of the engine keeps. -/
theorem engineEffect_withinLiberties (hs : s.Inv) (hc : act.channel.toNat < 32) (haddr : engineAddressOk act s = true) :
    WithinLiberties act.channel s (engineEffect act s) := by
  cases act with
  | readEntry | readData | changeStatus => exact {}
  | writeControl ch h v =>
    refine { entries := fun j k w hj hne => readWord_writeWord_disjoint (entryAddr_disjoint hj hc fun heq => hne ?_) }
    simp only [Prod.mk.injEq] at heq
    exact ⟨heq.1, heq.2.2⟩
  | clearEnable ch => exact { ena := fun _ => getLsbD_clrPort_ne, arm := fun _ => getLsbD_of_clrPort }
  | flipAltSel ch => exact { altsel := fun _ => getLsbD_xor_chBit_ne }
  | setError ch => exact { err := fun _ => getLsbD_setPort_ne }
  | writeData ch a v =>
    have ⟨hbase, _⟩ := hs
    simp only [engineAddressOk, Bool.and_eq_true, Bool.not_eq_true'] at haddr
    exact { entries := fun _ h w hj _ => readWord_writeByte_outside hbase.1 haddr.2 hj h w }

/-- R136: the actions of the engine keep the invariant. -/
theorem engineEffect_inv (hs : s.Inv) (hclk : s.sys.clkEn = true) (hc : act.channel.toNat < 32)
    (haddr : engineAddressOk act s = true) : (engineEffect act s).Inv := by
  have ⟨hbase, _, _, _, hmem⟩ := hs
  cases act with
  | readEntry | readData | changeStatus => exact hs
  | clearEnable | flipAltSel | setError => exact hs.withCsr hclk rfl rfl
  | writeControl ch h v => exact hs.withMem (writeWord_wf hmem (entaddr_bounds hbase.1 hc h .ctl).2.2)
  | writeData ch a v =>
    simp only [engineAddressOk, Bool.and_eq_true, decide_eq_true_eq] at haddr
    exact hs.withMem (writeByte_wf hmem haddr.1)

end Effect

/-- Settles O59: an allowed action has an enabled channel, below 32, and its effect is one of a few fields. -/
theorem engineStaysWithinItsLiberties : Obligations.EngineStaysWithinItsLiberties := by
  unfold Obligations.EngineStaysWithinItsLiberties
  intro act s t hs hact
  obtain ⟨hmasten, hena, haddr, rfl⟩ := engineAct_eq_some hact
  have hc : act.channel.toNat < 32 := BitVec.lt_of_getLsbD hena
  have h := engineEffect_withinLiberties hs hc haddr
  exact ⟨engineEffect_inv hs (hs.clkEn_of_masten hmasten) hc haddr, hmasten, hena, h.cfg, h.sys, h.flt, h.seq, h.par,
    h.csr, fun j hj => ⟨h.ena j hj, h.altsel j hj, h.err j hj⟩, h.arm, h.entries⟩

end Sys2Proof.Machine

/-! SUPPORT. INIT up to its records (spec 42_transfer_ops.md R91): the checks of the list, the base computed from the
block's own buffer, and what an INIT that faults leaves (60_exceptions.md R127). -/

namespace Sys2Proof.Machine

/-! ### The list -/

section List
variable {rs before after : List ConfigRecord} {r : ConfigRecord} {s : State}

/-- R91: the checks of INIT's list raise before any effect. -/
theorem initBody_of_violation {f : FaultName} {info : Word} (hlen : rs.length ≤ 32)
    (hv : recordViolation rs = some { fault := f, info := info }) : initBody rs s = .raised f info s := by
  have hpass : ¬ Config.ncfgMax < rs.length := Nat.not_lt.mpr hlen
  rw [initBody, if_neg hpass, hv]

/-- R91: the first bad channel decides, ChannelRange from 32 on. -/
theorem recordViolation_channelRange (hb : ∀ q ∈ before, q.ch.toNat < 16) (hr : 32 ≤ r.ch.toNat) :
    recordViolation (before ++ r :: after) = some { fault := .channelRange, info := r.ch.setWidth 32 } := by
  have hrange : Config.nch ≤ r.ch.toNat := hr
  rw [recordViolation_append hb, recordViolation, if_pos hrange]

/-- R91: the first bad channel decides, MapRange from 16 to 31. -/
theorem recordViolation_mapRange (hb : ∀ q ∈ before, q.ch.toNat < 16) (hr : 16 ≤ r.ch.toNat) (hr' : r.ch.toNat < 32) :
    recordViolation (before ++ r :: after) = some { fault := .mapRange, info := r.ch.setWidth 32 } := by
  have hpass : ¬ Config.nch ≤ r.ch.toNat := Nat.not_le.mpr hr'
  have hmap : Config.nmapch ≤ r.ch.toNat := hr
  rw [recordViolation_append hb, recordViolation, if_neg hpass, if_pos hmap]

/-- R91: what the check of the channels raises. -/
theorem recordViolation_fault {v : Violation} (h : recordViolation rs = some v) :
    v.fault = .channelRange ∨ v.fault = .mapRange := by
  induction rs with
  | nil => cases h
  | cons r rs ih =>
    rw [recordViolation] at h
    split at h
    · cases h; exact .inl rfl
    · split at h
      · cases h; exact .inr rfl
      · exact ih h

end List

/-- Settles O27: the length first, then the first bad record. -/
theorem initRejectsABadListBeforeAnyEffect : Obligations.InitRejectsABadListBeforeAnyEffect := by
  unfold Obligations.InitRejectsABadListBeforeAnyEffect
  intro rs before after r s hs
  refine ⟨fun hlen => ?_, fun hlen hrs hb hr => ?_, fun hlen hrs hb hr hr' => ?_⟩
  · exact exec_trapped .listTooLong hs rfl (if_pos hlen)
  · exact exec_trapped .channelRange hs rfl
      (initBody_of_violation hlen (hrs ▸ recordViolation_channelRange hb hr))
  · exact exec_trapped .mapRange hs rfl
      (initBody_of_violation hlen (hrs ▸ recordViolation_mapRange hb hr hr'))

/-! ### The base -/

section Base
variable {rs : List ConfigRecord} {s : State}

/-- R78, R91: the base that INIT computes from a legal buffer. -/
theorem initBase_eq (hbuf : s.par.BufferOk) : initBase s = programBase (bufferTable s.par) s := by
  obtain ⟨hlen, hlim⟩ := hbuf
  have hlocate : locate s.par.bufBase.toNat s.par.bufBytes Config.tableAlign Config.tableBytes =
      .ok (s.par.bufBase.toNat + alignDistance s.par.bufBase.toNat Config.tableAlign) :=
    locate_bigEnough (by decide) (by decide) hlen hlim
  rw [initBase, hlocate]
  simp only [add_alignDistance (b := s.par.bufBase.toNat) (a := Config.tableAlign) (by decide)]
  rfl

/-- R91: INIT of a legal list, from a legal buffer. -/
theorem initBody_eq (hlen : rs.length ≤ 32) (hc : ∀ r ∈ rs, r.ch.toNat < 16) (hbuf : s.par.BufferOk) :
    initBody rs s =
      (programBase (bufferTable s.par) (initPower s)).bind fun _ s =>
        (applyRecords rs s).bind fun _ s => .done 0 { s with cfg := { list := rs, valid := true } } := by
  have hpar : (initPower s).par = s.par := by rw [initPower_eq]
  have hpass : ¬ Config.ncfgMax < rs.length := Nat.not_lt.mpr hlen
  rw [initBody, if_neg hpass, recordViolation_none hc]
  simp only
  rw [initBase_eq (hpar ▸ hbuf), hpar]

/-- R91, R127: INIT where another base is programmed. -/
theorem initBody_otherBase (hlen : rs.length ≤ 32) (hc : ∀ r ∈ rs, r.ch.toNat < 16) (hbuf : s.par.BufferOk)
    (hw : s.csr.ctlbaseWritten = true) (hne : s.csr.ctlbase ≠ bufferTable s.par) :
    initBody rs s = .raised .baseRewrite (bufferTable s.par) (initPower s) := by
  have hw' : (initPower s).csr.ctlbaseWritten = true := by rw [initPower_eq]; exact hw
  have hne' : bufferTable s.par ≠ (initPower s).csr.ctlbase := by rw [initPower_eq]; exact hne.symm
  rw [initBody_eq hlen hc hbuf, programBase_raised hw' hne', bind_raised]

end Base

/-- Settles O28: steps 1 and 2 are done when the base is compared. -/
theorem initWithAnotherBaseKeepsSteps1And2 : Obligations.InitWithAnotherBaseKeepsSteps1And2 := by
  unfold Obligations.InitWithAnotherBaseKeepsSteps1And2
  intro rs s hs hlen hc hbuf hw hne
  have hbody := initBody_otherBase (s := started (.init rs) s) hlen hc hbuf hw hne
  rw [exec_raised (i := .init rs) hs hbody, initPower_eq]
  simp [raiseFault, emit, trapped, trappedPacket, historyAfter, FaultName.code]

/-! ### INIT that faults -/

/-- R91: from `s` to `t` everything is kept that step 4 of INIT does not write. -/
structure RecordsKept (s t : State) : Prop where
  cfg : t.cfg = s.cfg := by rfl
  sys : t.sys = s.sys := by rfl
  seq : t.seq = s.seq := by rfl
  masten : t.csr.masten = s.csr.masten := by rfl
  ena : t.csr.ena = s.csr.ena := by rfl
  err : t.csr.err = s.csr.err := by rfl
  chasgn : t.csr.chasgn = s.csr.chasgn := by rfl

theorem RecordsKept.trans {s t u : State} (h : RecordsKept s t) (h' : RecordsKept t u) : RecordsKept s u where
  cfg := h'.cfg.trans h.cfg
  sys := h'.sys.trans h.sys
  seq := h'.seq.trans h.seq
  masten := h'.masten.trans h.masten
  ena := h'.ena.trans h.ena
  err := h'.err.trans h.err
  chasgn := h'.chasgn.trans h.chasgn

section Records
variable {ch : BitVec 8} {r : ConfigRecord} {rs : List ConfigRecord} {s t : State} {info : Word} {g : FaultName}
  {u : Unit}

theorem setmapBody_recordsKept (enc : BitVec 8) : RecordsKept s (setmapBody ch enc s) where
  masten := by simp
  ena := by simp
  err := by simp
  chasgn := by simp

theorem setmodeBody_recordsKept (m : TransferMode) : (setmodeBody ch m s).Forall (RecordsKept s) :=
  (rmw_forall (Q := RecordsKept s) {} fun _ _ => {}).bind (fun _ h => h) fun _ _ h => h.trans {}

theorem applyRecord_recordsKept (r : ConfigRecord) (s : State) : (applyRecord r s).Forall (RecordsKept s) := by
  have hmap : RecordsKept s (setprioBody r.ch r.tier (setmapBody r.ch r.enc s)) :=
    (setmapBody_recordsKept r.enc).trans {}
  refine Result.Forall.bind ((setmodeBody_recordsKept r.mode).mono fun _ h => hmap.trans h) (fun _ h => h) ?_
  intro _ t ht
  refine Result.Forall.bind (rmw_forall (Q := RecordsKept s) (ht.trans {}) fun _ _ => ht.trans {}) (fun _ h => h) ?_
  exact fun _ _ h => h.trans {}

theorem applyRecords_recordsKept (rs : List ConfigRecord) (s : State) :
    (applyRecords rs s).Forall (RecordsKept s) := by
  induction rs generalizing s with
  | nil => exact {}
  | cons r rs ih => exact (applyRecord_recordsKept r s).bind (fun _ h => h) fun _ t h => (ih t).mono fun _ => h.trans

/-- R91, R127: the six setters of a record of a channel that can be mapped raise MemFault and nothing else. -/
theorem applyRecord_eq_raised (h : applyRecord r s = .raised g info t) : g = .memFault := by
  rcases bind_eq_raised.mp h with h | ⟨_, _, _, h⟩
  · exact (setmodeBody_eq_raised h).1
  · rcases bind_eq_raised.mp h with h | ⟨_, _, _, h⟩
    · exact (rmw_eq_raised h).1
    · cases h

theorem applyRecords_eq_raised (h : applyRecords rs s = .raised g info t) : g = .memFault := by
  induction rs generalizing s with
  | nil => cases h
  | cons r rs ih =>
    rcases bind_eq_raised.mp h with h | ⟨_, _, _, h⟩
    · exact applyRecord_eq_raised h
    · exact ih h

/-- R22: a refused base raises BaseRewrite and changes nothing. -/
theorem programBase_eq_raised {b : Word} (h : programBase b s = .raised g info t) : g = .baseRewrite ∧ t = s := by
  rw [programBase] at h
  split at h
  · cases h; exact ⟨rfl, rfl⟩
  · cases h

/-- R22, R91: a base that was programmed kept what step 4 keeps. -/
theorem programBase_recordsKept {b : Word} (h : programBase b s = .done u t) : RecordsKept s t := by
  rw [programBase] at h
  split at h
  · cases h
  · cases h; exact {}

/-- R91: what step 3 raises changed nothing, and from a legal buffer it is BaseRewrite. -/
theorem initBase_eq_raised (h : initBase s = .raised g info t) :
    t = s ∧ (s.par.BufferOk → g = .baseRewrite) := by
  refine ⟨?_, fun hbuf => ?_⟩
  · rw [initBase] at h
    split at h
    · cases h; rfl
    · exact (programBase_eq_raised h).2
  · rw [initBase_eq hbuf] at h
    exact (programBase_eq_raised h).1

theorem initBase_recordsKept (h : initBase s = .done u t) : RecordsKept s t := by
  rw [initBase] at h
  split at h
  · cases h
  · exact programBase_recordsKept h

/-- R91, R127: INIT raises before any effect, or with the effects of steps 1 and 2 kept, and never with a stored
list. -/
theorem initBody_eq_raised (h : initBody rs s = .raised g info t) :
    (t = s ∧ g ≠ .baseRewrite ∧ g ≠ .memFault) ∨
      (RecordsKept (initPower s) t ∧ (s.par.BufferOk → g = .baseRewrite ∨ g = .memFault)) := by
  rw [initBody] at h
  split at h
  · cases h
    exact .inl ⟨rfl, by decide, by decide⟩
  · split at h
    next v hv =>
      cases h
      rcases recordViolation_fault hv with hf | hf
      · rw [hf]; exact .inl ⟨rfl, by decide, by decide⟩
      · rw [hf]; exact .inl ⟨rfl, by decide, by decide⟩
    next =>
      right
      have hpar : (initPower s).par = s.par := by rw [initPower_eq]
      rcases bind_eq_raised.mp h with h | ⟨_, v, hbase, h⟩
      · obtain ⟨rfl, hg⟩ := initBase_eq_raised h
        exact ⟨{}, fun hbuf => .inl (hg (hpar ▸ hbuf))⟩
      · rcases bind_eq_raised.mp h with h | ⟨_, _, _, h⟩
        · have hkept := applyRecords_recordsKept rs v
          rw [h] at hkept
          exact ⟨(initBase_recordsKept hbase).trans hkept, fun _ => .inr (applyRecords_eq_raised h)⟩
        · cases h

end Records

/-- Settles O39: `initBody_eq_raised`, with the two faults of the second case told by their codes. -/
theorem faultedInitStoresNoList : Obligations.FaultedInitStoresNoList := by
  unfold Obligations.FaultedInitStoresNoList
  intro rs s t hs hexec ht
  obtain ⟨g, info, u, hbody, rfl⟩ := exec_faulted hs hexec ht
  have hcode13 : g ≠ .baseRewrite → g.code ≠ 13#8 := by cases g <;> decide
  have hcode16 : g ≠ .memFault → g.code ≠ 16#8 := by cases g <;> decide
  rcases initBody_eq_raised hbody with ⟨rfl, h13, h16⟩ | ⟨hkept, hg⟩
  · refine ⟨rfl, rfl, rfl, rfl, rfl, fun hcode => ?_, fun _ _ _ => rfl⟩
    exact absurd hcode (not_or.mpr ⟨hcode13 h13, hcode16 h16⟩)
  · rw [initPower_eq] at hkept
    refine ⟨hkept.cfg, hkept.ena, hkept.err, hkept.chasgn, hkept.seq, fun _ => ⟨hkept.sys, hkept.masten⟩,
      fun hbuf h13 h16 => ?_⟩
    rcases hg hbuf with rfl | rfl
    · exact absurd rfl h13
    · exact absurd rfl h16

end Sys2Proof.Machine

/-! SUPPORT. INIT beside the hand-made sequence of requests (spec 42_transfer_ops.md R91, 70_reset_and_hazards.md R140).
Both are compared with one function on states, `recordsSet` after `powered`, that writes registers and memory as they do
and leaves history and count alone. -/

namespace Sys2Proof.Machine

/-! ### States up to history and count -/

/-- The state with another history and count. -/
def stamp (h : List Event) (q : Nat) (s : State) : State := { s with hist := h, seq := q }

/-- The requests complete from `s`, whatever its history and count, and lead to `t` but for the two. -/
def Performs (is : List Instr) (s t : State) : Prop :=
  ∀ h q, ∃ h', execAll is (stamp h q s) = .next (stamp h' (q + is.length) t)

/-- The body goes through from `s`, whatever its history and count, to `t` but for the history. -/
def Yields (k : State → Result Unit) (s t : State) : Prop :=
  ∀ h q, ∃ h', k (stamp h q s) = .done () (stamp h' q t)

/-- The body raises from `s`, whatever its history and count, in `t` but for the history. -/
def Raises (k : State → Result Unit) (s : State) (f : FaultName) (info : Word) (t : State) : Prop :=
  ∀ h q, ∃ h', k (stamp h q s) = .raised f info (stamp h' q t)

section Relations
variable {i : Instr} {is js : List Instr} {s t u : State} {k k' : State → Result Unit} {f : FaultName} {info : Word}

/-- Requests one list after another. -/
theorem execAll_append (h : execAll is s = .next t) : execAll (is ++ js) s = execAll js t := by
  induction is generalizing s with
  | nil => cases h; rfl
  | cons i is ih =>
    rw [execAll] at h
    split at h
    next v hv => rw [List.cons_append, execAll_cons hv, ih h]
    · cases h
    · cases h

theorem Performs.single (h : ∀ h q, ∃ h', exec i (stamp h q s) = .next (stamp h' (q + 1) t)) : Performs [i] s t :=
  fun hist q => (h hist q).imp fun _ hexec => (execAll_cons hexec).trans (execAll_nil _)

theorem Performs.append (hst : Performs is s t) (htu : Performs js t u) : Performs (is ++ js) s u := by
  intro h q
  obtain ⟨h₁, hfirst⟩ := hst h q
  obtain ⟨h₂, hsecond⟩ := htu h₁ (q + is.length)
  refine ⟨h₂, ?_⟩
  rw [execAll_append hfirst, hsecond, List.length_append, Nat.add_assoc]

/-- From the state itself. -/
theorem Performs.execAll (h : Performs is s t) : ∃ h', execAll is s = .next (stamp h' (s.seq + is.length) t) :=
  h s.hist s.seq

theorem Yields.bind (hst : Yields k s t) (htu : Yields k' t u) : Yields (fun s => (k s).bind fun _ s => k' s) s u := by
  intro h q
  obtain ⟨h₁, hfirst⟩ := hst h q
  obtain ⟨h₂, hsecond⟩ := htu h₁ q
  exact ⟨h₂, by simp only [hfirst, bind_done, hsecond]⟩

theorem Yields.bind_raises (hst : Yields k s t) (htu : Raises k' t f info u) :
    Raises (fun s => (k s).bind fun _ s => k' s) s f info u := by
  intro h q
  obtain ⟨h₁, hfirst⟩ := hst h q
  obtain ⟨h₂, hsecond⟩ := htu h₁ q
  exact ⟨h₂, by simp only [hfirst, bind_done, hsecond]⟩

theorem Raises.bind (hst : Raises k s f info t) : Raises (fun s => (k s).bind fun _ s => k' s) s f info t := by
  intro h q
  obtain ⟨h₁, hfirst⟩ := hst h q
  exact ⟨h₁, by simp only [hfirst, bind_raised]⟩

end Relations

/-! ### What the setters write -/

/-- R87: the state after SETMODE. -/
def modeSet (ch : BitVec 8) (m : TransferMode) (s : State) : State :=
  { s with
    mem := writeWord s.mem (entaddr s ch (tgt s ch) .ctl)
      (insertField cwMode (readWord s.mem (entaddr s ch (tgt s ch) .ctl)) (m.code.setWidth 32))
    csr := { s.csr with altsel := putBit s.csr.altsel ch (!primaryGroup m) } }

/-- R89: the state after SETARB. -/
def arbSet (ch : BitVec 8) (arb : BitVec 4) (s : State) : State :=
  { s with
    mem := writeWord s.mem (entaddr s ch (tgt s ch) .ctl)
      (insertField cwArb (readWord s.mem (entaddr s ch (tgt s ch) .ctl)) (arb.setWidth 32)) }

/-- R91, step 4: the state at the mode write of a record. -/
def beforeMode (r : ConfigRecord) (s : State) : State := setprioBody r.ch r.tier (setmapBody r.ch r.enc s)

/-- R91, step 4: the state at the arbitration write of a record. -/
def beforeArb (r : ConfigRecord) (s : State) : State :=
  setgranBody r.ch r.gran (modeSet r.ch r.mode (beforeMode r s))

/-- R91, step 4: the state after a record. -/
def recordSet (r : ConfigRecord) (s : State) : State := unmaskBody r.ch (arbSet r.ch r.arb (beforeArb r s))

/-- R91, step 4: the state after the records in list order. -/
def recordsSet (rs : List ConfigRecord) (s : State) : State := rs.foldl (fun s r => recordSet r s) s

/-- R91, step 1: the clock and the power bit. -/
def clockOn (s : State) : State := { s with sys := { clkEn := true, pwrOk := true } }

/-- R91, step 2: the master enable. -/
def enabled (s : State) : State := { clockOn s with csr := { s.csr with masten := true } }

/-- R91, steps 1 to 3: the clock, the power bit, the master enable and the base of the block's own buffer. -/
def powered (s : State) : State :=
  { s with
    sys := { clkEn := true, pwrOk := true }
    csr := { s.csr with masten := true, ctlbase := bufferTable s.par, ctlbaseWritten := true } }

theorem recordsSet_cons (r : ConfigRecord) (rs : List ConfigRecord) (s : State) :
    recordsSet (r :: rs) s = recordsSet rs (recordSet r s) := rfl

theorem recordsSet_append (rs rs' : List ConfigRecord) (s : State) :
    recordsSet (rs ++ rs') s = recordsSet rs' (recordsSet rs s) := List.foldl_append ..

/-! ### Blocks on their way through INIT -/

/-- A ready block with the parameters of `s₀` and the base of its buffer. -/
structure Prepared (s₀ s : State) : Prop where
  ready : TableReady s
  par : s.par = s₀.par
  base : s.csr.ctlbase = bufferTable s₀.par

section Prepared
variable {s₀ s : State} {ch : BitVec 8} {r : ConfigRecord} {rs : List ConfigRecord}

/-- R22, R50: the base that INIT computes is aligned. -/
theorem bufferTable_mod (p : Params) : (bufferTable p).toNat % 1024 = 0 := by
  rw [bufferTable, BitVec.toNat_ofNat]
  omega

theorem prepared_powered (hs : Accepting s) (hmem : Memory.wf s.mem = true) : Prepared s (powered s) where
  ready := ⟨⟨hs, rfl⟩, rfl, bufferTable_mod s.par, hmem⟩
  par := rfl
  base := rfl

/-- R124: an accepted control word is accepted in the half that R48 names. -/
theorem Prepared.memOk (hs : Prepared s₀ s) (hok : ControlWordsOk s₀ (bufferTable s₀.par) ch) :
    memOk s (entaddr s ch (tgt s ch) .ctl) = true := by
  rw [memOk_congr hs.par, entaddr, hs.base]
  cases tgt s ch with
  | pri => exact hok.1
  | alt => exact hok.2

theorem Prepared.clocked (hs : Prepared s₀ s) : Clocked s :=
  have ⟨hclocked, _⟩ := hs.ready
  hclocked

theorem Prepared.aligned (hs : Prepared s₀ s) : s.csr.ctlbase.toNat % 1024 = 0 :=
  have ⟨_, _, hbase, _⟩ := hs.ready
  hbase

theorem Prepared.memWf (hs : Prepared s₀ s) : Memory.wf s.mem = true :=
  have ⟨_, _, _, hmem⟩ := hs.ready
  hmem

/-- Other registers than the base keep the block ready. -/
theorem Prepared.withCsr (hs : Prepared s₀ s) {c : Csr} (hb : c.ctlbase = s.csr.ctlbase)
    (hw : c.ctlbaseWritten = s.csr.ctlbaseWritten) : Prepared s₀ { s with csr := c } := by
  obtain ⟨⟨hclocked, hwritten, hbase, hmem⟩, hpar, htable⟩ := hs
  exact ⟨⟨hclocked, hw.trans hwritten, by rw [hb]; exact hbase, hmem⟩, hpar, hb.trans htable⟩

/-- A stored entry word keeps the block ready. -/
theorem Prepared.store (hs : Prepared s₀ s) (hc : ch.toNat < 32) (h : Half) (w : EntryWord) (v : Word) :
    Prepared s₀ { s with mem := writeWord s.mem (entaddr s ch h w) v } := by
  obtain ⟨⟨hclocked, hwritten, hbase, hmem⟩, hpar, htable⟩ := hs
  exact ⟨⟨hclocked, hwritten, hbase, writeWord_wf hmem (entaddr_bounds hbase hc h w).2.2⟩, hpar, htable⟩

theorem Prepared.beforeMode (hs : Prepared s₀ s) (r : ConfigRecord) : Prepared s₀ (beforeMode r s) := by
  have hmap : Prepared s₀ (setmapBody r.ch r.enc s) := hs.withCsr (by simp) (by simp)
  exact hmap.withCsr rfl rfl

theorem Prepared.modeSet (hs : Prepared s₀ s) (hc : ch.toNat < 32) (m : TransferMode) :
    Prepared s₀ (modeSet ch m s) := (hs.store hc _ _ _).withCsr rfl rfl

theorem Prepared.beforeArb (hs : Prepared s₀ s) (hc : r.ch.toNat < 32) : Prepared s₀ (beforeArb r s) :=
  ((hs.beforeMode r).modeSet hc r.mode).withCsr rfl rfl

theorem Prepared.recordSet (hs : Prepared s₀ s) (hc : r.ch.toNat < 32) : Prepared s₀ (recordSet r s) :=
  ((hs.beforeArb hc).store hc _ _ _).withCsr rfl rfl

theorem Prepared.recordsSet (hs : Prepared s₀ s) (hc : ∀ r ∈ rs, r.ch.toNat < 16) :
    Prepared s₀ (recordsSet rs s) := by
  induction rs generalizing s with
  | nil => exact hs
  | cons r rs ih =>
    simp only [List.mem_cons, forall_eq_or_imp] at hc
    obtain ⟨hr, hrs⟩ := hc
    exact ih (hs.recordSet (by omega)) hrs

end Prepared

/-! ### The requests by hand -/

section Requests
variable {s₀ s : State} {ch : BitVec 8} {r : ConfigRecord} {rs : List ConfigRecord}

theorem performs_setmap (hs : Clocked s) (hc : ch.toNat < 16) (enc : BitVec 8) :
    Performs [.setmap ch enc] s (setmapBody ch enc s) :=
  .single fun h q => ⟨_, (setmap_channelRequest_of_lt enc hc).exec_storeCsr (s := stamp h q s) hs (by omega)⟩

theorem performs_setprio (hs : Clocked s) (hc : ch.toNat < 32) (t : Tier) :
    Performs [.setprio ch t] s (setprioBody ch t s) :=
  .single fun h q => ⟨_, (setprio_channelRequest ch t).exec_storeCsr (s := stamp h q s) hs hc⟩

theorem performs_setmode (hs : TableReady s) (hc : ch.toNat < 32) (m : TransferMode)
    (hok : memOk s (entaddr s ch (tgt s ch) .ctl) = true) : Performs [.setmode ch m] s (modeSet ch m s) :=
  .single fun h q => ⟨_, exec_setmode (s := stamp h q s) hs hc rfl hok rfl⟩

theorem performs_setgran (hs : Clocked s) (hc : ch.toNat < 32) (g : Granularity) :
    Performs [.setgran ch g] s (setgranBody ch g s) :=
  .single fun h q => ⟨_, (setgran_channelRequest ch g).exec_storeCsr (s := stamp h q s) hs hc⟩

theorem performs_setarb (hs : TableReady s) (hc : ch.toNat < 32) (arb : BitVec 4)
    (hok : memOk s (entaddr s ch (tgt s ch) .ctl) = true) : Performs [.setarb ch arb] s (arbSet ch arb s) :=
  .single fun h q => ⟨_, exec_setarb (s := stamp h q s) hs hc rfl hok rfl⟩

theorem performs_unmask (hs : Clocked s) (hc : ch.toNat < 32) : Performs [.unmask ch] s (unmaskBody ch s) :=
  .single fun h q => ⟨_, (unmask_channelRequest ch).exec_storeCsr (s := stamp h q s) hs hc⟩

/-- R140: the requests of a record up to the mode write. -/
theorem performs_beforeMode (hs : Prepared s₀ s) (hc : r.ch.toNat < 16) :
    Performs [.setmap r.ch r.enc, .setprio r.ch r.tier] s (beforeMode r s) :=
  (performs_setmap hs.clocked hc r.enc).append (performs_setprio (s := setmapBody r.ch r.enc s) hs.clocked (by omega) _)

/-- R140: the requests of a record from there to the arbitration write. -/
theorem performs_beforeArb (hs : Prepared s₀ s) (hc : r.ch.toNat < 32)
    (hok : memOk s (entaddr (beforeMode r s) r.ch (tgt (beforeMode r s) r.ch) .ctl) = true) :
    Performs [.setmode r.ch r.mode, .setgran r.ch r.gran] (beforeMode r s) (beforeArb r s) :=
  (performs_setmode (hs.beforeMode r).ready hc r.mode hok).append
    (performs_setgran ((hs.beforeMode r).modeSet hc r.mode).clocked hc r.gran)

/-- R140: the requests of a record. -/
theorem performs_record (hs : Prepared s₀ s) (hc : r.ch.toNat < 16)
    (hok : ControlWordsOk s₀ (bufferTable s₀.par) r.ch) : Performs (recordRequests r) s (recordSet r s) := by
  have hc' : r.ch.toNat < 32 := by omega
  have hrest : Performs [.setarb r.ch r.arb, .unmask r.ch] (beforeArb r s) (recordSet r s) :=
    (performs_setarb (hs.beforeArb hc').ready hc' r.arb ((hs.beforeArb hc').memOk hok)).append
      (performs_unmask (s := arbSet r.ch r.arb (beforeArb r s)) (hs.beforeArb hc').clocked hc')
  exact (performs_beforeMode hs hc).append
    ((performs_beforeArb hs hc' ((hs.beforeMode r).memOk hok)).append hrest)

theorem performs_nil (s : State) : Performs [] s s := fun h _ => ⟨h, rfl⟩

/-- R140: the requests of the records in order. -/
theorem performs_records (hs : Prepared s₀ s) (hc : ∀ r ∈ rs, r.ch.toNat < 16)
    (hok : ∀ r ∈ rs, ControlWordsOk s₀ (bufferTable s₀.par) r.ch) :
    Performs (rs.flatMap recordRequests) s (recordsSet rs s) := by
  induction rs generalizing s with
  | nil => exact performs_nil s
  | cons r rs ih =>
    simp only [List.mem_cons, forall_eq_or_imp] at hc hok
    obtain ⟨hr, hrs⟩ := hc
    rw [List.flatMap_cons]
    exact (performs_record hs hr hok.1).append (ih (hs.recordSet (by omega)) hrs hok.2)

/-- R140: the first three requests of the hand-made sequence. -/
theorem performs_powered (hs : Accepting s)
    (hbase : s.csr.ctlbaseWritten = true → s.csr.ctlbase = bufferTable s.par) :
    Performs [.clkon, .wrCfg 1#32, .wrCtlbase (bufferTable s.par)] s (powered s) := by
  have ⟨_, _, _, hclkon⟩ := clkonTurnsTheClockOn
  have ⟨_, _, hcfg⟩ := cfgHoldsTheMasterEnable
  have ⟨_, _, hctlbase⟩ := ctlbaseIsWrittenOnceAligned
  have hfirst : Performs [.clkon] s (clockOn s) := .single fun h q => ⟨_, hclkon (stamp h q s) hs⟩
  have hsecond : Performs [.wrCfg 1#32] (clockOn s) (enabled s) := .single fun h q =>
    have ⟨_, _, hstored⟩ := hcfg 1#32 (stamp h q (clockOn s)) hs
    ⟨_, hstored (.inr rfl) rfl⟩
  have hor : (enabled s).csr.ctlbaseWritten = false ∨ bufferTable s.par = (enabled s).csr.ctlbase := by
    by_cases hw : s.csr.ctlbaseWritten = true
    · exact .inr (hbase hw).symm
    · exact .inl (Bool.not_eq_true _ ▸ hw)
  have hthird : Performs [.wrCtlbase (bufferTable s.par)] (enabled s) (powered s) := .single fun h q =>
    have ⟨_, _, _, hwritten⟩ := hctlbase _ (stamp h q (enabled s)) ⟨hs, rfl⟩
    ⟨_, hwritten (bufferTable_mod s.par) hor⟩
  exact hfirst.append (hsecond.append hthird)

/-- R140: the hand-made sequence. -/
theorem performs_boot (hs : Accepting s) (hmem : Memory.wf s.mem = true)
    (hbase : s.csr.ctlbaseWritten = true → s.csr.ctlbase = bufferTable s.par) (hc : ∀ r ∈ rs, r.ch.toNat < 16)
    (hok : ∀ r ∈ rs, ControlWordsOk s (bufferTable s.par) r.ch) :
    Performs (bootRequests (bufferTable s.par) rs) s (recordsSet rs (powered s)) :=
  (performs_powered hs hbase).append (performs_records (prepared_powered hs hmem) hc hok)

end Requests

/-! ### INIT's body -/

section Body
variable {s₀ s : State} {ch : BitVec 8} {r : ConfigRecord} {rs before after : List ConfigRecord} {a : Nat}

theorem yields_setmodeBody (hs : Prepared s₀ s) (hc : ch.toNat < 32) (m : TransferMode)
    (hok : memOk s (entaddr s ch (tgt s ch) .ctl) = true) : Yields (setmodeBody ch m) s (modeSet ch m s) :=
  fun h q => ⟨_, setmodeBody_done (s := stamp h q s) hs.aligned hc rfl hok⟩

theorem yields_setarbBody (hs : Prepared s₀ s) (hc : ch.toNat < 32) (arb : BitVec 4)
    (hok : memOk s (entaddr s ch (tgt s ch) .ctl) = true) : Yields (setarbBody ch arb) s (arbSet ch arb s) :=
  fun h q => ⟨_, rmwControl_done (s := stamp h q s) hs.aligned hc rfl hok⟩

theorem raises_setmodeBody (hs : Prepared s₀ s) (hc : ch.toNat < 32) (m : TransferMode)
    (ha : a = entaddr s ch (tgt s ch) .ctl) (hok : memOk s a = false) :
    Raises (setmodeBody ch m) s .memFault (BitVec.ofNat 32 a) s :=
  fun h q => ⟨_, setmodeBody_raised (s := stamp h q s) hs.aligned hc ha hok⟩

theorem raises_setarbBody (hs : Prepared s₀ s) (hc : ch.toNat < 32) (arb : BitVec 4)
    (ha : a = entaddr s ch (tgt s ch) .ctl) (hok : memOk s a = false) :
    Raises (setarbBody ch arb) s .memFault (BitVec.ofNat 32 a) s :=
  fun h q => ⟨_, rmwControl_raised (s := stamp h q s) hs.aligned hc ha hok⟩

/-- R91, step 4: the body of a record from its arbitration write on. -/
theorem yields_afterMode (hs : Prepared s₀ s) (hc : r.ch.toNat < 32)
    (hok : ControlWordsOk s₀ (bufferTable s₀.par) r.ch) :
    Yields (fun s => (setarbBody r.ch r.arb (setgranBody r.ch r.gran s)).bind fun _ s => .done () (unmaskBody r.ch s))
      (modeSet r.ch r.mode (beforeMode r s)) (recordSet r s) := by
  have harb := hs.beforeArb hc
  refine Yields.bind (t := arbSet r.ch r.arb (beforeArb r s)) ?_ fun h q => ⟨h, rfl⟩
  exact fun h q => yields_setarbBody harb hc r.arb (harb.memOk hok) h q

/-- R91, step 4: the body of a record. -/
theorem yields_applyRecord (hs : Prepared s₀ s) (hc : r.ch.toNat < 32)
    (hok : ControlWordsOk s₀ (bufferTable s₀.par) r.ch) : Yields (applyRecord r) s (recordSet r s) := by
  have hmode := hs.beforeMode r
  refine Yields.bind (fun h q => ?_) (yields_afterMode hs hc hok)
  exact yields_setmodeBody hmode hc r.mode (hmode.memOk hok) h q

/-- R91, step 4: the body of a list. -/
theorem yields_applyRecords (hs : Prepared s₀ s) (hc : ∀ r ∈ rs, r.ch.toNat < 16)
    (hok : ∀ r ∈ rs, ControlWordsOk s₀ (bufferTable s₀.par) r.ch) :
    Yields (applyRecords rs) s (recordsSet rs s) := by
  induction rs generalizing s with
  | nil => exact fun h _ => ⟨h, rfl⟩
  | cons r rs ih =>
    simp only [List.mem_cons, forall_eq_or_imp] at hc hok
    obtain ⟨hr, hrs⟩ := hc
    have hc' : r.ch.toNat < 32 := by omega
    exact (yields_applyRecord hs hc' hok.1).bind (ih (hs.recordSet hc') hrs hok.2)

/-- R91, R127: a record whose mode write memory refuses. -/
theorem raises_applyRecord_mode (hs : Prepared s₀ s) (hc : r.ch.toNat < 32)
    (ha : a = entaddr (beforeMode r s) r.ch (tgt (beforeMode r s) r.ch) .ctl) (hok : memOk s₀ a = false) :
    Raises (applyRecord r) s .memFault (BitVec.ofNat 32 a) (beforeMode r s) := by
  have hmode := hs.beforeMode r
  refine Raises.bind fun h q => ?_
  exact raises_setmodeBody hmode hc r.mode ha ((memOk_congr hmode.par a).trans hok) h q

/-- R91, R127: a record whose arbitration write memory refuses. -/
theorem raises_applyRecord_arb (hs : Prepared s₀ s) (hc : r.ch.toNat < 32)
    (hok : memOk s₀ (entaddr (beforeMode r s) r.ch (tgt (beforeMode r s) r.ch) .ctl) = true)
    (ha : a = entaddr (beforeArb r s) r.ch (tgt (beforeArb r s) r.ch) .ctl) (hrefused : memOk s₀ a = false) :
    Raises (applyRecord r) s .memFault (BitVec.ofNat 32 a) (beforeArb r s) := by
  have hmode := hs.beforeMode r
  have harb := hs.beforeArb hc
  refine Yields.bind_raises (t := modeSet r.ch r.mode (beforeMode r s)) (fun h q => ?_) (Raises.bind fun h q => ?_)
  · exact yields_setmodeBody hmode hc r.mode ((memOk_congr hmode.par _).trans hok) h q
  · exact raises_setarbBody harb hc r.arb ha ((memOk_congr harb.par a).trans hrefused) h q

/-- R91: a list that raises at the record after `before`. -/
theorem raises_applyRecords {info : Word} {t : State} (hs : Prepared s₀ s) (hc : ∀ q ∈ before, q.ch.toNat < 16)
    (hok : ∀ q ∈ before, ControlWordsOk s₀ (bufferTable s₀.par) q.ch)
    (hr : Raises (applyRecord r) (recordsSet before s) .memFault info t) :
    Raises (applyRecords (before ++ r :: after)) s .memFault info t := by
  induction before generalizing s with
  | nil => exact Raises.bind hr
  | cons q qs ih =>
    simp only [List.mem_cons, forall_eq_or_imp] at hc hok
    obtain ⟨hq, hqs⟩ := hc
    have hc' : q.ch.toNat < 32 := by omega
    exact (yields_applyRecord hs hc' hok.1).bind_raises (ih (hs.recordSet hc') hqs hok.2 hr)

/-- R91, steps 1 to 3 of INIT, on a block without another base. -/
theorem bodyOf_init (hlen : rs.length ≤ 32) (hc : ∀ r ∈ rs, r.ch.toNat < 16) (hbuf : s.par.BufferOk)
    (hbase : s.csr.ctlbaseWritten = true → s.csr.ctlbase = bufferTable s.par) (op : Word) :
    ∃ h, bodyOf (.init rs) op (started (.init rs) s) =
      (applyRecords rs (stamp h s.seq (powered s))).bind fun _ s =>
        .done 0 { s with cfg := { list := rs, valid := true } } := by
  have hor : (initPower (started (.init rs) s)).csr.ctlbaseWritten = false ∨
      bufferTable s.par = (initPower (started (.init rs) s)).csr.ctlbase := by
    rw [initPower_eq]
    by_cases hw : s.csr.ctlbaseWritten = true
    · exact .inr (hbase hw).symm
    · exact .inl (Bool.not_eq_true _ ▸ hw)
  have hbody := initBody_eq (s := started (.init rs) s) hlen hc hbuf
  rw [show bufferTable (started (.init rs) s).par = bufferTable s.par from rfl, programBase_done hor, bind_done,
    initPower_eq] at hbody
  exact ⟨_, hbody⟩

end Body

/-! ### INIT as a request -/

section Init
variable {s t : State} {rs : List ConfigRecord} {info : Word}

/-- R91: INIT completes with what its records left, and stores the list. -/
theorem exec_init (hs : Accepting s) (hlen : rs.length ≤ 32) (hc : ∀ r ∈ rs, r.ch.toNat < 16)
    (hbuf : s.par.BufferOk) (hmem : Memory.wf s.mem = true)
    (hbase : s.csr.ctlbaseWritten = true → s.csr.ctlbase = bufferTable s.par)
    (hok : ∀ r ∈ rs, ControlWordsOk s (bufferTable s.par) r.ch) :
    ∃ h, exec (.init rs) s =
      .next { stamp h (s.seq + 1) (recordsSet rs (powered s)) with cfg := { list := rs, valid := true } } := by
  obtain ⟨h, hbody⟩ := bodyOf_init hlen hc hbuf hbase (packetOf (.init rs)).op
  obtain ⟨h', hrecords⟩ := yields_applyRecords (prepared_powered hs hmem) hc hok h s.seq
  rw [hrecords, bind_done] at hbody
  exact ⟨_, exec_done hs hbody⟩

/-- R91, R127: INIT raises where its records raise. -/
theorem exec_init_raised (hs : Accepting s) (hlen : rs.length ≤ 32) (hc : ∀ r ∈ rs, r.ch.toNat < 16)
    (hbuf : s.par.BufferOk) (hbase : s.csr.ctlbaseWritten = true → s.csr.ctlbase = bufferTable s.par)
    (hr : Raises (applyRecords rs) (powered s) .memFault info t) :
    ∃ h, exec (.init rs) s =
      .next { stamp h s.seq t with flt := { code := 16#8, info := info, op := (packetOf (.init rs)).op } } := by
  obtain ⟨h, hbody⟩ := bodyOf_init hlen hc hbuf hbase (packetOf (.init rs)).op
  obtain ⟨h', hrecords⟩ := hr h s.seq
  rw [hrecords, bind_raised] at hbody
  exact ⟨_, exec_raised hs hbody⟩

end Init

end Sys2Proof.Machine

/-! SUPPORT. The statements about INIT beside the hand-made sequence (spec 42_transfer_ops.md R91,
60_exceptions.md R127, 70_reset_and_hazards.md R140): a completed INIT, and one that memory refuses. -/

namespace Sys2Proof.Machine

/-! ### What the setters of a record keep -/

/-- R91: from `s` to `t` everything is kept that the six setters do not write. -/
structure SettersKept (s t : State) : Prop extends RecordsKept s t where
  flt : t.flt = s.flt := by rfl
  port : t.port = s.port := by rfl
  par : t.par = s.par := by rfl
  draws : t.draws = s.draws := by rfl
  base : t.csr.ctlbase = s.csr.ctlbase := by rfl
  written : t.csr.ctlbaseWritten = s.csr.ctlbaseWritten := by rfl

theorem SettersKept.trans {s t u : State} (h : SettersKept s t) (h' : SettersKept t u) : SettersKept s u where
  toRecordsKept := h.toRecordsKept.trans h'.toRecordsKept
  flt := h'.flt.trans h.flt
  port := h'.port.trans h.port
  par := h'.par.trans h.par
  draws := h'.draws.trans h.draws
  base := h'.base.trans h.base
  written := h'.written.trans h.written

theorem beforeMode_settersKept (r : ConfigRecord) (s : State) : SettersKept s (beforeMode r s) where
  masten := by simp [beforeMode]
  ena := by simp [beforeMode]
  err := by simp [beforeMode]
  chasgn := by simp [beforeMode]
  base := by simp [beforeMode]
  written := by simp [beforeMode]

theorem beforeArb_settersKept (r : ConfigRecord) (s : State) : SettersKept s (beforeArb r s) :=
  (beforeMode_settersKept r s).trans {}

theorem recordSet_settersKept (r : ConfigRecord) (s : State) : SettersKept s (recordSet r s) :=
  (beforeArb_settersKept r s).trans {}

theorem recordsSet_settersKept (rs : List ConfigRecord) (s : State) : SettersKept s (recordsSet rs s) := by
  induction rs generalizing s with
  | nil => exact {}
  | cons r rs ih => exact (recordSet_settersKept r s).trans (ih _)

/-! ### INIT and the hand-made sequence -/

/-- R140: the length of the hand-made sequence. -/
theorem length_bootRequests (base : Word) (rs : List ConfigRecord) :
    (bootRequests base rs).length = 3 + 6 * rs.length := by
  have hrecords : (rs.flatMap recordRequests).length = 6 * rs.length := by
    induction rs with
    | nil => rfl
    | cons r rs ih => rw [List.flatMap_cons, List.length_append, ih, List.length_cons, recordRequests]; simp; omega
  rw [bootRequests, List.length_cons, List.length_cons, List.length_cons, hrecords]
  omega

/-- Settles O29: both leave `recordsSet rs (powered s)`, but for history, count and list. -/
theorem initEqualsTheHandMadeSequence : Obligations.InitEqualsTheHandMadeSequence := by
  unfold Obligations.InitEqualsTheHandMadeSequence
  intro rs s hs hlen hc hbuf hmem hbase hok
  obtain ⟨h, hinit⟩ := exec_init hs hlen hc hbuf hmem hbase hok
  obtain ⟨h', hboot⟩ := (performs_boot hs hmem hbase hc hok).execAll
  have hkept := recordsSet_settersKept rs (powered s)
  rw [length_bootRequests] at hboot
  exact ⟨_, _, hinit, hboot, rfl, rfl, rfl, hkept.flt, hkept.flt, rfl, hkept.cfg, rfl, (Nat.add_assoc ..).symm,
    hkept.port, hkept.par, hkept.draws⟩

/-- Settles O60: the refused write raises from the state that the hand-made sequence reaches up to there. -/
theorem initRefusedByMemoryKeepsWhatWasDone : Obligations.InitRefusedByMemoryKeepsWhatWasDone := by
  unfold Obligations.InitRefusedByMemoryKeepsWhatWasDone
  intro before after r rs s hs hrs hlen hc hbuf hmem hbase hok
  subst hrs
  have hbefore (q : ConfigRecord) (hq : q ∈ before) : q.ch.toNat < 16 := hc q (List.mem_append_left _ hq)
  have hr : r.ch.toNat < 16 := hc r (by simp)
  have hr' : r.ch.toNat < 32 := by omega
  have hprepared := prepared_powered hs hmem
  have hreached := hprepared.recordsSet hbefore
  have hkept := recordsSet_settersKept before (powered s)
  obtain ⟨h, hu⟩ := ((performs_boot hs hmem hbase hbefore hok).append (performs_beforeMode hreached hr)).execAll
  refine ⟨_, hu, fun a ha hrefused => ?_, fun hmode => ?_⟩
  · obtain ⟨_, hexec⟩ := exec_init_raised hs hlen hc hbuf hbase
      (raises_applyRecords hprepared hbefore hok (raises_applyRecord_mode hreached hr' ha hrefused))
    have hkept' := hkept.trans (beforeMode_settersKept r _)
    exact ⟨_, hexec, rfl, rfl, rfl, hkept'.cfg, rfl, rfl, hkept'.port, hkept'.par, hkept'.draws⟩
  · obtain ⟨_, hv⟩ := performs_beforeArb hreached hr' ((memOk_congr (hreached.beforeMode r).par _).trans hmode) h _
    refine ⟨_, hv, fun a ha hrefused => ?_⟩
    obtain ⟨_, hexec⟩ := exec_init_raised hs hlen hc hbuf hbase
      (raises_applyRecords hprepared hbefore hok (raises_applyRecord_arb hreached hr' hmode ha hrefused))
    have hkept' := hkept.trans (beforeArb_settersKept r _)
    exact ⟨_, hexec, rfl, rfl, rfl, hkept'.cfg, rfl, rfl, hkept'.port, hkept'.par, hkept'.draws⟩

end Sys2Proof.Machine

/-! SUPPORT. What a completed INIT leaves, field by field (spec 42_transfer_ops.md R91): what one record writes and
keeps, then what a list does. -/

namespace Sys2Proof.Machine

/-! ### The registers after a record -/

section Registers
variable {r : ConfigRecord} {s : State} {j : BitVec 8}

theorem recordSet_prio : (recordSet r s).csr.prio = putBit s.csr.prio r.ch (r.tier == .high) := by
  simp [recordSet, arbSet, beforeArb, modeSet, beforeMode]

theorem recordSet_altsel : (recordSet r s).csr.altsel = putBit s.csr.altsel r.ch (!primaryGroup r.mode) := by
  simp [recordSet, arbSet, beforeArb, modeSet, beforeMode]

theorem recordSet_useburst : (recordSet r s).csr.useburst = putBit s.csr.useburst r.ch (r.gran == .burst) := by
  simp [recordSet, arbSet, beforeArb, modeSet, beforeMode]

theorem recordSet_reqmask : (recordSet r s).csr.reqmask = putBit s.csr.reqmask r.ch false := by
  simp [recordSet, arbSet, beforeArb, modeSet, beforeMode]
  rfl

/-- R66, R91: a record ORs its encoding into the mapping field of its channel. -/
theorem mappingField_recordSet (hc : r.ch.toNat < 16) (hj : j.toNat < 16) :
    mappingField (recordSet r s).csr j =
      if j = r.ch then mappingField s.csr j ||| r.enc else mappingField s.csr j :=
  mappingField_orMapping hc hj s.csr r.enc

/-- R91: a record keeps every other channel. -/
theorem recordSet_channelKept (hc : r.ch.toNat < 16) (hj : j.toNat < 32) (hne : j ≠ r.ch) :
    ChannelKept j s (recordSet r s) := by
  have hc' : r.ch.toNat < 32 := by omega
  have hbit {v : Word} {b : Bool} : (putBit v r.ch b).getLsbD j.toNat = v.getLsbD j.toNat :=
    getLsbD_putBit_ne (toNat_ne hne)
  have hmap : ChannelKept j s (beforeMode r s) := (setmapBody_channelKept hc hne r.enc).trans { prio := hbit }
  have hmode : ChannelKept j s (modeSet r.ch r.mode (beforeMode r s)) :=
    (hmap.trans (channelKept_store hc' hj hne _ _ _ s.hist)).trans { altsel := hbit }
  have harb : ChannelKept j s (arbSet r.ch r.arb (beforeArb r s)) :=
    (hmode.trans { useburst := hbit }).trans (channelKept_store hc' hj hne _ _ _ s.hist)
  exact harb.trans { reqmask := hbit (b := false) }

end Registers

/-! ### The control word after a record -/

section ControlWord
variable {r : ConfigRecord} {s₀ s : State} {ch : BitVec 8} {a : Nat}

/-- R91: a record stores in the control words of its channel. -/
theorem readByte_recordSet {b : Nat} (hs : Prepared s₀ s)
    (hb : ∀ h : Half, b < entryAddr (bufferTable s₀.par) r.ch h .ctl ∨
      entryAddr (bufferTable s₀.par) r.ch h .ctl + 4 ≤ b) :
    readByte (recordSet r s).mem b = readByte s.mem b := by
  have houtside (u : State) (hu : u.csr.ctlbase = bufferTable s₀.par) (k : Half) :
      b < entaddr u r.ch k .ctl ∨ entaddr u r.ch k .ctl + 4 ≤ b := by
    rw [entaddr, hu]
    exact hb k
  have hmode := (hs.beforeMode r).base
  exact (readByte_writeWord_outside (houtside (beforeArb r s) hmode _)).trans
    (readByte_writeWord_outside (houtside (beforeMode r s) hmode _))

/-- R91: with the primary half as target, a record writes two fields of its channel's primary control word. -/
theorem readWord_recordSet (hs : Prepared s₀ s) (hp : s₀.par.fieldTarget = .primary) (hc : r.ch.toNat < 32)
    (ha : a = entryAddr (bufferTable s₀.par) r.ch .pri .ctl) :
    readWord (recordSet r s).mem a =
      insertField cwArb (insertField cwMode (readWord s.mem a) (r.mode.code.setWidth 32)) (r.arb.setWidth 32) := by
  have haddr {u : State} (hu : Prepared s₀ u) : entaddr u r.ch (tgt u r.ch) .ctl = a := by
    rw [tgt_primary (hu.par ▸ hp), entaddr, hu.base, ha]
  have hmode := hs.beforeMode r
  have harb := hs.beforeArb hc
  have hlim : a + 3 < Config.addrLimit := haddr hmode ▸ (entaddr_bounds hmode.aligned hc _ .ctl).2.2
  calc readWord (recordSet r s).mem a
      = insertField cwArb (readWord (beforeArb r s).mem a) (r.arb.setWidth 32) := by
        rw [show (recordSet r s).mem = writeWord (beforeArb r s).mem _ _ from rfl, haddr harb,
          readWord_writeWord_same harb.memWf hlim]
    _ = _ := by
        rw [show (beforeArb r s).mem = writeWord (beforeMode r s).mem _ _ from rfl, haddr hmode,
          readWord_writeWord_same hmode.memWf hlim]
        rfl

/-- R91: a record keeps the fields of a primary control word that are neither mode nor arbitration. -/
theorem extract_recordSet {k m : Nat} (hkm : (k + m ≤ 14 ∨ 18 ≤ k) ∧ 3 ≤ k) (hs : Prepared s₀ s)
    (hp : s₀.par.fieldTarget = .primary) (hc : r.ch.toNat < 16) (hch : ch.toNat < 16)
    (ha : a = entryAddr (bufferTable s₀.par) ch .pri .ctl) :
    (readWord (recordSet r s).mem a).extractLsb' k m = (readWord s.mem a).extractLsb' k m := by
  by_cases heq : ch = r.ch
  · subst heq
    rw [readWord_recordSet hs hp (by omega) ha, extract_insertField_other cwArb_covers (by omega),
      extract_insertField_other cwMode_covers (by omega)]
  · have hentry := (recordSet_channelKept hc (by omega) heq).entries (s := s) .pri .ctl
    rw [entaddr, hs.base, ← ha] at hentry
    rw [hentry]

end ControlWord

/-! ### A list of records -/

section Records
variable {rs before after : List ConfigRecord} {r : ConfigRecord} {s₀ s : State} {j ch : BitVec 8} {a : Nat}

/-- R91: the records keep every channel they do not list. -/
theorem recordsSet_channelKept (hc : ∀ r ∈ rs, r.ch.toNat < 16) (hj : j.toNat < 32) (hne : ∀ r ∈ rs, r.ch ≠ j) :
    ChannelKept j s (recordsSet rs s) := by
  induction rs generalizing s with
  | nil => exact .refl j s
  | cons r rs ih =>
    simp only [List.mem_cons, forall_eq_or_imp] at hc hne
    exact (recordSet_channelKept hc.1 hj hne.1.symm).trans (ih hc.2 hne.2)

/-- R91: each mapping field is the OR of its old value and the encodings of its channel's records. -/
theorem mappingField_recordsSet (hc : ∀ r ∈ rs, r.ch.toNat < 16) (hj : ch.toNat < 16) :
    mappingField (recordsSet rs s).csr ch =
      (rs.filter fun r => r.ch == ch).foldl (fun v r => v ||| r.enc) (mappingField s.csr ch) := by
  induction rs generalizing s with
  | nil => rfl
  | cons r rs ih =>
    simp only [List.mem_cons, forall_eq_or_imp] at hc
    rw [recordsSet_cons, ih hc.2, mappingField_recordSet hc.1 hj, List.filter_cons]
    by_cases heq : ch = r.ch
    · simp [heq]
    · simp [heq, Ne.symm heq]

/-- R91: the records store in the control words of the channels they list. -/
theorem readByte_recordsSet {b : Nat} (hs : Prepared s₀ s) (hc : ∀ r ∈ rs, r.ch.toNat < 16)
    (hb : ∀ r ∈ rs, ∀ h : Half, b < entryAddr (bufferTable s₀.par) r.ch h .ctl ∨
      entryAddr (bufferTable s₀.par) r.ch h .ctl + 4 ≤ b) :
    readByte (recordsSet rs s).mem b = readByte s.mem b := by
  induction rs generalizing s with
  | nil => rfl
  | cons r rs ih =>
    simp only [List.mem_cons, forall_eq_or_imp] at hc hb
    obtain ⟨hr, hrs⟩ := hc
    rw [recordsSet_cons, ih (hs.recordSet (by omega)) hrs hb.2, readByte_recordSet hs hb.1]

/-- R91: the records keep the fields of a primary control word that are neither mode nor arbitration. -/
theorem extract_recordsSet {k m : Nat} (hkm : (k + m ≤ 14 ∨ 18 ≤ k) ∧ 3 ≤ k) (hs : Prepared s₀ s)
    (hp : s₀.par.fieldTarget = .primary) (hc : ∀ r ∈ rs, r.ch.toNat < 16) (hch : ch.toNat < 16)
    (ha : a = entryAddr (bufferTable s₀.par) ch .pri .ctl) :
    (readWord (recordsSet rs s).mem a).extractLsb' k m = (readWord s.mem a).extractLsb' k m := by
  induction rs generalizing s with
  | nil => rfl
  | cons r rs ih =>
    simp only [List.mem_cons, forall_eq_or_imp] at hc
    obtain ⟨hr, hrs⟩ := hc
    rw [recordsSet_cons, ih (hs.recordSet (by omega)) hrs, extract_recordSet hkm hs hp hr hch ha]

/-- R91: where `r` is the last record of its channel, that channel's bits are those that `r` names. -/
theorem recordsSet_lastBits (hc : ∀ q ∈ before ++ r :: after, q.ch.toNat < 16) (hlast : ∀ q ∈ after, q.ch ≠ r.ch) :
    let c := (recordsSet (before ++ r :: after) s).csr
    c.prio.getLsbD r.ch.toNat = (r.tier == .high) ∧ c.altsel.getLsbD r.ch.toNat = (!primaryGroup r.mode) ∧
      c.useburst.getLsbD r.ch.toNat = (r.gran == .burst) ∧ c.reqmask.getLsbD r.ch.toNat = false := by
  simp only [List.mem_append, List.mem_cons] at hc
  have hr : r.ch.toNat < 32 := by have := hc r (by simp); omega
  have hkept := recordsSet_channelKept (s := recordSet r (recordsSet before s)) (fun q hq => hc q (.inr (.inr hq))) hr
    hlast
  rw [recordsSet_append, recordsSet_cons]
  refine ⟨hkept.prio.trans ?_, hkept.altsel.trans ?_, hkept.useburst.trans ?_, hkept.reqmask.trans ?_⟩
  · rw [recordSet_prio, getLsbD_putBit_same hr]
  · rw [recordSet_altsel, getLsbD_putBit_same hr]
  · rw [recordSet_useburst, getLsbD_putBit_same hr]
  · rw [recordSet_reqmask, getLsbD_putBit_same hr]

/-- R91: where `r` is the last record of its channel, the primary control word holds its mode and arbitration. -/
theorem recordsSet_lastWord (hs : Prepared s₀ s) (hp : s₀.par.fieldTarget = .primary)
    (hc : ∀ q ∈ before ++ r :: after, q.ch.toNat < 16) (hlast : ∀ q ∈ after, q.ch ≠ r.ch)
    (ha : a = entryAddr (bufferTable s₀.par) r.ch .pri .ctl) :
    let w := readWord (recordsSet (before ++ r :: after) s).mem a
    w.extractLsb' 0 3 = r.mode.code ∧ w.extractLsb' 14 4 = r.arb := by
  simp only [List.mem_append, List.mem_cons] at hc
  have hr : r.ch.toNat < 32 := by have := hc r (by simp); omega
  have hbefore : Prepared s₀ (recordsSet before s) := hs.recordsSet fun q hq => hc q (.inl hq)
  have hkept := (recordsSet_channelKept (s := recordSet r (recordsSet before s)) (fun q hq => hc q (.inr (.inr hq))) hr
    hlast).entries .pri .ctl
  rw [entaddr, (hbefore.recordSet hr).base, ← ha] at hkept
  rw [recordsSet_append, recordsSet_cons, hkept, readWord_recordSet hbefore hp hr ha]
  refine ⟨?_, ?_⟩
  · rw [extract_insertField_other cwArb_covers (by omega), extract_insertField_same cwMode_covers rfl (by omega),
      BitVec.extractLsb'_setWidth_of_le (by omega), BitVec.extractLsb'_eq_self]
  · rw [extract_insertField_same cwArb_covers rfl (by omega), BitVec.extractLsb'_setWidth_of_le (by omega),
      BitVec.extractLsb'_eq_self]

/-- R91: the records keep the register bits of every channel they do not list, and of those that there are not. -/
theorem recordsSet_bitsKept (hc : ∀ r ∈ rs, r.ch.toNat < 16) (hne : ∀ r ∈ rs, r.ch ≠ j) :
    let c := (recordsSet rs s).csr
    c.prio.getLsbD j.toNat = s.csr.prio.getLsbD j.toNat ∧ c.altsel.getLsbD j.toNat = s.csr.altsel.getLsbD j.toNat ∧
      c.useburst.getLsbD j.toNat = s.csr.useburst.getLsbD j.toNat ∧
      c.reqmask.getLsbD j.toNat = s.csr.reqmask.getLsbD j.toNat := by
  by_cases hj : j.toNat < 32
  · have hkept := recordsSet_channelKept (s := s) hc hj hne
    exact ⟨hkept.prio, hkept.altsel, hkept.useburst, hkept.reqmask⟩
  · have hzero (v : Word) : v.getLsbD j.toNat = false := BitVec.getLsbD_of_ge _ _ (by omega)
    simp only [hzero, and_self]

end Records

/-- Settles O30: INIT leaves `recordsSet rs (powered s)`, each field of which one lemma above names. -/
theorem initAppliesEachRecord : Obligations.InitAppliesEachRecord := by
  unfold Obligations.InitAppliesEachRecord
  intro rs s hs hlen hc hbuf hmem hbase hok
  obtain ⟨h, hinit⟩ := exec_init hs hlen hc hbuf hmem hbase hok
  have hprepared := prepared_powered hs hmem
  have hkept := recordsSet_settersKept rs (powered s)
  refine ⟨_, hinit, hkept.sys, rfl, rfl, hkept.flt, hkept.port, hkept.par, hkept.draws, hkept.masten, hkept.base,
    hkept.written, hkept.ena, hkept.err, hkept.chasgn, fun before after r hrs hlast => ?_,
    fun ch hch => mappingField_recordsSet hc hch, fun ch hne => recordsSet_bitsKept hc hne,
    fun b hb => readByte_recordsSet hprepared hc hb⟩
  subst hrs
  have hr : r.ch.toNat < 16 := hc r (by simp)
  obtain ⟨hprio, haltsel, huseburst, hreqmask⟩ := recordsSet_lastBits (s := powered s) hc hlast
  refine ⟨hprio, haltsel.trans (not_primaryGroup r.mode), huseburst, hreqmask, fun hp a ha => ?_⟩
  obtain ⟨hmode, harb⟩ := recordsSet_lastWord hprepared hp hc hlast ha
  exact ⟨hmode, harb, extract_recordsSet (by omega) hprepared hp hc hr ha,
    extract_recordsSet (by omega) hprepared hp hc hr ha⟩

end Sys2Proof.Machine
